-- ==== Sys2Proof/Word.lean ====
section
/-! DEFINITION. The bit-vector words of SBCODEC (00_scope.md R9, R10): a byte, the 64-bit register datum, the
16-bit command word and the 4-bit register index. -/

namespace Sys2Proof

/-- A byte; bit 7 is the most significant (R9). -/
abbrev Byte := BitVec 8

/-- The datum of a register access, 64 bits (20_memory.md R50, R60). -/
abbrev Word := BitVec 64

/-- A command word, bits [15:0] of a write to `CMD` (30_encoding.md R70). -/
abbrev CmdWord := BitVec 16

/-- A register index, 0 to 15 (20_memory.md R50). -/
abbrev RegIdx := BitVec 4

end Sys2Proof
end

