-- ==== Sys2Proof/Config.lean ====
section
/-! DEFINITION. The implementation parameters of 00_scope.md R7. The queue capacities are OPEN there and stay
uninterpreted here; every other parameter has the value R7 gives it. -/

namespace Sys2Proof.Config

/-- The identity string (R1, decision D35). -/
def identity : String :=
  "SBCODEC-1.0 (Comm stop-bit codec, widths 8/16/32/64, mantissa 64, real binary64, size type 64)"

/-- How far `IN_CAP` exceeds 32. No body: `IN_CAP` is open in the spec (R7, R52). Log entry 3. -/
opaque inCapExtra : Nat

/-- How far `OUT_CAP` exceeds 32. No body: `OUT_CAP` is open in the spec (R7, R52). Log entry 3. -/
opaque outCapExtra : Nat

/-- `IN_CAP`, any natural number at least 32 (R7, R52). -/
def inCap : Nat := inCapExtra + 32

/-- `OUT_CAP`, any natural number at least 32 (R7, R52). -/
def outCap : Nat := outCapExtra + 32

/-- `SIZE_N`, the byte width of the size type (R7, R191). -/
def sizeN : Nat := 8

/-- `MANT_W`, the width of the decimal mantissa (R7). -/
def mantW : Nat := 64

/-- `PLATFORM_MAX`, the exclusive upper limit of a FixedAscii length (R7, R191, R199). -/
def platformMax : Nat := 2 ^ 64 - 1

/-- `EXP_MIN` (R7, R141). -/
def expMin : Int := -64

/-- `EXP_MAX` (R7, R141). -/
def expMax : Int := 63

/-- `P_MAX`, the largest precision a command can carry (R7, R73). -/
def pMax : Nat := 63

/-- `PAD_BYTE` (R7, R192). -/
def padByte : Byte := 0x00

/-- `NAN_PATTERN` (R7, R165). -/
def nanPattern : Word := 0x7FF8000000000000

/-- The reset pattern of `CFG`: Compact, width 10, the `HWIDTH_DEFAULT` (R7, R32). -/
def cfgReset : BitVec 6 := 0x12

end Sys2Proof.Config
end

