-- ==== Sys2Proof/Syntax.lean ====
section
/-! DEFINITION. The command set: one constructor per row of the opcode map (30_encoding.md R74). -/

namespace Sys2Proof

/-- The integer widths `wsel` selects (R72): 8, 16, 32, 64 bits. -/
inductive Width where
  | w8
  | w16
  | w32
  | w64
deriving DecidableEq, Repr

/-- The twelve commands of R74. `encr` carries `max_precision_digits` as the count it is (R73); that it is at most
63 is a check of `Instr.wf`. -/
inductive Instr where
  /-- `ENCU.W<w>`, encode unsigned (R107). -/
  | encu (w : Width)
  /-- `DECU.W<w>`, decode unsigned (R109). -/
  | decu (w : Width)
  /-- `ENCS.W<w>`, encode signed (R113). -/
  | encs (w : Width)
  /-- `DECS.W<w>`, decode signed (R118). -/
  | decs (w : Width)
  /-- `ENCR P=<p>`, encode real with at most `p` decimal digits (R150). -/
  | encr (p : Nat)
  /-- `ENCR.U`, encode real with no precision limit (R151). -/
  | encrU
  /-- `DECR`, decode real (R165). -/
  | decr
  /-- `ENCD`, encode the decimal pair (R153). -/
  | encd
  /-- `DECD`, decode the decimal pair (R164). -/
  | decd
  /-- `HDRE`, build a frame header (R192). -/
  | hdre
  /-- `HDRD`, read a frame header (R196). -/
  | hdrd
  /-- `SRST`, soft reset (R205). -/
  | srst
deriving DecidableEq, Repr

end Sys2Proof
end

