-- ==== Sys2Proof/WellFormed.lean ====
section
/-! DEFINITION. Which terms of `Instr` are commands of the hardware. -/

namespace Sys2Proof

/-- A command is well formed when its precision fits the 6-bit `prec` field (30_encoding.md R73); the other
commands carry only a width, and all four widths are legal (R72). -/
def Instr.wf : Instr → Bool
  | .encu _ => true
  | .decu _ => true
  | .encs _ => true
  | .decs _ => true
  | .encr p => decide (p ≤ Config.pMax)
  | .encrU => true
  | .decr => true
  | .encd => true
  | .decd => true
  | .hdre => true
  | .hdrd => true
  | .srst => true

end Sys2Proof
end

