-- ==== Sys2Proof/Decode.lean ====
section
/-! DEFINITION. The opcode map of 30_encoding.md R74 as a table, the decoder over it (R76), and the encoder. -/

namespace Sys2Proof

/-! ## Fields (R70 to R73) -/

/-- The field `op`, bits [3:0] (R70, R71). -/
def opField (c : CmdWord) : BitVec 4 := c.extractLsb' 0 4

/-- The field `wsel`, bits [5:4] (R70, R72). -/
def wselField (c : CmdWord) : BitVec 2 := c.extractLsb' 4 2

/-- The field `prec`, bits [11:6] (R70, R73). -/
def precField (c : CmdWord) : BitVec 6 := c.extractLsb' 6 6

/-- The field `unb`, bit [12] (R70, R73). -/
def unbField (c : CmdWord) : BitVec 1 := c.extractLsb' 12 1

/-- The width a `wsel` selects: byte width `2^wsel` (R72). -/
def widthOfSel (b : BitVec 2) : Width :=
  match b.toNat with
  | 0 => .w8
  | 1 => .w16
  | 2 => .w32
  | _ => .w64

/-- The `wsel` of a width (R72). -/
def selOfWidth : Width → BitVec 2
  | .w8 => 0
  | .w16 => 1
  | .w32 => 2
  | .w64 => 3

/-! ## The opcode map (R74) -/

/-- One row of the opcode map: a word `c` selects the row when `c &&& mask = pattern`, and `build` reads the
operand fields the row uses. -/
structure Row where
  mask : CmdWord
  pattern : CmdWord
  build : CmdWord → Instr

/-- A word selects a row when the masked word is the row's pattern (R74). -/
def rowHits (c : CmdWord) (r : Row) : Bool := c &&& r.mask == r.pattern

/-- The twelve rows of R74, in its order. -/
def rows : List Row :=
  [ ⟨0xFFCF, 0x0001, fun c => .encu (widthOfSel (wselField c))⟩,
    ⟨0xFFCF, 0x0002, fun c => .decu (widthOfSel (wselField c))⟩,
    ⟨0xFFCF, 0x0003, fun c => .encs (widthOfSel (wselField c))⟩,
    ⟨0xFFCF, 0x0004, fun c => .decs (widthOfSel (wselField c))⟩,
    ⟨0xF03F, 0x0005, fun c => .encr (precField c).toNat⟩,
    ⟨0xFFFF, 0x1005, fun _ => .encrU⟩,
    ⟨0xFFFF, 0x0006, fun _ => .decr⟩,
    ⟨0xFFFF, 0x0007, fun _ => .encd⟩,
    ⟨0xFFFF, 0x0008, fun _ => .decd⟩,
    ⟨0xFFFF, 0x0009, fun _ => .hdre⟩,
    ⟨0xFFFF, 0x000A, fun _ => .hdrd⟩,
    ⟨0xFFFF, 0x000F, fun _ => .srst⟩ ]

/-- Why a word is no command. -/
inductive DecodeError where
  /-- The word matches no row of R74: `Illegal` (R75, R76). Executing it ends `IllegalCmd`. -/
  | illegal
deriving DecidableEq, Repr

/-- Decoding a command word (R76): total, and it reads nothing but the word. -/
def decode (c : CmdWord) : Except DecodeError Instr :=
  match rows.find? (rowHits c) with
  | some r => .ok (r.build c)
  | none => .error .illegal

/-- The host's question: the instruction decoded from a table row's bits. The command set has one length, 16 bits,
and one word (R77). -/
def decodeTableWord (nbits w : Nat) : Option Instr :=
  (decode (BitVec.ofNat 16 (w % 2 ^ nbits))).toOption

/-! ## The encoder -/

/-- A command word from its fields (R70): `unb`, `prec`, `wsel`, `op`, most significant first. -/
def packWord (unb : BitVec 1) (prec : BitVec 6) (wsel : BitVec 2) (op : BitVec 4) : CmdWord :=
  (0 : BitVec 3) ++ unb ++ prec ++ wsel ++ op

/-- The command word of an instruction (R72 to R74). -/
def encode : Instr → CmdWord
  | .encu w => packWord 0 0 (selOfWidth w) 0x1
  | .decu w => packWord 0 0 (selOfWidth w) 0x2
  | .encs w => packWord 0 0 (selOfWidth w) 0x3
  | .decs w => packWord 0 0 (selOfWidth w) 0x4
  | .encr p => packWord 0 (BitVec.ofNat 6 p) 0 0x5
  | .encrU => packWord 1 0 0 0x5
  | .decr => packWord 0 0 0 0x6
  | .encd => packWord 0 0 0 0x7
  | .decd => packWord 0 0 0 0x8
  | .hdre => packWord 0 0 0 0x9
  | .hdrd => packWord 0 0 0 0xA
  | .srst => packWord 0 0 0 0xF

end Sys2Proof
end

