-- ==== Sys2Proof/Machine/State.lean ====
section
/-! DEFINITION. The state of SBCODEC (10_state.md R21 to R39), with the agents outside the block held as plain
data beside it, and the reasons a step can stop. -/

namespace Sys2Proof.Machine

/-- The outcome codes a command can leave in `STATUS.CODE` (60_exceptions.md R260). -/
inductive Code where
  | ok
  | malformedVarint
  | headerTooLong
  | badHeader
  | underrun
  | outFull
  | encodeRange
  | realRange
  | expRange
  | illegalCmd
deriving DecidableEq, Repr

/-- What a register index names (10_state.md R35). -/
inductive Reg where
  | cmd
  | status
  | sticky
  | cfg
  | val
  | rval
  | mant
  | expo
  | ilvl
  | olvl
  | reserved
deriving DecidableEq, Repr

/-- The agents that act on the block, one atomic action at a time (R20; 70_reset_and_hazards.md R290). -/
inductive Agent where
  /-- The host takes its next register access. -/
  | host
  /-- The byte source takes its one action, a push. -/
  | source
  /-- The byte sink takes its one action, a pop. -/
  | sink
  /-- The reset event. -/
  | reset
deriving DecidableEq, Repr

/-- One register access of the host (20_memory.md R50, R60). -/
inductive HostAccess where
  | read (i : RegIdx)
  | write (i : RegIdx) (d : Word)
deriving DecidableEq, Repr

/-- MODEL. The agents outside the block: what they will still do and what they got, as plain data. `turns` is the
total order of actions (20_memory.md R62); a statement for every `turns` quantifies over every interleaving (R63).
Log entries 1, 2 and 14. -/
structure Env where
  /-- Which agent acts next, and after it. -/
  turns : List Agent
  /-- The host's register accesses still to come. -/
  host : List HostAccess
  /-- The bytes the source has still to push. -/
  source : List Byte
  /-- What the host's reads returned, oldest first. -/
  seen : List Word
  /-- The bytes the sink popped, oldest first. -/
  sunk : List Byte
deriving DecidableEq, Repr

/-- No action is scheduled and none was seen. Log entry 2. -/
def idleEnv : Env := { turns := [], host := [], source := [], seen := [], sunk := [] }

/-- The state of the block, the tuple of R21, and beside it the MODEL's `env`. `CMD`, `ILVL` and `OLVL` have no
storage (R21) and so no field. -/
structure State where
  /-- `VAL` (R22). -/
  val : Word
  /-- `RVAL`, a binary64 pattern (R23). -/
  rval : Word
  /-- `MANT`, two's complement (R24). -/
  mant : Word
  /-- `EXPO`, two's complement (R25). -/
  expo : BitVec 8
  /-- `CFG`, its 6 used bits (R32). -/
  cfg : BitVec 6
  /-- `STATUS` (R30). -/
  status : Word
  /-- `STICKY` (R31). -/
  sticky : Word
  /-- `IN`, head first (R36). -/
  inq : List Byte
  /-- `OUT`, head first (R37). -/
  outq : List Byte
  /-- MODEL: the agents outside the block. -/
  env : Env
deriving DecidableEq, Repr

/-- The reasons the machine stops with a fault: there are none. Every command ends with an outcome code and the
block goes on (60_exceptions.md R262, R275), every access is allowed (20_memory.md R61), and an agent that is not
enabled is held (R53, R54). Safe: no behaviour of the block is cut off. -/
inductive Fault where
deriving DecidableEq, Repr

/-- The reasons the model has no meaning for an instruction. -/
inductive Refusal where
  /-- Raised by an arm of `exec` whose instruction has no meaning yet; no arm raises it now. Safe: the machine stops
  where the hardware goes on. -/
  | notModelled (mnemonic : String)
deriving DecidableEq, Repr

/-- What a step of this machine answers. -/
abbrev Result := Host.Outcome State Fault Refusal

/-- The state after reset (R39): every data register 0, `CFG = 0x12`, `STATUS` and `STICKY` 0, both queues empty.
The agents outside the block have nothing scheduled (log entry 2). -/
def State.reset : State :=
  { val := 0, rval := 0, mant := 0, expo := 0, cfg := Config.cfgReset, status := 0, sticky := 0,
    inq := [], outq := [], env := idleEnv }

/-! ## Updates, one per field -/

/-- Write `VAL`. -/
def State.setVal (s : State) (v : Word) : State := { s with val := v }

/-- Write `RVAL`. -/
def State.setRval (s : State) (v : Word) : State := { s with rval := v }

/-- Write `MANT`. -/
def State.setMant (s : State) (v : Word) : State := { s with mant := v }

/-- Write `EXPO`. -/
def State.setExpo (s : State) (v : BitVec 8) : State := { s with expo := v }

/-- Write `CFG`. -/
def State.setCfg (s : State) (v : BitVec 6) : State := { s with cfg := v }

/-- Write `STATUS`. -/
def State.setStatus (s : State) (v : Word) : State := { s with status := v }

/-- Write `STICKY`. -/
def State.setSticky (s : State) (v : Word) : State := { s with sticky := v }

/-- Replace the input queue. -/
def State.setInq (s : State) (v : List Byte) : State := { s with inq := v }

/-- Replace the output queue. -/
def State.setOutq (s : State) (v : List Byte) : State := { s with outq := v }

/-- Replace the outside agents' data. -/
def State.setEnv (s : State) (v : Env) : State := { s with env := v }

end Sys2Proof.Machine
end

