-- ==== Sys2Proof/Machine/Flags.lean ====
section
/-! DEFINITION. The outcome code's number, the sticky bit it sets, the flags `NF` and `OVL`, and the layout of
`STATUS` (10_state.md R28, R30, R31; 60_exceptions.md R260). -/

namespace Sys2Proof.Machine

/-- The number of an outcome code (R260). -/
def codeNumber : Code → Nat
  | .ok => 0
  | .malformedVarint => 1
  | .headerTooLong => 2
  | .badHeader => 3
  | .underrun => 4
  | .outFull => 5
  | .encodeRange => 6
  | .realRange => 7
  | .expRange => 8
  | .illegalCmd => 9

/-- Whether an outcome sets its bit of `STICKY` (R31, R260): `Underrun` and `OutFull` are the block's form of
`WouldBlock` and set none, nor does `OK`. -/
def codeSticky : Code → Bool
  | .ok => false
  | .malformedVarint => true
  | .headerTooLong => true
  | .badHeader => true
  | .underrun => false
  | .outFull => false
  | .encodeRange => true
  | .realRange => true
  | .expRange => true
  | .illegalCmd => true

/-- The bits an outcome sets in `STICKY` (R31, R262). -/
def stickyBits (x : Code) : Word :=
  if codeSticky x then BitVec.ofNat 64 (2 ^ codeNumber x) else 0

/-- The used bits of `STICKY`: 1, 2, 3, 6, 7, 8, 9 (R31; 30_encoding.md R80). -/
def stickyMask : Word := 0x3CE

/-- `STATUS` from its fields (R30): `CODE` [3:0], `NF` [4], `OVL` [5], `CNT` [15:8], every other bit 0. `CNT` has
eight bits; no count exceeds 32 (log entry 9). -/
def packStatus (x : Code) (nf ovl : Bool) (cnt : Nat) : Word :=
  BitVec.ofNat 64 (codeNumber x + (if nf then 2 ^ 4 else 0) + (if ovl then 2 ^ 5 else 0) + cnt % 2 ^ 8 * 2 ^ 8)

/-- The bits of `STATUS` that are used (R30). -/
def statusMask : Word := 0xFF3F

/-- `STATUS.CODE`, bits [3:0] (R30). -/
def State.codeField (s : State) : Nat := (s.status.extractLsb' 0 4).toNat

/-- `STATUS.NF`, bit [4] (R28, R30). -/
def State.nf (s : State) : Bool := s.status.getLsbD 4

/-- `STATUS.OVL`, bit [5] (R28, R30). -/
def State.ovl (s : State) : Bool := s.status.getLsbD 5

/-- `STATUS.CNT`, bits [15:8] (R30). -/
def State.cnt (s : State) : Nat := (s.status.extractLsb' 8 8).toNat

/-- A number that is no W-bit unsigned value: `v ≥ 2^W` (40_varint.md R105, R109). -/
def outsideUnsigned (W v : Nat) : Bool := decide (2 ^ W ≤ v)

/-- A number that is no W-bit signed value: outside `-2^(W-1)` to `2^(W-1) - 1` (R112, R118; 41_real.md R149). -/
def outsideSigned (W : Nat) (v : Int) : Bool :=
  decide (v < -((2 ^ (W - 1) : Nat) : Int)) || decide (((2 ^ (W - 1) : Nat) : Int) ≤ v)

/-- `OVL` of an unsigned field of value `full` at width `W` (40_varint.md R109). -/
def ovlUnsigned (W full : Nat) : Bool := outsideUnsigned W full

/-- `OVL` of a signed field of value `full` at width `W` (R118). -/
def ovlSigned (W : Nat) (full : Int) : Bool := outsideSigned W full

end Sys2Proof.Machine
end

