-- ==== Sys2Proof/Machine/Operands.lean ====
section
/-! DEFINITION. The operand forms: widths and bounds, the stop-bit byte groups of an integer, finding the end of a
field, folding a field, the decimal pair, and the FixedAscii digits (40_varint.md, 41_real.md, 42_frame_header.md). -/

namespace Sys2Proof.Machine

/-! ## Widths and bounds (30_encoding.md R72; 40_varint.md R101, R102) -/

/-- `N`, the byte width a width selects (R72). -/
def widthBytes : Width → Nat
  | .w8 => 1
  | .w16 => 2
  | .w32 => 4
  | .w64 => 8

/-- `W`, the bit width a width selects (R72). -/
def widthBits (w : Width) : Nat := 8 * widthBytes w

/-- `ubound(N) = N + ceil(N/7)` (R101). -/
def ubound (n : Nat) : Nat := n + (n + 6) / 7

/-- `sbound(N) = N + floor(N/7) + 1` (R102). -/
def sbound (n : Nat) : Nat := n + n / 7 + 1

/-! ## Emitting groups (R100, R106, R107, R111, R113) -/

/-- `bitlen(v)`: the least k with `v < 2^k` (00_scope.md R10). -/
def bitlen (v : Nat) : Nat := if v = 0 then 0 else Nat.log2 v + 1

/-- `ulen(v) = max(1, ceil(bitlen(v)/7))` (R106). -/
def ulen (v : Nat) : Nat := max 1 ((bitlen v + 6) / 7)

/-- The number whose bit length decides how many groups a signed `v` takes: `v` or its complement. -/
def signMagnitude (v : Int) : Nat := if 0 ≤ v then v.toNat else (-v - 1).toNat

/-- `slen(v)`: the least n at least 1 with `-2^(7n-1) ≤ v < 2^(7n-1)` (R111), in closed form: the payload holds
the bits of `v` or of its complement, and one sign bit. `slen_fits` and `slen_least` say it is that least n. -/
def slen (v : Int) : Nat := (bitlen (signMagnitude v) + 7) / 7

/-- A non-final byte of a field: the group in bits [6:0], bit 7 clear (R100). -/
def groupByte (g : Nat) : Byte := BitVec.ofNat 8 (g % 128)

/-- The last byte of a field: the group in bits [6:0] with the stop bit, `payload | 0x80` (R100, R107). -/
def stopByte (g : Nat) : Byte := BitVec.ofNat 8 (g % 128 + 128)

/-- The `k` groups of `u` above its last one, most significant first, as non-final bytes (R107). -/
def leadBytes : Nat → Nat → List Byte
  | 0, _ => []
  | k + 1, u => groupByte (u / 128 ^ (k + 1)) :: leadBytes k u

/-- The `n` bytes of a field that holds the number `u` (R107, R113): `n-1` leading groups, then the stop byte. -/
def fieldBytes (n u : Nat) : List Byte := leadBytes (n - 1) u ++ [stopByte u]

/-- The bytes `ENCU` emits for `v` at byte width `N` (R107). -/
def uencode (n v : Nat) : List Byte := fieldBytes (min (ulen v) (ubound n)) v

/-- The `7n`-bit two's complement pattern of `v`, as a number (R113). -/
def patternOf (n : Nat) (v : Int) : Nat := (v % ((2 ^ (7 * n) : Nat) : Int)).toNat

/-- The bytes `ENCS` emits for `v` at byte width `N` (R113). -/
def sencode (n : Nat) (v : Int) : List Byte :=
  fieldBytes (min (slen v) (sbound n)) (patternOf (min (slen v) (sbound n)) v)

/-! ## Finding and folding a field (R108, R109, R117, R118) -/

/-- What `scan` answers (R108). -/
inductive Scan where
  | found (n : Nat)
  | malformed
  | underrun
deriving DecidableEq, Repr

/-- Bit 7 of a byte, the stop marker (R100). -/
def stopBit (b : Byte) : Bool := b.getLsbD 7

/-- Bits [6:0] of a byte, its group (R100). -/
def payload (b : Byte) : Nat := b.toNat % 128

/-- `scan(s, M)` over `IN` (R108): look at up to `M` bytes from offset `s`, in order, for a stop bit. -/
def scan (off bound : Nat) (q : List Byte) : Scan :=
  match ((q.drop off).take bound).findIdx? stopBit with
  | some i => .found (i + 1)
  | none => if off + bound ≤ q.length then .malformed else .underrun

/-- Bit 6 of the first byte of a field, the sign (R117). -/
def signBit : List Byte → Bool
  | [] => false
  | b :: _ => b.getLsbD 6

/-- The decoders' accumulator: `acc ← ((acc << 7) | group) mod 2^W` over the field, from a seed (R109, R118). -/
def foldAcc (W seed : Nat) (field : List Byte) : Nat :=
  field.foldl (fun acc b => (acc * 128 + payload b) % 2 ^ W) seed

/-- `full` of an unsigned field: all its groups as one number (R109). -/
def fieldNat (field : List Byte) : Nat :=
  field.foldl (fun full b => full * 128 + payload b) 0

/-- `full` of a signed field: all its groups as one two's complement number (R118). -/
def fieldInt (field : List Byte) : Int :=
  if signBit field then (fieldNat field : Int) - ((2 ^ (7 * field.length) : Nat) : Int) else (fieldNat field : Int)

/-- The seed of the signed accumulator: all ones or all zeros, by the sign bit (R117). -/
def signedSeed (W : Nat) (field : List Byte) : Nat := if signBit field then 2 ^ W - 1 else 0

/-- `sW(p)`: a W-bit pattern read as two's complement (00_scope.md R10). -/
def asSigned (W p : Nat) : Int :=
  if p < 2 ^ (W - 1) then (p : Int) else (p : Int) - ((2 ^ W : Nat) : Int)

/-- `sW(acc)` of a signed field, the signed value decoded at width W (R118). -/
def signedValue (W : Nat) (field : List Byte) : Int :=
  asSigned W (foldAcc W (signedSeed W field) field)

/-! ## The decimal pair (41_real.md R141, R146, R147, R161) -/

/-- `canon(m, e)`: fold trailing decimal zeros of the mantissa into the exponent (R146), with at most `fuel`
turns of the loop. -/
def canonLoop : Nat → Int → Int → Int × Int
  | 0, m, e => (m, e)
  | fuel + 1, m, e => if m ≠ 0 ∧ m.natAbs % 10 = 0 then canonLoop fuel (m / 10) (e + 1) else (m, e)

/-- `canon(m, e)` (R146). The loop runs at most 18 times for a 64-bit mantissa (R146); it is given 20 (log entry 7). -/
def canon (m e : Int) : Int × Int := canonLoop 20 m e

/-- The exponent byte: `bits8(e) & 0x7F` (R141, R147). -/
def expByte (e : Int) : Byte := BitVec.ofInt 8 e &&& 0x7F

/-- The exponent of a first byte: its low seven bits, sign extended from bit 6 (R161). -/
def expOfByte (b : Byte) : Int := (payload b : Int) - (if b.getLsbD 6 then 128 else 0)

/-- Whether an exponent can be sent: `-64 ≤ e ≤ 63` (R141, R147). -/
def expInRange (e : Int) : Bool := decide (Config.expMin ≤ e) && decide (e ≤ Config.expMax)

/-- `emit(m, e)`: the exponent byte, then `senc64(m)` (R147). -/
def pairBytes (m e : Int) : List Byte := expByte e :: sencode (Config.mantW / 8) m

/-- The one byte that stands for every non-finite value (R142). -/
def nonFiniteByte : Byte := 0xFF

/-- What parsing a real from `IN` answers (R163). -/
inductive Parse where
  | underrun
  | malformed
  | nonFinite
  | zeroShort (e : Int)
  | pair (m e : Int) (consumed : Nat) (ovl : Bool)
deriving DecidableEq, Repr

/-- `parse()` over `IN` (R163): the test for 0xFF first, then bit 7 (the zero short form, R160), then the mantissa. -/
def parseReal (q : List Byte) : Parse :=
  match q with
  | [] => .underrun
  | b0 :: rest =>
    if b0 = nonFiniteByte then .nonFinite
    else if stopBit b0 then .zeroShort (expOfByte b0)
    else
      match scan 1 (sbound (Config.mantW / 8)) q with
      | .underrun => .underrun
      | .malformed => .malformed
      | .found n =>
        .pair (signedValue Config.mantW (rest.take n)) (expOfByte b0) (1 + n)
          (ovlSigned Config.mantW (fieldInt (rest.take n)))

/-! ## FixedAscii digits (42_frame_header.md R193, R198) -/

/-- The ASCII byte of a decimal digit, `0x30 + d` (R193). -/
def digitByte (d : Nat) : Byte := BitVec.ofNat 8 (0x30 + d % 10)

/-- `dec(L)` by repeated division by ten, with at most `fuel` divisions. -/
def decLoop : Nat → Nat → List Byte
  | 0, n => [digitByte n]
  | fuel + 1, n => if n < 10 then [digitByte n] else decLoop fuel (n / 10) ++ [digitByte n]

/-- `dec(L)`: the ASCII decimal digits of `L`, most significant first, no leading zero (R193). A 64-bit length has at
most 20 digits (R193, log entry 7). -/
def dec (l : Nat) : List Byte := decLoop 20 l

/-- An ASCII digit (R198). -/
def isDigit (b : Byte) : Bool := decide (0x30 ≤ b.toNat) && decide (b.toNat ≤ 0x39)

/-- An ASCII space (R198). -/
def isSpace (b : Byte) : Bool := b == 0x20

/-- A byte that may follow the digits: NUL or space (R198). -/
def isPad (b : Byte) : Bool := b == 0x00 || b == 0x20

/-- The base-ten number a digit list spells, most significant first (R198). -/
def digitsValue (ds : List Byte) : Nat := ds.foldl (fun n b => n * 10 + (b.toNat - 0x30)) 0

/-- `asciiparse(h)` (R198): spaces, then one or more digits, then only NUL or space; `none` is `Bad`. -/
def asciiParse (h : List Byte) : Option Nat :=
  let body := h.dropWhile isSpace
  let digits := body.takeWhile isDigit
  let trail := body.dropWhile isDigit
  if digits ≠ [] ∧ trail.all isPad then some (digitsValue digits) else none

/-! ## `CFG` (10_state.md R32) -/

/-- `CFG.HMODE = 1`: the header mode is FixedAscii (R32, R190). -/
def State.fixedAscii (s : State) : Bool := s.cfg.getLsbD 0

/-- `HWIDTH = CFG.HWM1 + 1`, the FixedAscii header width in bytes (R32). -/
def State.hwidth (s : State) : Nat := (s.cfg.extractLsb' 1 5).toNat + 1

end Sys2Proof.Machine
end

