-- ==== Sys2Proof/Machine/Ops.lean ====
section
/-! DEFINITION. The shared operations over the state: the two stream primitives of 00_scope.md R12, how a command
ends (60_exceptions.md R262), and the two shapes every command is built from: all-or-nothing output
(20_memory.md R57) and field decoding (R58). -/

namespace Sys2Proof.Machine

/-- `InDrop(n)`: remove the first `n` bytes of `IN` (00_scope.md R12). -/
def inDrop (n : Nat) (s : State) : State := s.setInq (s.inq.drop n)

/-- `OutAppend(xs)`: append `xs` at the tail of `OUT` (00_scope.md R12). -/
def outAppend (xs : List Byte) (s : State) : State := s.setOutq (s.outq ++ xs)

/-- `OUT_CAP - |OUT|`, the room in `OUT`. -/
def outRoom (s : State) : Nat := Config.outCap - s.outq.length

/-- The decimal pair written to its registers: `MANT <- bits64(m)`, `EXPO <- bits8(e)` (41_real.md R150). -/
def setPair (m e : Int) (s : State) : State :=
  (s.setMant (BitVec.ofInt 64 m)).setExpo (BitVec.ofInt 8 e)

/-- The state in which a command has ended `OK` with count `c`: all of `STATUS` is written (R262). -/
def finished (nf ovl : Bool) (c : Nat) (s : State) : State := s.setStatus (packStatus .ok nf ovl c)

/-- `done(c)`: the command ends `OK` (R262). -/
def done (nf ovl : Bool) (c : Nat) (s : State) : Result := .next (finished nf ovl c s)

/-- The state in which a command has ended with outcome `x` and count `c` (R262): all of `STATUS` is written, with
both flags 0, and the outcome's bit of `STICKY` is set. -/
def raised (x : Code) (c : Nat) (s : State) : State :=
  (s.setSticky (s.sticky ||| stickyBits x)).setStatus (packStatus x false false c)

/-- `raise X(c)`: the command ends with outcome `X` (R262). This is the block's whole exception entry: no control is
transferred and no other state is saved (R275), so there is no return from it (R276). The bytes that codes 1 to 3
consume are dropped by the command's own `InDrop` before it. -/
def raise (x : Code) (c : Nat) (s : State) : Result := .next (raised x c s)

/-- The end of every encode command (20_memory.md R57): when `OUT` has less room than the whole encoding, `OutFull`
and nothing else (R267); otherwise the registers the command writes, the whole encoding appended, and `OK`. -/
def emitAll (bs : List Byte) (nf : Bool) (writes : State → State) (s : State) : Result :=
  if outRoom s < bs.length then raise .outFull 0 s
  else done nf false bs.length (outAppend bs (writes s))

/-- Decode one unsigned field at width `W` with bound `M` into `VAL` (40_varint.md R109), reporting a missing stop
bit as `bad` (`MalformedVarint` for `DECU`, `HeaderTooLong` for `HDRD`, 42_frame_header.md R197). -/
def decodeUnsigned (W M : Nat) (bad : Code) (s : State) : Result :=
  match scan 0 M s.inq with
  | .underrun => raise .underrun 0 s
  | .malformed => raise bad M (inDrop M s)
  | .found n =>
    done false (ovlUnsigned W (fieldNat (s.inq.take n))) n
      (inDrop n (s.setVal (BitVec.ofNat 64 (foldAcc W 0 (s.inq.take n)))))

/-- Decode one signed field at width `W` with bound `M` into `VAL` (40_varint.md R118). -/
def decodeSigned (W M : Nat) (s : State) : Result :=
  match scan 0 M s.inq with
  | .underrun => raise .underrun 0 s
  | .malformed => raise .malformedVarint M (inDrop M s)
  | .found n =>
    done false (ovlSigned W (fieldInt (s.inq.take n))) n
      (inDrop n (s.setVal (BitVec.ofInt 64 (signedValue W (s.inq.take n)))))

/-- The end of the commands that emit a decimal pair: canonical form, the exponent check, emission
(41_real.md R146, R147, R150, R153). -/
def emitPair (m0 e0 : Int) (s : State) : Result :=
  let p := canon m0 e0
  if expInRange p.2 then emitAll (pairBytes p.1 p.2) false (setPair p.1 p.2) s
  else raise .expRange 0 s

end Sys2Proof.Machine
end

