-- ==== Sys2Proof/Machine/Header.lean ====
section
/-! DEFINITION. The frame header commands `HDRE`, `HDRD` (42_frame_header.md); the mode and the width are read from
`CFG` when the command executes (30_encoding.md R76). -/

namespace Sys2Proof.Machine

/-- The FixedAscii header of a digit list at width `w`: the digits, then `PAD_BYTE` to the width (R192). -/
def asciiHeader (w : Nat) (ds : List Byte) : List Byte := ds ++ List.replicate (w - ds.length) Config.padByte

/-- `HDRE` (R192 to R194). -/
def execHdre (s : State) : Result :=
  if s.fixedAscii then
    if s.hwidth < (dec s.val.toNat).length then raise .encodeRange 0 s
    else emitAll (asciiHeader s.hwidth (dec s.val.toNat)) false id s
  else emitAll (uencode Config.sizeN s.val.toNat) false id s

/-- `HDRD` (R195 to R201). -/
def execHdrd (s : State) : Result :=
  if s.fixedAscii then
    if s.inq.length < s.hwidth then raise .underrun 0 s
    else
      match asciiParse (s.inq.take s.hwidth) with
      | none => raise .badHeader s.hwidth (inDrop s.hwidth s)
      | some l =>
        if Config.platformMax ≤ l then raise .badHeader s.hwidth (inDrop s.hwidth s)
        else done false false s.hwidth (inDrop s.hwidth (s.setVal (BitVec.ofNat 64 l)))
  else decodeUnsigned (8 * Config.sizeN) (ubound Config.sizeN) .headerTooLong s

end Sys2Proof.Machine
end

