-- ==== Sys2Proof/Machine/Numerics.lean ====
section
/-! DEFINITION. The numerics record of 41_real.md R143 for `REAL_FMT` = IEEE 754 binary64, on 64-bit patterns:
exact arithmetic on natural numbers, then one rounding to nearest, ties to even. Log entries 4 and 5. -/

namespace Sys2Proof.Machine

/-! ## Layout (R144) -/

/-- The biased exponent, bits [62:52] (R144). -/
def fexpField (x : Word) : Nat := (x.extractLsb' 52 11).toNat

/-- The fraction, bits [51:0] (R144). -/
def ffracField (x : Word) : Nat := (x.extractLsb' 0 52).toNat

/-- The sign, bit 63 (R144). -/
def fneg (x : Word) : Bool := x.getLsbD 63

/-- `isfinite(x)`: bits [62:52] are not all ones (R143, R144). -/
def isfinite (x : Word) : Bool := decide (fexpField x ≠ 0x7FF)

/-- The significand of a finite `x` as an integer: the value of `x` is `± fsig x * 2^(fexp x)`. PRESUMED (IEEE 754;
log entry 4). -/
def fsig (x : Word) : Nat := if fexpField x = 0 then ffracField x else 2 ^ 52 + ffracField x

/-- The power of two of a finite `x`'s significand. PRESUMED (IEEE 754; log entry 4). -/
def fexp (x : Word) : Int := ((max 1 (fexpField x) : Nat) : Int) - 1075

/-! ## Rounding -/

/-- The two terms of `num/den * 2^(-e)`. -/
def scaledTerms (num den : Nat) (e : Int) : Nat × Nat :=
  (num * 2 ^ (-e).toNat, den * 2 ^ e.toNat)

/-- The power of two of the last place that binary64 gives the positive rational `num/den`: the one with 53
significant bits, or the smallest one, 2^(-1074). -/
def roundExp (num den : Nat) : Int :=
  let e := (Nat.log2 num : Int) - (Nat.log2 den : Int) - 52
  let q := scaledTerms num den e
  max (-1074) (if q.1 < q.2 * 2 ^ 52 then e - 1 else e)

/-- The natural number nearest to `num/den`, ties to even. -/
def roundHalfEven (num den : Nat) : Nat :=
  let q := num / den
  let r := num % den
  if den < 2 * r ∨ (2 * r = den ∧ q % 2 = 1) then q + 1 else q

/-- The pattern, without its sign, of the binary64 value nearest to the rational `num/den`, ties to even, with
overflow to infinity. -/
def roundMagnitude (num den : Nat) : Nat :=
  if num = 0 then 0
  else
    let e := roundExp num den
    let q := scaledTerms num den e
    min (0x7FF * 2 ^ 52) (roundHalfEven q.1 q.2 + (e + 1074).toNat * 2 ^ 52)

/-- The binary64 pattern nearest to `± num/den`, ties to even. -/
def roundReal (neg : Bool) (num den : Nat) : Word :=
  BitVec.ofNat 64 (roundMagnitude num den + (if neg then 2 ^ 63 else 0))

/-- The binary64 pattern nearest to `± m * 2^e`. -/
def roundScaled (neg : Bool) (m : Nat) (e : Int) : Word :=
  roundReal neg (m * 2 ^ e.toNat) (2 ^ (-e).toNat)

/-! ## The record (R143) -/

/-- The integer part of the magnitude of a finite `x`. -/
def truncMagnitude (x : Word) : Nat := fsig x <<< (fexp x).toNat >>> (-(fexp x)).toNat

/-- `ftrunc(x)`: the integral value nearest to `x` that is not larger in magnitude, with the sign of `x` (R143). -/
def ftrunc (x : Word) : Word := if 0 ≤ fexp x then x else roundReal (fneg x) (truncMagnitude x) 1

/-- `feq(x, y)`: numerical equality of finite values; the two zeros are equal (R143). -/
def feq (x y : Word) : Bool := x == y || (fsig x == 0 && fsig y == 0)

/-- `fmul(x, y)`: the product, rounded to nearest, ties to even (R143). -/
def fmul (x y : Word) : Word := roundScaled (fneg x ^^ fneg y) (fsig x * fsig y) (fexp x + fexp y)

/-- `fdiv(x, y)`: the quotient, rounded to nearest, ties to even (R143). -/
def fdiv (x y : Word) : Word :=
  roundReal (fneg x ^^ fneg y) (fsig x * 2 ^ (fexp x - fexp y).toNat) (fsig y * 2 ^ (fexp y - fexp x).toNat)

/-- `f_of_int(m)`: the integer converted to binary64, rounded to nearest, ties to even (R143). -/
def fOfInt (m : Int) : Word := roundReal (decide (m < 0)) m.natAbs 1

/-- `int_of_f(y)`: the integer equal to an integral finite `y` (R143). -/
def intOfF (y : Word) : Int := if fneg y then -(truncMagnitude y : Int) else (truncMagnitude y : Int)

/-- `pow10(a)`: the binary64 value nearest to 10^a, ties to even (R143). -/
def pow10 (a : Nat) : Word := roundReal false (10 ^ a) 1

/-- `10.0` (R144). -/
def fTen : Word := 0x4024000000000000

/-- `1.0` (R144). -/
def fOne : Word := 0x3FF0000000000000

/-! ## The two procedures written over the record (R145, R162) -/

/-- The integer truncation test of the search: `feq(ftrunc(y), y)` (R145). -/
def isIntegral (y : Word) : Bool := feq (ftrunc y) y

/-- `search(x, P)` (R145), entered with `P` multiplications still allowed, `k` made and the product `y`: multiply by
ten, rounding each product, until the product is integral or none is allowed; the final `k` and `y`. -/
def search : Nat → Nat → Word → Nat × Word
  | 0, k, y => (k, y)
  | p + 1, k, y => if isIntegral y then (k, y) else search p (k + 1) (fmul y fTen)

/-- The search's bound for "P is none" (R145, R151): more multiplications than any finite value needs, which is at
most 339 (R151). Log entry 6. -/
def unboundedSearch : Nat := 400

/-- The search limit of an optional precision (R145, R151). -/
def searchLimit (p : Option Nat) : Nat := p.getD unboundedSearch

/-- `mult` for an exponent magnitude below 9: 1.0 multiplied by 10.0 `a` times (R162). -/
def tenTimes : Nat → Word
  | 0 => fOne
  | a + 1 => fmul (tenTimes a) fTen

/-- The power-of-ten multiplier of `d2r` (R162). -/
def multiplier (a : Nat) : Word := if a < 9 then tenTimes a else pow10 a

/-- `d2r(m, e)`: the pair as a real (R162). -/
def d2r (m e : Int) : Word :=
  if e = 0 then fOfInt m
  else if 0 < e then fmul (fOfInt m) (multiplier e.natAbs)
  else fdiv (fOfInt m) (multiplier e.natAbs)

end Sys2Proof.Machine
end

