-- ==== Sys2Proof/Machine/RealCodec.lean ====
section
/-! DEFINITION. The decimal real commands `ENCR`, `ENCR.U`, `DECR`, `ENCD`, `DECD` (41_real.md). -/

namespace Sys2Proof.Machine

/-- `encode_real` (R150, R151) with a search limit of at most `limit` multiplications: `[FF]` and `NF` for a
non-finite value; else search, truncate, `RealRange` when the integer leaves the 64-bit signed range (R149), then the
canonical pair. `RealRange` is tested before `ExpRange`, and `OutFull` last (60_exceptions.md R273). -/
def encodeReal (limit : Nat) (s : State) : Result :=
  if isfinite s.rval then
    let found := search limit 0 s.rval
    let m0 := intOfF (ftrunc found.2)
    if outsideSigned Config.mantW m0 then raise .realRange 0 s
    else emitPair m0 (-(found.1 : Int)) s
  else emitAll [nonFiniteByte] true id s

/-- `ENCR P=<p>` (R150). -/
def execEncr (p : Nat) (s : State) : Result := encodeReal (searchLimit (some p)) s

/-- `ENCR.U` (R151). -/
def execEncrU (s : State) : Result := encodeReal (searchLimit none) s

/-- `DECR` (R165). -/
def execDecr (s : State) : Result :=
  match parseReal s.inq with
  | .underrun => raise .underrun 0 s
  | .malformed => raise .malformedVarint 11 (inDrop 11 s)
  | .nonFinite => done true false 1 (inDrop 1 (s.setRval Config.nanPattern))
  | .zeroShort e => done false false 1 (inDrop 1 (setPair 0 e (s.setRval 0)))
  | .pair m e c o => done false o c (inDrop c (setPair m e (s.setRval (d2r m e))))

/-- `ENCD` (R152, R153): the pair `s64(MANT)`, `s8(EXPO)`; the exponent check is made on the canonical exponent. -/
def execEncd (s : State) : Result := emitPair s.mant.toInt s.expo.toInt s

/-- `DECD` (R164): `RVAL` is not touched. -/
def execDecd (s : State) : Result :=
  match parseReal s.inq with
  | .underrun => raise .underrun 0 s
  | .malformed => raise .malformedVarint 11 (inDrop 11 s)
  | .nonFinite => done true false 1 (inDrop 1 s)
  | .zeroShort e => done false false 1 (inDrop 1 (setPair 0 e s))
  | .pair m e c o => done false o c (inDrop c (setPair m e s))

end Sys2Proof.Machine
end

