-- ==== Sys2Proof/Machine/System.lean ====
section
/-! DEFINITION. Reset: the one system command `SRST` (42_frame_header.md R205, R208) and the state both resets leave. -/

namespace Sys2Proof.Machine

/-- The block put into its reset state (10_state.md R39); the agents outside the block are not part of it. -/
def resetBlock (s : State) : State := State.reset.setEnv s.env

/-- `SRST` (R205): the block's whole state becomes the reset state; always `OK` with `CNT = 0`, which is what
`STATUS = 0` says. -/
def execSrst (s : State) : Result := .next (resetBlock s)

end Sys2Proof.Machine
end

