-- ==== Sys2Proof/Machine/Varint.lean ====
section
/-! DEFINITION. The stop-bit integer commands `ENCU`, `DECU`, `ENCS`, `DECS` (40_varint.md). -/

namespace Sys2Proof.Machine

/-- `ENCU.W<w>` (R105 to R107): `EncodeRange` when `u64(VAL) ≥ 2^W`, else the unsigned encoding, all or nothing. -/
def execEncu (w : Width) (s : State) : Result :=
  if outsideUnsigned (widthBits w) s.val.toNat then raise .encodeRange 0 s
  else emitAll (uencode (widthBytes w) s.val.toNat) false id s

/-- `DECU.W<w>` (R108 to R110). -/
def execDecu (w : Width) (s : State) : Result :=
  decodeUnsigned (widthBits w) (ubound (widthBytes w)) .malformedVarint s

/-- `ENCS.W<w>` (R111 to R116): `EncodeRange` when `s64(VAL)` is outside the W-bit signed range, else the signed
encoding, all or nothing. -/
def execEncs (w : Width) (s : State) : Result :=
  if outsideSigned (widthBits w) s.val.toInt then raise .encodeRange 0 s
  else emitAll (sencode (widthBytes w) s.val.toInt) false id s

/-- `DECS.W<w>` (R117 to R119). -/
def execDecs (w : Width) (s : State) : Result :=
  decodeSigned (widthBits w) (sbound (widthBytes w)) s

end Sys2Proof.Machine
end

