-- ==== Sys2Proof/Machine/Dispatch.lean ====
section
/-! DEFINITION. The dispatch: one arm per command, one meaning per arm. -/

namespace Sys2Proof.Machine

def exec (i : Instr) (s : State) : Host.Outcome State Fault Refusal :=
  match i with
  | .encu w => Sys2Proof.Machine.execEncu w s
  | .decu w => Sys2Proof.Machine.execDecu w s
  | .encs w => Sys2Proof.Machine.execEncs w s
  | .decs w => Sys2Proof.Machine.execDecs w s
  | .encr p => Sys2Proof.Machine.execEncr p s
  | .encrU => Sys2Proof.Machine.execEncrU s
  | .decr => Sys2Proof.Machine.execDecr s
  | .encd => Sys2Proof.Machine.execEncd s
  | .decd => Sys2Proof.Machine.execDecd s
  | .hdre => Sys2Proof.Machine.execHdre s
  | .hdrd => Sys2Proof.Machine.execHdrd s
  | .srst => Sys2Proof.Machine.execSrst s

end Sys2Proof.Machine
end

