-- ==== Sys2Proof/Machine/HostPort.lean ====
section
/-! DEFINITION. The register interface (10_state.md R22 to R35; 20_memory.md R60) and issuing a command by a write
to `CMD` (R29). -/

namespace Sys2Proof.Machine

/-- The register an index names (R35). -/
def regOf (i : RegIdx) : Reg :=
  match i.toNat with
  | 0 => .cmd
  | 1 => .status
  | 2 => .sticky
  | 3 => .cfg
  | 4 => .val
  | 5 => .rval
  | 6 => .mant
  | 7 => .expo
  | 8 => .ilvl
  | 9 => .olvl
  | _ => .reserved

/-- The index of a named register (R35); the reserved indices are 10 to 15 (R34) and 10 stands for them. -/
def idxOf : Reg → RegIdx
  | .cmd => 0
  | .status => 1
  | .sticky => 2
  | .cfg => 3
  | .val => 4
  | .rval => 5
  | .mant => 6
  | .expo => 7
  | .ilvl => 8
  | .olvl => 9
  | .reserved => 10

/-- A host read (R60): idempotent and free of side effects. `CMD` and the reserved indices read 0 (R29, R34), `EXPO`
reads sign extended (R25), the other narrow registers zero extended, `ILVL` and `OLVL` read the queues' lengths (R33;
a length that 64 bits do not hold reads modulo 2^64, log entry 8). -/
def hostRead (i : RegIdx) (s : State) : Word :=
  match regOf i with
  | .cmd => 0
  | .status => s.status
  | .sticky => s.sticky
  | .cfg => s.cfg.zeroExtend 64
  | .val => s.val
  | .rval => s.rval
  | .mant => s.mant
  | .expo => s.expo.signExtend 64
  | .ilvl => BitVec.ofNat 64 s.inq.length
  | .olvl => BitVec.ofNat 64 s.outq.length
  | .reserved => 0

/-- Issue a command word (R29, R20): the command it decodes to executes in one atomic step; a word that decodes to
none ends `IllegalCmd` and changes nothing but `STATUS` and `STICKY` (30_encoding.md R75; 60_exceptions.md R270). -/
def issue (c : CmdWord) (s : State) : Result :=
  match decode c with
  | .ok i => exec i s
  | .error .illegal => raise .illegalCmd 0 s

/-- A host write of `d` (R60). `CMD` takes bits [15:0] and executes (R29); `STICKY` is write one to clear (R31); `CFG`
stores bits [5:0] (R32) and `EXPO` bits [7:0] (R25); `STATUS`, `ILVL`, `OLVL` and the reserved indices ignore the
write (R30, R33, R34). -/
def hostWrite (i : RegIdx) (d : Word) (s : State) : Result :=
  match regOf i with
  | .cmd => issue (d.extractLsb' 0 16) s
  | .status => .next s
  | .sticky => .next (s.setSticky (s.sticky &&& ~~~d))
  | .cfg => .next (s.setCfg (d.extractLsb' 0 6))
  | .val => .next (s.setVal d)
  | .rval => .next (s.setRval d)
  | .mant => .next (s.setMant d)
  | .expo => .next (s.setExpo (d.extractLsb' 0 8))
  | .ilvl => .next s
  | .olvl => .next s
  | .reserved => .next s

end Sys2Proof.Machine
end

