-- ==== Sys2Proof/Machine/Turn.lean ====
section
/-! DEFINITION. The atomic actions on the block and their order: pushes, pops, host accesses and reset, one per
turn (20_memory.md R53, R54, R62, R63; 70_reset_and_hazards.md R290). Log entries 1, 2, 14 and 15. -/

namespace Sys2Proof.Machine

/-! ## Stream transfers -/

/-- `push(b)` (R53): enabled exactly when `|IN| < IN_CAP`; `IN <- IN ++ [b]` and nothing else changes. -/
def push (b : Byte) (s : State) : Option State :=
  if s.inq.length < Config.inCap then some (s.setInq (s.inq ++ [b])) else none

/-- `pop()` (R54): enabled exactly when `|OUT| > 0`; the head of `OUT`, and `OUT <- drop(1, OUT)`. -/
def pop (s : State) : Option (Byte × State) :=
  match s.outq with
  | [] => none
  | b :: rest => some (b, s.setOutq rest)

/-- `push` of each byte of a list in order (R62), while all are enabled. -/
def pushAll : List Byte → State → Option State
  | [], s => some s
  | b :: bs, s => (push b s).bind (pushAll bs)

/-- `n` pops: the bytes in the order popped (R62), while all are enabled. -/
def popN : Nat → State → Option (List Byte × State)
  | 0, s => some ([], s)
  | n + 1, s => (pop s).bind fun r => (popN n r.2).map fun q => (r.1 :: q.1, q.2)

/-! ## Turns -/

/-- The host's turn: its next register access. What a read returns goes to `env.seen`. A host with no access left has
no step. -/
def hostTurn (s : State) : Result :=
  match s.env.host with
  | [] => .next s
  | .read i :: rest => .next (s.setEnv { s.env with host := rest, seen := s.env.seen ++ [hostRead i s] })
  | .write i d :: rest => hostWrite i d (s.setEnv { s.env with host := rest })

/-- The source's turn: it pushes its next byte when `IN` has room; otherwise it is held and keeps the byte (R53). -/
def sourceTurn (s : State) : Result :=
  match s.env.source with
  | [] => .next s
  | b :: rest =>
    match push b s with
    | some t => .next (t.setEnv { t.env with source := rest })
    | none => .next s

/-- The sink's turn: it pops a byte when `OUT` holds one, into `env.sunk`; otherwise it has no step (R54). -/
def sinkTurn (s : State) : Result :=
  match pop s with
  | some (b, t) => .next (t.setEnv { t.env with sunk := t.env.sunk ++ [b] })
  | none => .next s

/-- One atomic action of one agent (R20, R62; R290). -/
def agentTurn (a : Agent) (s : State) : Result :=
  match a with
  | .host => hostTurn s
  | .source => sourceTurn s
  | .sink => sinkTurn s
  | .reset => .next (resetBlock s)

/-- The next action of the total order (R62), taken out of the order before it acts. With none scheduled the block
waits (R290). -/
def nextAction (s : State) : Result :=
  match s.env.turns with
  | [] => .next s
  | a :: rest => agentTurn a (s.setEnv { s.env with turns := rest })

/-- `s` with the host about to write `d` at index `i`, as the very next action. -/
def scheduleWrite (i : RegIdx) (d : Word) (s : State) : State :=
  s.setEnv { s.env with turns := .host :: s.env.turns, host := .write i d :: s.env.host }

end Sys2Proof.Machine
end

