-- ==== Sys2Proof/Machine/Step.lean ====
section
/-! DEFINITION. One step of the machine, and where a command word is placed for the next step. -/

namespace Sys2Proof.Machine

/-- One step: the next atomic action of the total order (20_memory.md R62; 10_state.md R20). -/
def step (s : State) : Host.Outcome State Fault Refusal := nextAction s

/-- `s` with the host's very next action a write of the instruction's word to `CMD` (10_state.md R27, R29: there is no
fetch; the command a write to `CMD` executes is the data of that write, 20_memory.md R67). Log entry 2. -/
def State.withFetchWord (s : State) (nbits w : Nat) : State :=
  scheduleWrite (idxOf .cmd) (BitVec.ofNat 64 (w % 2 ^ nbits)) s

end Sys2Proof.Machine
end

