-- ==== Sys2Proof/Machine/Assembler.lean ====
section
/-! DEFINITION. The assembler text, the host directives and the pseudo-instructions (30_encoding.md R78 to R80): a
program is a list of directives, loaded into the outside agents' data. -/

namespace Sys2Proof.Machine

/-- The assembler suffix of a width (R72). -/
def widthSuffix : Width → String
  | .w8 => ".W8"
  | .w16 => ".W16"
  | .w32 => ".W32"
  | .w64 => ".W64"

/-- The assembler line of a command (R78). -/
def asmText : Instr → String
  | .encu w => "ENCU" ++ widthSuffix w
  | .decu w => "DECU" ++ widthSuffix w
  | .encs w => "ENCS" ++ widthSuffix w
  | .decs w => "DECS" ++ widthSuffix w
  | .encr p => "ENCR P=" ++ toString p
  | .encrU => "ENCR.U"
  | .decr => "DECR"
  | .encd => "ENCD"
  | .decd => "DECD"
  | .hdre => "HDRE"
  | .hdrd => "HDRD"
  | .srst => "SRST"

/-- A line of a program: a command, or a host directive (R79). -/
inductive Directive where
  /-- A command line. -/
  | cmd (i : Instr)
  /-- `WR <reg>, <value>`. -/
  | wr (r : Reg) (v : Word)
  /-- `RD <reg>`. -/
  | rd (r : Reg)
  /-- `PUSH <b0> <b1> ...`. -/
  | push (bs : List Byte)
  /-- `POP <n>`. -/
  | pop (n : Nat)
deriving DecidableEq, Repr

/-- The agents whose actions a line stands for, in order (R79). -/
def lineTurns : Directive → List Agent
  | .cmd _ => [.host]
  | .wr _ _ => [.host]
  | .rd _ => [.host]
  | .push bs => bs.map fun _ => .source
  | .pop n => List.replicate n .sink

/-- The host's accesses of a line; a command line `X` is the same as `WR CMD, <word of X>` (R78, R79). -/
def lineAccesses : Directive → List HostAccess
  | .cmd i => [.write (idxOf .cmd) ((encode i).zeroExtend 64)]
  | .wr r v => [.write (idxOf r) v]
  | .rd r => [.read (idxOf r)]
  | .push _ => []
  | .pop _ => []

/-- The bytes a line gives the source. -/
def lineBytes : Directive → List Byte
  | .cmd _ => []
  | .wr _ _ => []
  | .rd _ => []
  | .push bs => bs
  | .pop _ => []

/-- `s` with a program scheduled after what is scheduled already. -/
def loadProgram (p : List Directive) (s : State) : State :=
  s.setEnv { s.env with
    turns := s.env.turns ++ p.flatMap lineTurns
    host := s.env.host ++ p.flatMap lineAccesses
    source := s.env.source ++ p.flatMap lineBytes }

/-- `SETMODE.C` (R80). -/
def setModeC : List Directive := [.wr .cfg 0x12]

/-- `SETMODE.A <w>`, for a width 1 to 32 (R80). -/
def setModeA (w : Nat) : List Directive := [.wr .cfg (BitVec.ofNat 64 (1 + 2 * (w - 1)))]

/-- `CLRERR` (R80). -/
def clrErr : List Directive := [.wr .sticky 0x3CE]

/-- `LEN <n>` (R80). -/
def lenHeader (n : Nat) : List Directive := [.wr .val (BitVec.ofNat 64 n), .cmd .hdre]

end Sys2Proof.Machine
end

