-- ==== Sys2Proof/Machine/Framing.lean ====
section
/-! DEFINITION. The host's framing procedures over the block's own actions: the transport's interface, write
progress, `WRITE_MSG` and `READ_MSG` (43_host_framing.md R220 to R237). They are the contract of the software around
the block (00_scope.md R5): no command depends on them. Log entries 11, 12, 13 and 17. -/

namespace Sys2Proof.Machine

/-! ## The transport (R220, R221) -/

/-- What one `send` or `receive` answers (R220). -/
inductive IoAnswer where
  /-- So many bytes moved. -/
  | moved (n : Nat)
  /-- `WouldBlock`: no progress now, retry later. -/
  | wouldBlock
  /-- `Error`. -/
  | error
deriving DecidableEq, Repr

/-- The byte-stream collaborator as data (R220): its mode, its estimate of free send-buffer space, what its next
`send`s and `receive`s will answer, the bytes it has accepted and the bytes that have arrived. Log entry 11. -/
structure Transport where
  /-- `is_blocking()`. -/
  blocking : Bool
  /-- `free_send_buffer_estimate()`. -/
  freeEstimate : Nat
  /-- What the next calls of `send` answer. -/
  sendAnswers : List IoAnswer
  /-- What the next calls of `receive` answer. -/
  receiveAnswers : List IoAnswer
  /-- The bytes accepted for sending, oldest first. -/
  wire : List Byte
  /-- The bytes that have arrived, oldest first. -/
  arrived : List Byte
deriving DecidableEq, Repr

/-- How many bytes of a buffer of `n` a `send` or a `receive` moves, at the most. -/
def movedBytes (n : Nat) : IoAnswer → Nat
  | .moved k => min k n
  | .wouldBlock => 0
  | .error => 0

/-- The answer to the next `send` of `n` bytes; with none given, a blocking stream moves them all and a non-blocking
one has no room now (R221). -/
def nextAnswer (n : Nat) (t : Transport) : IoAnswer :=
  match t.sendAnswers with
  | a :: _ => a
  | [] => if t.blocking then .moved n else .wouldBlock

/-- `send(buf, len)` (R220). -/
def send (buf : List Byte) (t : Transport) : IoAnswer × Transport :=
  let a := nextAnswer buf.length t
  (a, { t with sendAnswers := t.sendAnswers.tail, wire := t.wire ++ buf.take (movedBytes buf.length a) })

/-- The send of a Compact header: taken as sent in full, "blocking semantics assumed reliable for header bytes"
(R225, R226). -/
def sendReliable (buf : List Byte) (t : Transport) : Transport := { t with wire := t.wire ++ buf }

/-- What one `receive` gives (R220): the bytes it moved, whose number is its count, or one of the two signals. -/
inductive Received where
  | moved (bs : List Byte)
  | wouldBlock
  | error
deriving DecidableEq, Repr

/-- The answer to the next `receive` of `n` bytes. DESIGN CHOICE (log entry 11): with none given, `arrived` is all that
will ever come, so a blocking call does not wait but moves what there is, and a non-blocking one moves all `n` bytes or
answers `WouldBlock`. -/
def nextReceiveAnswer (n : Nat) (t : Transport) : IoAnswer :=
  match t.receiveAnswers with
  | a :: _ => a
  | [] => if t.blocking ∨ n ≤ t.arrived.length then .moved n else .wouldBlock

/-- `receive(buf, n)` (R220): the bytes it moves are gone from `arrived`, also when they are fewer than `n`. -/
def receive (n : Nat) (t : Transport) : Received × Transport :=
  let a := nextReceiveAnswer n t
  let k := movedBytes n a
  (match a with
    | .moved _ => .moved (t.arrived.take k)
    | .wouldBlock => .wouldBlock
    | .error => .error,
   { t with receiveAnswers := t.receiveAnswers.tail, arrived := t.arrived.drop k })

/-! ## Write progress (R222 to R224) -/

/-- The write-progress record (R222). -/
structure WriteProgress where
  headerSent : Bool
  headerBytesSent : Nat
  payloadBytesSent : Nat
deriving DecidableEq, Repr

/-- "Nothing sent" (R222). -/
def nothingSent : WriteProgress := { headerSent := false, headerBytesSent := 0, payloadBytesSent := 0 }

/-- The states of ResumableWriter (R224). -/
inductive WriterState where
  | idle
  | headerPending
  | payloadPending
  | done
deriving DecidableEq, Repr

/-- The state read off the progress, for a payload of `len` bytes (R224). -/
def writerState (p : WriteProgress) (len : Nat) : WriterState :=
  if p.headerSent then (if p.payloadBytesSent < len then .payloadPending else .done)
  else if 0 < p.headerBytesSent then .headerPending
  else .idle

/-! ## Errors of the host's level (R245, R261) -/

/-- Why a framing procedure fails. -/
inductive FrameError where
  /-- The length does not fit the FixedAscii width (R226). -/
  | lengthDoesNotFit
  /-- The block's compact header bound (R236). -/
  | headerTooLong
  /-- The block's fixed header parse (R236). -/
  | badHeader
  /-- A blocking send returned fewer bytes than contracted (R228, R245). -/
  | shortWrite
  /-- A blocking receive returned fewer bytes than contracted (R237, R245). -/
  | shortRead
  /-- The transport answered `Error` (R220). -/
  | transport
  /-- The block did not give what the procedure's precondition promises (`OUT` or `IN` not empty, a queue full). The
  spec writes no branch for it: DESIGN CHOICE, log entry 17. -/
  | precondition
deriving DecidableEq, Repr

/-! ## The host's accesses, as the procedures use them -/

/-- The block after a host access; `none` when the step stops. -/
def settled : Result → Option State
  | .next s => some s
  | .fault _ => none
  | .refused _ => none

/-- `WR reg, v`. -/
def portWrite (r : Reg) (v : Word) (s : State) : Option State := settled (hostWrite (idxOf r) v s)

/-- Issue a command by writing its word to `CMD`. -/
def portCommand (i : Instr) (s : State) : Option State := portWrite .cmd ((encode i).zeroExtend 64) s

/-! ## `WRITE_MSG` (R225 to R229) -/

/-- What one attempt of the writer ends with. `pending` carries the bytes this attempt gave the transport, the
progress and the header kept for the message (R230). -/
inductive WriteOutcome where
  | finished
  | pending (written : Nat) (p : WriteProgress) (hdr : List Byte)
  | failed (e : FrameError)
deriving DecidableEq, Repr

/-- What an attempt leaves: its outcome, the block and the transport. -/
structure WriteResult where
  outcome : WriteOutcome
  block : State
  transport : Transport
deriving DecidableEq, Repr

/-- `POP STATUS.CNT` after an `HDRE` that ended `OK`: the header (R226). -/
def popHeader (s : State) : Except FrameError (List Byte) × State :=
  match popN s.cnt s with
  | some r => (.ok r.1, r.2)
  | none => (.error .precondition, s)

/-- `HDRE; POP STATUS.CNT` (R226), with the block as these leave it. R226 names the outcomes `EncodeRange` and `OK`; on
another (`OutFull`, which its precondition excludes) the attempt fails: DESIGN CHOICE, log entry 17. -/
def takeHeader (s : State) : Except FrameError (List Byte) × State :=
  match portCommand .hdre s with
  | none => (.error .precondition, s)
  | some s1 =>
    if s1.codeField = codeNumber .encodeRange then (.error .lengthDoesNotFit, s1)
    else if s1.codeField = codeNumber .ok then popHeader s1
    else (.error .precondition, s1)

/-- `WR VAL, L; HDRE; POP STATUS.CNT` (R226): the header, and the block as these accesses leave it, also when they
give no header. -/
def buildHeader (len : Nat) (s : State) : Except FrameError (List Byte) × State :=
  match portWrite .val (BitVec.ofNat 64 len) s with
  | none => (.error .precondition, s)
  | some s1 => takeHeader s1

/-- The progress once the header is sent whole. R225 and R226 set `header_sent` and do not say what becomes of
`header_bytes_sent`; the model counts the whole header there: DESIGN CHOICE, log entry 12. -/
def headerDone (hdr : List Byte) : WriteProgress :=
  { headerSent := true, headerBytesSent := hdr.length, payloadBytesSent := 0 }

/-- `PayloadPending` (R228) after `before` bytes of this attempt: send the payload from `payloadBytesSent` on; a
short send is fatal on a blocking stream (`ShortWrite`), and a partial count for the caller otherwise. -/
def sendPayload (before : Nat) (p : WriteProgress) (hdr payloadBytes : List Byte) (s : State) (t : Transport) :
    WriteResult :=
  let rest := payloadBytes.drop p.payloadBytesSent
  if rest = [] then ⟨.finished, s, t⟩
  else
    let r := send rest t
    let n := movedBytes rest.length r.1
    if r.1 = .error then ⟨.failed .transport, s, r.2⟩
    else if n = rest.length then ⟨.finished, s, r.2⟩
    else if t.blocking then ⟨.failed .shortWrite, s, r.2⟩
    else ⟨.pending (before + n) { p with payloadBytesSent := p.payloadBytesSent + n } hdr, s, r.2⟩

/-- Send a FixedAscii header from byte `start` on (R226, R227); when it is all sent the payload follows, with the
progress of `headerDone` (log entry 12). -/
def sendAsciiHeader (start : Nat) (hdr payloadBytes : List Byte) (s : State) (t : Transport) : WriteResult :=
  let rest := hdr.drop start
  let r := send rest t
  let n := movedBytes rest.length r.1
  if r.1 = .error then ⟨.failed .transport, s, r.2⟩
  else if n < rest.length then
    ⟨.pending n { headerSent := false, headerBytesSent := start + n, payloadBytesSent := 0 } hdr, s, r.2⟩
  else sendPayload n (headerDone hdr) hdr payloadBytes s r.2

/-- `Idle` (R225, R226): build the header; on a non-blocking stream without room for header and payload return at
once with nothing sent; otherwise send the header, a Compact one in full. Log entry 12 for `headerDone`, log entry 17
where the block gives no header. -/
def startMessage (payloadBytes : List Byte) (s : State) (t : Transport) : WriteResult :=
  match buildHeader payloadBytes.length s with
  | (.error e, s1) => ⟨.failed e, s1, t⟩
  | (.ok hdr, s1) =>
    if !t.blocking ∧ t.freeEstimate < payloadBytes.length + hdr.length then
      ⟨.pending 0 nothingSent hdr, s1, t⟩
    else if s1.fixedAscii then sendAsciiHeader 0 hdr payloadBytes s1 t
    else
      sendPayload hdr.length (headerDone hdr) hdr payloadBytes s1 (sendReliable hdr t)

/-- One attempt of `WRITE_MSG` (R226): by the writer's state (R224), with the progress of the attempt before (`none`
to start a message) and the header kept for it (R230). -/
def writeAttempt (progress : Option WriteProgress) (hdr payloadBytes : List Byte) (s : State) (t : Transport) :
    WriteResult :=
  let p := progress.getD nothingSent
  match writerState p payloadBytes.length with
  | .idle => startMessage payloadBytes s t
  | .headerPending => sendAsciiHeader p.headerBytesSent hdr payloadBytes s t
  | .payloadPending => sendPayload 0 p hdr payloadBytes s t
  | .done => ⟨.finished, s, t⟩

/-! ## `READ_MSG` (R235 to R237) -/

/-- What reading a message ends with. The spec gives the reader no state to resume from (90_conflicts.md C10) and says
nothing of a receive in part on a non-blocking stream (91_not_in_source.md N12): `wouldBlock` and `receivedInPart` are
the model's, log entry 13. -/
inductive ReadOutcome where
  | message (payloadBytes : List Byte)
  /-- A non-blocking receive answered `WouldBlock`. -/
  | wouldBlock
  /-- A non-blocking receive moved fewer bytes than asked for: they are handed to the caller. -/
  | receivedInPart (got : List Byte)
  | failed (e : FrameError)
deriving DecidableEq, Repr

/-- What reading a message leaves: its outcome, the block and the transport. -/
structure ReadResult where
  outcome : ReadOutcome
  block : State
  transport : Transport
deriving DecidableEq, Repr

/-- One receive of exactly `n` bytes (R236, R237): the bytes, or how the reader ends without them. On a blocking stream
fewer bytes than asked for, none among them, are a `ShortRead`; `Error` ends the reader on either (R220). -/
def receiveExactly (n : Nat) (t : Transport) : Except ReadOutcome (List Byte) × Transport :=
  let r := receive n t
  (match r.1 with
    | .error => .error (.failed .transport)
    | .wouldBlock => .error (if t.blocking then .failed .shortRead else .wouldBlock)
    | .moved bs =>
      if bs.length = n then .ok bs
      else .error (if t.blocking then .failed .shortRead else .receivedInPart bs),
   r.2)

/-- The payload after `HDRD` ended `OK`: `L` from `VAL`; the empty payload when it is 0; else one receive of exactly
`L` bytes (R235, R236). -/
def receivePayload (s : State) (t : Transport) : ReadResult :=
  let len := (hostRead (idxOf .val) s).toNat
  if len = 0 then ⟨.message [], s, t⟩
  else
    match receiveExactly len t with
    | (.ok bs, t1) => ⟨.message bs, s, t1⟩
    | (.error o, t1) => ⟨o, s, t1⟩

/-- Push bytes and try `HDRD` (R236); `none` where `IN` has no room for them all, which the precondition excludes, and
then none of them is pushed (log entry 17). -/
def tryHeader (bs : List Byte) (s : State) : Option State := (pushAll bs s).bind (portCommand .hdrd)

/-- The Compact loop (R236): one byte and one `HDRD` a round, until the outcome is not `Underrun`; `rounds` bounds
it, "at most 10 rounds". -/
def readCompact : Nat → State → Transport → ReadResult
  | 0, s, t => ⟨.failed .precondition, s, t⟩
  | rounds + 1, s, t =>
    match receiveExactly 1 t with
    | (.error o, t1) => ⟨o, s, t1⟩
    | (.ok bs, t1) =>
      match tryHeader bs s with
      | none => ⟨.failed .precondition, s, t1⟩
      | some s1 =>
        if s1.codeField = codeNumber .underrun then readCompact rounds s1 t1
        else if s1.codeField = codeNumber .ok then receivePayload s1 t1
        else ⟨.failed .headerTooLong, s1, t1⟩

/-- The FixedAscii form (R236): receive exactly the width, push, `HDRD`. -/
def readAscii (s : State) (t : Transport) : ReadResult :=
  match receiveExactly s.hwidth t with
  | (.error o, t1) => ⟨o, s, t1⟩
  | (.ok bs, t1) =>
    match tryHeader bs s with
    | none => ⟨.failed .precondition, s, t1⟩
    | some s1 =>
      if s1.codeField = codeNumber .ok then receivePayload s1 t1 else ⟨.failed .badHeader, s1, t1⟩

/-- `READ_MSG` (R236), in the mode `CFG` holds. -/
def readMessage (s : State) (t : Transport) : ReadResult :=
  if s.fixedAscii then readAscii s t else readCompact (ubound Config.sizeN) s t

end Sys2Proof.Machine
end

