-- ==== Sys2Proof/Safety.lean ====
section
/-! DEFINITION. What a safe state and a safe run are, and the terms the statements use: a field, a canonical pair,
the rational value of a real pattern. -/

namespace Sys2Proof.Machine

/-- The two queues stay within their capacities (10_state.md R36, R37; 20_memory.md R53, R57). -/
def queuesFit (s : State) : Prop := s.inq.length ≤ Config.inCap ∧ s.outq.length ≤ Config.outCap

/-- What holds of the block in every state a run reaches. -/
structure StateInv (s : State) : Prop where
  /-- The unused bits of `STATUS` read 0 (R30). -/
  statusUnused : s.status &&& ~~~statusMask = 0
  /-- `CODE` is a code of R260; 10 to 15 are never written. -/
  codeLegal : s.codeField ≤ codeNumber .illegalCmd
  /-- `NF` and `OVL` are 0 on every outcome other than `OK` (R262). -/
  flagsOnlyOnOk : s.codeField ≠ codeNumber .ok → s.nf = false ∧ s.ovl = false
  /-- `CNT` is in the range 0 to 32 (R30). -/
  countBound : s.cnt ≤ 32
  /-- The unused bits of `STICKY` read 0 (R31). -/
  stickyUnused : s.sticky &&& ~~~stickyMask = 0
  /-- The queues fit (R36, R37). -/
  queues : queuesFit s

/-- A step is safe when the machine goes on. -/
def safeStep (s : State) : Prop := ∃ t, step s = .next t

/-- A stop-bit field: bit 7 is set on its last byte and on no other (40_varint.md R100). -/
def isField : List Byte → Bool
  | [] => false
  | [b] => stopBit b
  | b :: c :: rest => !stopBit b && isField (c :: rest)

/-- No byte has the stop bit. -/
def noStop (bs : List Byte) : Bool := bs.all fun b => !stopBit b

/-- A canonical mantissa: no multiple of ten unless it is 0 (41_real.md R140). -/
def canonicalMantissa (m : Int) : Prop := m = 0 ∨ m % 10 ≠ 0

/-- `(m, e)` is the canonical form of `(m0, e0)`: canonical, the same value, and a zero mantissa keeps its exponent
(41_real.md R146). It determines the pair. -/
def isCanonOf (m0 e0 m e : Int) : Prop :=
  canonicalMantissa m ∧ ∃ j : Nat, m0 = m * 10 ^ j ∧ e = e0 + j ∧ (m0 = 0 → j = 0)

/-- `x` multiplied by ten `k` times, each product rounded (R145). -/
def tenfold (k : Nat) (x : Word) : Word := (fun y => fmul y fTen)^[k] x

/-- `k` is where the search from `x` ends (R145): no earlier product is integral, and the product at `k` is, or a
given limit is reached. -/
def searchEnds (limit : Option Nat) (x : Word) (k : Nat) : Prop :=
  (∀ j < k, isIntegral (tenfold j x) = false) ∧
    match limit with
    | none => isIntegral (tenfold k x) = true
    | some p => k ≤ p ∧ (isIntegral (tenfold k x) = true ∨ k = p)

/-- A FixedAscii header of the accepted shape (42_frame_header.md R198). -/
def asciiShape (h lead digits trail : List Byte) : Prop :=
  h = lead ++ digits ++ trail ∧ digits ≠ [] ∧ (∀ b ∈ lead, b = 0x20) ∧
    (∀ b ∈ digits, 0x30 ≤ b.toNat ∧ b.toNat ≤ 0x39) ∧ (∀ b ∈ trail, b = 0x00 ∨ b = 0x20)

/-- The number a digit list spells, most significant first (R198). -/
def spelled (digits : List Byte) : Nat := Nat.ofDigits 10 ((digits.map fun b => b.toNat - 0x30).reverse)

/-- The exponent a first byte carries: its low seven bits as two's complement (R141, R161). -/
def carriedExponent (b : Byte) : Int := Int.bmod b.toNat 128

/-- The rational value of a finite binary64 pattern. -/
def realValue (x : Word) : ℚ := (if fneg x then -1 else 1) * (fsig x : ℚ) * (2 : ℚ) ^ fexp x

/-- Two states whose data registers, `CFG` and `OUT` are the same, and whose outside agents are. -/
def sameButInput (s t : State) : Prop :=
  t.val = s.val ∧ t.rval = s.rval ∧ t.mant = s.mant ∧ t.expo = s.expo ∧ t.cfg = s.cfg ∧ t.outq = s.outq ∧ t.env = s.env

/-- The bytes of `OUT` moved to `IN`, as the host does between an encode and a decode command (R120). -/
def looped (s : State) : State := (s.setInq (s.inq ++ s.outq)).setOutq []

/-- The outcomes a command can end with (60_exceptions.md R272), by header mode for `HDRE` and `HDRD`. -/
def possibleCodes (i : Instr) (ascii : Bool) : List Code :=
  match i with
  | .encu w => if w = .w64 then [.ok, .outFull] else [.ok, .outFull, .encodeRange]
  | .decu _ => [.ok, .malformedVarint, .underrun]
  | .encs w => if w = .w64 then [.ok, .outFull] else [.ok, .outFull, .encodeRange]
  | .decs _ => [.ok, .malformedVarint, .underrun]
  | .encr _ => [.ok, .outFull, .realRange]
  | .encrU => [.ok, .outFull, .realRange, .expRange]
  | .decr => [.ok, .malformedVarint, .underrun]
  | .encd => [.ok, .outFull, .expRange]
  | .decd => [.ok, .malformedVarint, .underrun]
  | .hdre => if ascii then [.ok, .outFull, .encodeRange] else [.ok, .outFull]
  | .hdrd => if ascii then [.ok, .badHeader, .underrun] else [.ok, .headerTooLong, .underrun]
  | .srst => [.ok]

/-- The command writes `VAL` (10_state.md R22, R35), `SRST` apart. -/
def writesVal : Instr → Bool
  | .decu _ | .decs _ | .hdrd => true
  | .encu _ | .encs _ | .encr _ | .encrU | .decr | .encd | .decd | .hdre | .srst => false

/-- The command writes `RVAL` (R23, R35), `SRST` apart. -/
def writesRval : Instr → Bool
  | .decr => true
  | .encu _ | .decu _ | .encs _ | .decs _ | .encr _ | .encrU | .encd | .decd | .hdre | .hdrd | .srst => false

/-- The command writes `MANT` and `EXPO` (R24, R25, R35), `SRST` apart. -/
def writesPair : Instr → Bool
  | .encr _ | .encrU | .encd | .decr | .decd => true
  | .encu _ | .decu _ | .encs _ | .decs _ | .hdre | .hdrd | .srst => false

/-- A decode command: the ones that take bytes from `IN` (R36, R58). -/
def isDecoder : Instr → Bool
  | .decu _ | .decs _ | .decr | .decd | .hdrd => true
  | .encu _ | .encs _ | .encr _ | .encrU | .encd | .hdre | .srst => false

/-- An encode command: the ones that append to `OUT` (R37, R57). -/
def isEncoder : Instr → Bool
  | .encu _ | .encs _ | .encr _ | .encrU | .encd | .hdre => true
  | .decu _ | .decs _ | .decr | .decd | .hdrd | .srst => false

end Sys2Proof.Machine
end

