-- ==== Sys2Proof/Certificates/Slice0/Obligations.lean ====
section
/-! DEFINITION. The statements for the provers. Each docstring names the rule of spec/ it formalises. -/

open Sys2Proof Sys2Proof.Machine

/-! ## Reset and the register interface -/

/-- 10_state.md R39: what the reset event and the reset state leave. That the outside agents are kept is the model's
choice (log entry 15). -/
def Obligations.ResetLeavesListedValues : Prop :=
  ∀ s : State, ∃ t, agentTurn .reset s = .next t ∧ t.env = s.env ∧
    ∀ r, (r = t ∨ r = State.reset) →
      r.val = 0 ∧ r.rval = 0 ∧ r.mant = 0 ∧ r.expo = 0 ∧ r.cfg = 0x12 ∧ r.fixedAscii = false ∧ r.hwidth = 10 ∧
        r.status = 0 ∧ r.codeField = codeNumber .ok ∧ r.nf = false ∧ r.ovl = false ∧ r.cnt = 0 ∧ r.sticky = 0 ∧
        r.inq = [] ∧ r.outq = []

/-- 42_frame_header.md R205: the block after `SRST` is as after reset. That the outside agents are kept is the model's
choice (log entry 15). -/
def Obligations.SrstLeavesResetState : Prop :=
  ∀ s : State, exec .srst s = .next (State.reset.setEnv s.env) ∧
    ∀ t, exec .srst s = .next t →
      t.val = 0 ∧ t.rval = 0 ∧ t.mant = 0 ∧ t.expo = 0 ∧ t.cfg = 0x12 ∧ t.sticky = 0 ∧ t.inq = [] ∧ t.outq = [] ∧
        t.status = 0 ∧ agentTurn .reset s = .next t

/-- 10_state.md R30: the fields read back from the written `STATUS`, and its unused bits are 0. -/
def Obligations.StatusFieldsReadBack : Prop :=
  ∀ (x : Code) (nf ovl : Bool) (c : Nat) (s : State), c < 256 →
    (s.setStatus (packStatus x nf ovl c)).codeField = codeNumber x ∧
      (s.setStatus (packStatus x nf ovl c)).nf = nf ∧
      (s.setStatus (packStatus x nf ovl c)).ovl = ovl ∧
      (s.setStatus (packStatus x nf ovl c)).cnt = c ∧
      packStatus x nf ovl c &&& ~~~(0xFF3F : Word) = 0

/-- 10_state.md R29 to R35: what a host read of each index returns. -/
def Obligations.HostReadsEachRegister : Prop :=
  ∀ s : State,
    hostRead 0 s = 0 ∧ hostRead 1 s = s.status ∧ hostRead 2 s = s.sticky ∧
      (hostRead 3 s).toNat = s.cfg.toNat ∧ hostRead 4 s = s.val ∧ hostRead 5 s = s.rval ∧ hostRead 6 s = s.mant ∧
      (hostRead 7 s).toInt = s.expo.toInt ∧
      (s.inq.length < 2 ^ 64 → (hostRead 8 s).toNat = s.inq.length) ∧
      (s.outq.length < 2 ^ 64 → (hostRead 9 s).toNat = s.outq.length)

/-- 10_state.md R22 to R25, R30 to R33: what a host write of each index other than `CMD`, `STICKY` and
the reserved ones does, with its frame, and the two fields a write of `CFG` sets. -/
def Obligations.HostWritesEachRegister : Prop :=
  ∀ (s : State) (d : Word),
    hostWrite 1 d s = .next s ∧
      hostWrite 4 d s = .next { s with val := d } ∧
      hostWrite 5 d s = .next { s with rval := d } ∧
      hostWrite 6 d s = .next { s with mant := d } ∧
      (∃ t, hostWrite 7 d s = .next { s with expo := t } ∧ t.toNat = d.toNat % 2 ^ 8) ∧
      (∃ t, hostWrite 3 d s = .next { s with cfg := t } ∧ t.toNat = d.toNat % 2 ^ 6 ∧
        (State.fixedAscii { s with cfg := t } = true ↔ d.toNat % 2 = 1) ∧
        State.hwidth { s with cfg := t } = d.toNat / 2 % 32 + 1) ∧
      hostWrite 8 d s = .next s ∧ hostWrite 9 d s = .next s

/-- 10_state.md R31: `STICKY` is write one to clear. -/
def Obligations.StickyWriteOneClears : Prop :=
  ∀ (s : State) (d : Word), ∃ v, hostWrite 2 d s = .next { s with sticky := v } ∧
    ∀ b, b < 64 → v.getLsbD b = (s.sticky.getLsbD b && !d.getLsbD b)

/-- 10_state.md R34. -/
def Obligations.ReservedIndicesDoNothing : Prop :=
  ∀ (i : RegIdx) (d : Word) (s : State), 10 ≤ i.toNat → hostRead i s = 0 ∧ hostWrite i d s = .next s

/-! ## Streams and the order of actions -/

/-- 20_memory.md R53, with what the source's turn does: a held source keeps its byte. That the source is a turn over
`env.source`, and that a held source passes its turn, are the model's choice (log entry 1). -/
def Obligations.PushOnlyWhenInHasRoom : Prop :=
  ∀ (b : Byte) (s : State),
    (s.inq.length < Config.inCap → push b s = some { s with inq := s.inq ++ [b] }) ∧
      (Config.inCap ≤ s.inq.length → push b s = none ∧ (∀ r, s.env.source = b :: r → sourceTurn s = .next s)) ∧
      (∀ r, s.inq.length < Config.inCap → s.env.source = b :: r →
        sourceTurn s = .next { s with inq := s.inq ++ [b], env := { s.env with source := r } })

/-- 20_memory.md R54, with what the sink's turn does. That an empty sink passes its turn (log entry 1) and that the
popped byte is kept in `env.sunk` (log entry 14) are the model's choice. -/
def Obligations.PopOnlyWhenOutHoldsBytes : Prop :=
  ∀ s : State,
    (∀ b r, s.outq = b :: r → pop s = some (b, { s with outq := r }) ∧
      sinkTurn s = .next { s with outq := r, env := { s.env with sunk := s.env.sunk ++ [b] } }) ∧
      (s.outq = [] → pop s = none ∧ sinkTurn s = .next s)

/-- 20_memory.md R62: pushes are seen in the order made, pops return bytes in the order appended. -/
def Obligations.StreamsKeepOrder : Prop :=
  ∀ (bs : List Byte) (n : Nat) (s : State),
    (s.inq.length + bs.length ≤ Config.inCap → pushAll bs s = some { s with inq := s.inq ++ bs }) ∧
      (Config.inCap < s.inq.length + bs.length → bs ≠ [] → pushAll bs s = none) ∧
      (n ≤ s.outq.length → popN n s = some (s.outq.take n, { s with outq := s.outq.drop n })) ∧
      (s.outq.length < n → popN n s = none)

/-- 10_state.md R20, R29; 30_encoding.md R76: when the host's turn is a write to `CMD` of a word that decodes to `i`,
the step is `exec i` on the state with that turn taken out of the order; and a placed command word is the next to run. -/
def Obligations.StepRunsTheWrittenCommand : Prop :=
  (∀ (s : State) (d : Word) (i : Instr) (ts : List Agent) (hs : List HostAccess),
    s.env.turns = .host :: ts → s.env.host = .write 0 d :: hs → decode (d.extractLsb' 0 16) = .ok i →
      step s = exec i (s.setEnv { s.env with turns := ts, host := hs })) ∧
    ∀ (s : State) (i : Instr), i.wf = true → step (s.withFetchWord 16 (encode i).toNat) = exec i s

/-- 20_memory.md R60, R62; 70_reset_and_hazards.md R290: the steps that are not a write to `CMD`. A host read changes
no block state. The model's choice are: waiting with nothing scheduled and passing a turn that has no step (log entries
1 and 2), keeping what a read returned in `env.seen` and what a pop returned in `env.sunk` (log entry 14), and that a
reset leaves the outside agents as they are (log entry 15). -/
def Obligations.StepTakesTheOtherTurns : Prop :=
  ∀ (s : State) (rest : List Agent),
    (s.env.turns = [] → step s = .next s) ∧
    (s.env.turns = .host :: rest →
      (s.env.host = [] → step s = .next { s with env := { s.env with turns := rest } }) ∧
      (∀ i hs, s.env.host = .read i :: hs →
        step s = .next { s with
          env := { s.env with turns := rest, host := hs, seen := s.env.seen ++ [hostRead i s] } }) ∧
      (∀ i d hs, s.env.host = .write i d :: hs →
        step s = hostWrite i d { s with env := { s.env with turns := rest, host := hs } })) ∧
    (s.env.turns = .source :: rest → step s = sourceTurn { s with env := { s.env with turns := rest } }) ∧
    (s.env.turns = .sink :: rest → step s = sinkTurn { s with env := { s.env with turns := rest } }) ∧
    (s.env.turns = .reset :: rest →
      step s = .next { State.reset with env := { s.env with turns := rest } })

/-! ## Encoding -/

/-- 30_encoding.md R70 to R76: the decoder and the encoder agree both ways, on every command word. -/
def Obligations.DecodeIsTheInverseOfEncode : Prop :=
  ∀ (c : CmdWord) (i : Instr), decode c = .ok i ↔ (i.wf = true ∧ encode i = c)

/-- 30_encoding.md R74: the legal command words are exactly the listed ones, and no word matches two rows. -/
def Obligations.LegalWordsAreListedAndUnambiguous : Prop :=
  ∀ c : CmdWord, ((∃ i, decode c = .ok i) ↔
    c ∈ ([0x0001, 0x0011, 0x0021, 0x0031, 0x0002, 0x0012, 0x0022, 0x0032, 0x0003, 0x0013, 0x0023, 0x0033,
        0x0004, 0x0014, 0x0024, 0x0034, 0x1005, 0x0006, 0x0007, 0x0008, 0x0009, 0x000A, 0x000F] : List CmdWord) ∨
      ∃ p : Nat, p ≤ 63 ∧ c.toNat = 0x0005 + 0x40 * p) ∧
    (rows.filter (rowHits c)).length ≤ 1

/-- 30_encoding.md R74, R75; 95_test_vectors.md section 7: sample words, one per family, and some illegal ones. -/
def Obligations.SampleWordsDecode : Prop :=
  decode 0x0031 = .ok (.encu .w64) ∧ decode 0x0024 = .ok (.decs .w32) ∧ decode 0x0245 = .ok (.encr 9) ∧
    decode 0x1005 = .ok .encrU ∧ decode 0x0007 = .ok .encd ∧ decode 0x000A = .ok .hdrd ∧ decode 0x000F = .ok .srst ∧
    decode 0x0000 = .error .illegal ∧ decode 0x0041 = .error .illegal ∧ decode 0x1045 = .error .illegal ∧
    decode 0x2001 = .error .illegal

/-- 60_exceptions.md R270: an illegal word changes only `STATUS` and `STICKY`, and the next legal command executes. -/
def Obligations.IllegalWordChangesOnlyStatusAndSticky : Prop :=
  ∀ (d : Word) (s : State), decode (d.extractLsb' 0 16) = .error .illegal →
    ∃ t, hostWrite 0 d s = .next t ∧
      t = { s with status := t.status, sticky := s.sticky ||| 0x200 } ∧
      t.codeField = 9 ∧ t.nf = false ∧ t.ovl = false ∧ t.cnt = 0 ∧ t.status &&& ~~~(0xFF3F : Word) = 0 ∧
      ∀ (d' : Word) (i : Instr), decode (d'.extractLsb' 0 16) = .ok i → hostWrite 0 d' t = exec i t

/-! ## Stop-bit integers -/

/-- 40_varint.md R103: the four facts about the bounds. -/
def Obligations.BoundsAgreeAtTheFourWidths : Prop :=
  (∀ n, ubound n = (8 * n + 6) / 7) ∧
    (∀ n, ¬ 7 ∣ n → sbound n = ubound n) ∧ (∀ n, 7 ∣ n → sbound n = ubound n + 1) ∧
    (ubound 1 = 2 ∧ ubound 2 = 3 ∧ ubound 4 = 5 ∧ ubound 8 = 10) ∧
    (sbound 1 = 2 ∧ sbound 2 = 3 ∧ sbound 4 = 5 ∧ sbound 8 = 10) ∧
    (∀ w, 7 * sbound (widthBytes w) - widthBits w = 7 - widthBits w % 7) ∧
    7 - widthBits .w8 % 7 = 6 ∧ 7 - widthBits .w16 % 7 = 5 ∧ 7 - widthBits .w32 % 7 = 3 ∧ 7 - widthBits .w64 % 7 = 6

/-- 40_varint.md R105 to R107 (`ENCU`): the next state, whole, in each of its three cases. -/
def Obligations.EncuResult : Prop :=
  ∀ (w : Width) (s : State),
    (s.val.toNat < 2 ^ widthBits w → (uencode (widthBytes w) s.val.toNat).length ≤ outRoom s →
      exec (.encu w) s = .next { s with
        outq := s.outq ++ uencode (widthBytes w) s.val.toNat
        status := packStatus .ok false false (uencode (widthBytes w) s.val.toNat).length }) ∧
    (2 ^ widthBits w ≤ s.val.toNat →
      exec (.encu w) s = .next { s with
        status := packStatus .encodeRange false false 0, sticky := s.sticky ||| 0x40 }) ∧
    (s.val.toNat < 2 ^ widthBits w → outRoom s < (uencode (widthBytes w) s.val.toNat).length →
      exec (.encu w) s = .next { s with status := packStatus .outFull false false 0 })

/-- 40_varint.md R106, R107, R122: the bytes `ENCU` emits for a value of the width: a field that holds exactly the
value, within the bound, and no field that holds it is shorter. -/
def Obligations.UnsignedBytesAreTheShortestField : Prop :=
  ∀ (w : Width) (v : Nat), v < 2 ^ widthBits w →
    isField (uencode (widthBytes w) v) = true ∧ fieldNat (uencode (widthBytes w) v) = v ∧
      (uencode (widthBytes w) v).length ≤ ubound (widthBytes w) ∧
      ∀ f, isField f = true → fieldNat f = v → (uencode (widthBytes w) v).length ≤ f.length

/-- 40_varint.md R111 to R113 (`ENCS`): the next state, whole, in each of its three cases. -/
def Obligations.EncsResult : Prop :=
  ∀ (w : Width) (s : State),
    (-2 ^ (widthBits w - 1) ≤ s.val.toInt → s.val.toInt < 2 ^ (widthBits w - 1) →
      (sencode (widthBytes w) s.val.toInt).length ≤ outRoom s →
      exec (.encs w) s = .next { s with
        outq := s.outq ++ sencode (widthBytes w) s.val.toInt
        status := packStatus .ok false false (sencode (widthBytes w) s.val.toInt).length }) ∧
    (s.val.toInt < -2 ^ (widthBits w - 1) ∨ 2 ^ (widthBits w - 1) ≤ s.val.toInt →
      exec (.encs w) s = .next { s with
        status := packStatus .encodeRange false false 0, sticky := s.sticky ||| 0x40 }) ∧
    (-2 ^ (widthBits w - 1) ≤ s.val.toInt → s.val.toInt < 2 ^ (widthBits w - 1) →
      outRoom s < (sencode (widthBytes w) s.val.toInt).length →
      exec (.encs w) s = .next { s with status := packStatus .outFull false false 0 })

/-- What `ENCS` guarantees, on the bytes it appends to `OUT` when it ends `OK` (from 40_varint.md R114; that it ends `OK`
where there is room is `EncsResult`). -/
def Obligations.SignedBytesAreTheShortestField : Prop :=
  ∀ (w : Width) (s t : State), exec (.encs w) s = .next t → t.codeField = codeNumber .ok →
    ∃ bs, t.outq = s.outq ++ bs ∧ isField bs = true ∧ fieldInt bs = s.val.toInt ∧
      (∀ f, isField f = true → fieldInt f = s.val.toInt → bs.length ≤ f.length) ∧
      ∀ s' t', exec (.encs w) s' = .next t' → t'.codeField = codeNumber .ok → s'.val = s.val →
        t'.outq = s'.outq ++ bs

/-- 40_varint.md R115: the fill mask. In a full-length signed encoding the first byte is the top group of the W-bit
pattern with the mask for a negative value, and the other bytes are groups of the pattern. -/
def Obligations.FillMaskGivesTheFirstByte : Prop :=
  (∀ (w : Width) (v : Int), -2 ^ (widthBits w - 1) ≤ v → v < 2 ^ (widthBits w - 1) →
    slen v = sbound (widthBytes w) →
    ∃ x mask p : Nat, x = 7 - widthBits w % 7 ∧ mask = (2 ^ x - 1) * 2 ^ (7 - x) ∧
      (p : Int) = v % 2 ^ widthBits w ∧
      sencode (widthBytes w) v =
        BitVec.ofNat 8 ((p >>> (7 * (sbound (widthBytes w) - 1)) &&& 0x7F) ||| (if v < 0 then mask else 0)) ::
          (fieldBytes (sbound (widthBytes w)) p).tail) ∧
    (2 ^ 6 - 1) * 2 ^ (7 - 6) = 0x7E ∧ (2 ^ 5 - 1) * 2 ^ (7 - 5) = 0x7C ∧ (2 ^ 3 - 1) * 2 ^ (7 - 3) = 0x70 ∧
    ∀ w, widthBits w % 7 ≠ 0

/-- 40_varint.md R108 to R110 (`DECU`), on the input as a field, as `M` stopless bytes, and as fewer. -/
def Obligations.DecuResult : Prop :=
  ∀ (w : Width) (s : State),
    (∀ f r, s.inq = f ++ r → isField f = true → f.length ≤ ubound (widthBytes w) →
      exec (.decu w) s = .next { s with
        val := BitVec.ofNat 64 (fieldNat f % 2 ^ widthBits w)
        inq := r
        status := packStatus .ok false (decide (2 ^ widthBits w ≤ fieldNat f)) f.length }) ∧
    (ubound (widthBytes w) ≤ s.inq.length → noStop (s.inq.take (ubound (widthBytes w))) = true →
      exec (.decu w) s = .next { s with
        inq := s.inq.drop (ubound (widthBytes w))
        status := packStatus .malformedVarint false false (ubound (widthBytes w))
        sticky := s.sticky ||| 0x2 }) ∧
    (s.inq.length < ubound (widthBytes w) → noStop s.inq = true →
      exec (.decu w) s = .next { s with status := packStatus .underrun false false 0 })

/-- 40_varint.md R117 to R119 (`DECS`), on the input as a field, as `M` stopless bytes, and as fewer: the field read as
a 7n-bit two's complement number, reduced to W bits. -/
def Obligations.DecsResult : Prop :=
  ∀ (w : Width) (s : State),
    (∀ f r, s.inq = f ++ r → isField f = true → f.length ≤ sbound (widthBytes w) →
      exec (.decs w) s = .next { s with
        val := BitVec.ofInt 64 (Int.bmod (fieldInt f) (2 ^ widthBits w))
        inq := r
        status := packStatus .ok false
          (decide (fieldInt f < -2 ^ (widthBits w - 1) ∨ 2 ^ (widthBits w - 1) ≤ fieldInt f)) f.length }) ∧
    (sbound (widthBytes w) ≤ s.inq.length → noStop (s.inq.take (sbound (widthBytes w))) = true →
      exec (.decs w) s = .next { s with
        inq := s.inq.drop (sbound (widthBytes w))
        status := packStatus .malformedVarint false false (sbound (widthBytes w))
        sticky := s.sticky ||| 0x2 }) ∧
    (s.inq.length < sbound (widthBytes w) → noStop s.inq = true →
      exec (.decs w) s = .next { s with status := packStatus .underrun false false 0 })

/-- 40_varint.md R120, with the wider decoder of 70_reset_and_hazards.md R300 and R307: the unsigned round trip through the block,
whatever the host leaves in `VAL` between the two commands. -/
def Obligations.UnsignedRoundTrip : Prop :=
  ∀ (w w' : Width) (s : State) (x : Word), widthBits w ≤ widthBits w' → s.inq = [] → s.outq = [] →
    s.val.toNat < 2 ^ widthBits w →
    ∃ t u, exec (.encu w) s = .next t ∧ exec (.decu w') ((looped t).setVal x) = .next u ∧
      t.codeField = codeNumber .ok ∧ u.codeField = codeNumber .ok ∧ u.val = s.val ∧
      t.cnt = t.outq.length ∧ u.cnt = t.outq.length ∧ t.outq.length ≤ ubound (widthBytes w) ∧
      u.ovl = false ∧ u.inq = [] ∧ u.outq = []

/-- 40_varint.md R121, with the wider decoder of 70_reset_and_hazards.md R300 and R307: the signed round trip through
the block. -/
def Obligations.SignedRoundTrip : Prop :=
  ∀ (w w' : Width) (s : State) (x : Word), widthBits w ≤ widthBits w' → s.inq = [] → s.outq = [] →
    -2 ^ (widthBits w - 1) ≤ s.val.toInt → s.val.toInt < 2 ^ (widthBits w - 1) →
    ∃ t u, exec (.encs w) s = .next t ∧ exec (.decs w') ((looped t).setVal x) = .next u ∧
      t.codeField = codeNumber .ok ∧ u.codeField = codeNumber .ok ∧ u.val = s.val ∧
      t.cnt = t.outq.length ∧ u.cnt = t.outq.length ∧ t.outq.length ≤ sbound (widthBytes w) ∧
      u.ovl = false ∧ u.inq = [] ∧ u.outq = []

/-- 40_varint.md R122: in every encoded integer exactly the last byte has bit 7 set, over the commands that emit one. -/
def Obligations.StopBitOnlyOnTheLastByte : Prop :=
  ∀ (i : Instr) (s t : State), exec i s = .next t → t.codeField = codeNumber .ok →
    (((∃ w, i = .encu w ∨ i = .encs w) ∨ (i = .hdre ∧ s.fixedAscii = false)) →
      ∃ bs, t.outq = s.outq ++ bs ∧ isField bs = true) ∧
    (((∃ p, i = .encr p) ∨ i = .encrU ∨ i = .encd) → t.nf = false →
      ∃ b bs, t.outq = s.outq ++ b :: bs ∧ isField bs = true)

/-! ## Decimal reals -/

/-- 41_real.md R143: `fmul`, `fdiv`, `f_of_int`, `pow10` give the nearest binary64 value to the exact result, and at a
tie the one with an even fraction, wherever they give a finite value. The rational value of a pattern is the model's
reading of IEEE 754 (log entry 4). -/
def Obligations.ArithmeticRoundsToNearestEven : Prop :=
  ∀ (r : Word) (q : ℚ),
    ((∃ x y, isfinite x = true ∧ isfinite y = true ∧ r = fmul x y ∧ q = realValue x * realValue y) ∨
      (∃ x y, isfinite x = true ∧ isfinite y = true ∧ fsig y ≠ 0 ∧ r = fdiv x y ∧ q = realValue x / realValue y) ∨
      (∃ m : Int, -2 ^ 63 ≤ m ∧ m < 2 ^ 63 ∧ r = fOfInt m ∧ q = m) ∨
      (∃ a : Nat, 9 ≤ a ∧ a ≤ 64 ∧ r = pow10 a ∧ q = 10 ^ a)) →
    isfinite r = true → ∀ z, isfinite z = true →
      |realValue r - q| ≤ |realValue z - q| ∧
        (|realValue r - q| = |realValue z - q| → realValue z ≠ realValue r → ffracField r % 2 = 0)

/-- 41_real.md R143: `ftrunc` and `int_of_f`: the integer part, toward zero, exact, with the sign kept. The rational
value of a pattern is the model's reading of IEEE 754 (log entry 4). -/
def Obligations.TruncationIsTowardZero : Prop :=
  ∀ x : Word, isfinite x = true →
    isfinite (ftrunc x) = true ∧ fneg (ftrunc x) = fneg x ∧ realValue (ftrunc x) = (intOfF (ftrunc x) : ℚ) ∧
      |realValue (ftrunc x)| ≤ |realValue x| ∧ |realValue x| - |realValue (ftrunc x)| < 1 ∧
      (isIntegral x = true ↔ realValue (ftrunc x) = realValue x)

/-- 41_real.md R151: the search without a limit ends, after at most 339 multiplications. -/
def Obligations.UnboundedSearchEnds : Prop :=
  ∀ x : Word, isfinite x = true → ∃ k, k ≤ 339 ∧ searchEnds none x k

/-- 41_real.md R146: `canon` on a 64-bit mantissa gives the canonical form of the same value. -/
def Obligations.CanonGivesTheCanonicalForm : Prop :=
  ∀ m e : Int, -2 ^ 63 ≤ m → m < 2 ^ 63 → isCanonOf m e (canon m e).1 (canon m e).2

/-- 41_real.md R145 to R151 (`ENCR`, `ENCR.U`) on a finite `RVAL`: the next state, whole, in each case; `k` is where
the search ends and `(m, e)` the canonical pair of the truncated product. -/
def Obligations.EncrFiniteResult : Prop :=
  ∀ (i : Instr) (limit : Option Nat) (s : State) (k : Nat) (m e : Int),
    ((∃ p, i = .encr p ∧ limit = some p) ∨ (i = .encrU ∧ limit = none)) → isfinite s.rval = true →
    searchEnds limit s.rval k → isCanonOf (intOfF (ftrunc (tenfold k s.rval))) (-k) m e →
    (intOfF (ftrunc (tenfold k s.rval)) < -2 ^ 63 ∨ 2 ^ 63 ≤ intOfF (ftrunc (tenfold k s.rval)) →
      exec i s = .next { s with status := packStatus .realRange false false 0, sticky := s.sticky ||| 0x80 }) ∧
    (-2 ^ 63 ≤ intOfF (ftrunc (tenfold k s.rval)) → intOfF (ftrunc (tenfold k s.rval)) < 2 ^ 63 →
      (e < -64 ∨ 63 < e →
        exec i s = .next { s with status := packStatus .expRange false false 0, sticky := s.sticky ||| 0x100 }) ∧
      (-64 ≤ e → e ≤ 63 → outRoom s < (pairBytes m e).length →
        exec i s = .next { s with status := packStatus .outFull false false 0 }) ∧
      (-64 ≤ e → e ≤ 63 → (pairBytes m e).length ≤ outRoom s →
        exec i s = .next { s with
          mant := BitVec.ofInt 64 m
          expo := BitVec.ofInt 8 e
          outq := s.outq ++ pairBytes m e
          status := packStatus .ok false false (pairBytes m e).length }))

/-- 41_real.md R142, R150, R151 (`ENCR`, `ENCR.U`) on a NaN or an infinity. -/
def Obligations.EncrNonFiniteResult : Prop :=
  ∀ (i : Instr) (s : State), ((∃ p, i = .encr p) ∨ i = .encrU) → s.rval.extractLsb' 52 11 = 0x7FF →
    (1 ≤ outRoom s →
      exec i s = .next { s with outq := s.outq ++ [0xFF], status := packStatus .ok true false 1 }) ∧
    (outRoom s = 0 → exec i s = .next { s with status := packStatus .outFull false false 0 })

/-- 41_real.md R141, R147: the bytes of a pair: the exponent byte, with bit 7 clear and the exponent in its low seven
bits, then the mantissa as the shortest signed field. -/
def Obligations.PairBytesCarryThePair : Prop :=
  ∀ m e : Int, -2 ^ 63 ≤ m → m < 2 ^ 63 → -64 ≤ e → e ≤ 63 →
    ∃ b bs, pairBytes m e = b :: bs ∧ stopBit b = false ∧ carriedExponent b = e ∧ bs = sencode 8 m ∧
      fieldInt bs = m ∧ bs.length ≤ 10

/-- 41_real.md R152, R153 (`ENCD`): the next state, whole, in each of its three cases. -/
def Obligations.EncdResult : Prop :=
  ∀ (s : State) (m e : Int), isCanonOf s.mant.toInt s.expo.toInt m e →
    (e < -64 ∨ 63 < e →
      exec .encd s = .next { s with status := packStatus .expRange false false 0, sticky := s.sticky ||| 0x100 }) ∧
    (-64 ≤ e → e ≤ 63 → outRoom s < (pairBytes m e).length →
      exec .encd s = .next { s with status := packStatus .outFull false false 0 }) ∧
    (-64 ≤ e → e ≤ 63 → (pairBytes m e).length ≤ outRoom s →
      exec .encd s = .next { s with
        mant := BitVec.ofInt 64 m
        expo := BitVec.ofInt 8 e
        outq := s.outq ++ pairBytes m e
        status := packStatus .ok false false (pairBytes m e).length })

/-- 41_real.md R160 to R164 (`DECD`): the next state, whole, in each case of the input; `RVAL` is not touched. -/
def Obligations.DecdResult : Prop :=
  ∀ (s : State) (b : Byte) (r : List Byte),
    (s.inq = [] → exec .decd s = .next { s with status := packStatus .underrun false false 0 }) ∧
    (s.inq = 0xFF :: r → exec .decd s = .next { s with inq := r, status := packStatus .ok true false 1 }) ∧
    (s.inq = b :: r → stopBit b = true → b ≠ 0xFF →
      exec .decd s = .next { s with
        mant := 0, expo := BitVec.ofInt 8 (carriedExponent b), inq := r
        status := packStatus .ok false false 1 }) ∧
    (s.inq = b :: r → stopBit b = false →
      (∀ f r', r = f ++ r' → isField f = true → f.length ≤ 10 →
        exec .decd s = .next { s with
          mant := BitVec.ofInt 64 (fieldInt f), expo := BitVec.ofInt 8 (carriedExponent b), inq := r'
          status := packStatus .ok false (decide (fieldInt f < -2 ^ 63 ∨ 2 ^ 63 ≤ fieldInt f)) (1 + f.length) }) ∧
      (10 ≤ r.length → noStop (r.take 10) = true →
        exec .decd s = .next { s with
          inq := r.drop 10, status := packStatus .malformedVarint false false 11, sticky := s.sticky ||| 0x2 }) ∧
      (r.length < 10 → noStop r = true →
        exec .decd s = .next { s with status := packStatus .underrun false false 0 }))

/-- 41_real.md R160 to R163, R165 (`DECR`): the next state, whole, in each case of the input. -/
def Obligations.DecrResult : Prop :=
  ∀ (s : State) (b : Byte) (r : List Byte),
    (s.inq = [] → exec .decr s = .next { s with status := packStatus .underrun false false 0 }) ∧
    (s.inq = 0xFF :: r →
      exec .decr s = .next { s with
        rval := 0x7FF8000000000000, inq := r, status := packStatus .ok true false 1 }) ∧
    (s.inq = b :: r → stopBit b = true → b ≠ 0xFF →
      exec .decr s = .next { s with
        rval := 0, mant := 0, expo := BitVec.ofInt 8 (carriedExponent b), inq := r
        status := packStatus .ok false false 1 }) ∧
    (s.inq = b :: r → stopBit b = false →
      (∀ f r', r = f ++ r' → isField f = true → f.length ≤ 10 →
        exec .decr s = .next { s with
          rval := d2r (Int.bmod (fieldInt f) (2 ^ 64)) (carriedExponent b)
          mant := BitVec.ofInt 64 (fieldInt f), expo := BitVec.ofInt 8 (carriedExponent b), inq := r'
          status := packStatus .ok false (decide (fieldInt f < -2 ^ 63 ∨ 2 ^ 63 ≤ fieldInt f)) (1 + f.length) }) ∧
      (10 ≤ r.length → noStop (r.take 10) = true →
        exec .decr s = .next { s with
          inq := r.drop 10, status := packStatus .malformedVarint false false 11, sticky := s.sticky ||| 0x2 }) ∧
      (r.length < 10 → noStop r = true →
        exec .decr s = .next { s with status := packStatus .underrun false false 0 }))

/-- 41_real.md R162: the real of a decoded pair is finite, +0.0 for a zero mantissa at every exponent, and the repeated
product of a small exponent is the exact power of ten. The rational value of a pattern is the model's reading of
IEEE 754 (log entry 4); beyond the exponents that R143 gives `pow10` for, the second clause is about the model's total
functions (log entry 5). -/
def Obligations.DecodedRealIsFinite : Prop :=
  (∀ m e : Int, -2 ^ 63 ≤ m → m < 2 ^ 63 → -64 ≤ e → e ≤ 63 → isfinite (d2r m e) = true) ∧
    (∀ e : Int, d2r 0 e = 0) ∧ ∀ a, a < 9 → realValue (multiplier a) = 10 ^ a

/-- 41_real.md R167: the real round trip at P = 9: the six finite values come back bit for bit, NaN and +Infinity as
`NAN_PATTERN` with `NF`; -0.0 and a value that needs more digits do not come back. -/
def Obligations.ListedRealsRoundTrip : Prop :=
  let trip (x : Word) : Option (Word × Bool) :=
    match exec (.encr 9) { State.reset with rval := x } with
    | .next t =>
      match exec .decr ((looped t).setRval 1) with
      | .next u => some (u.rval, u.nf)
      | _ => none
    | _ => none
  (∀ x ∈ ([0x0000000000000000, 0x3FF0000000000000, 0xBFF0000000000000, 0x400921F9F01B866E, 0x40F86A0000000000,
      0x3F1A36E2EB1C432D] : List Word), trip x = some (x, false)) ∧
    trip 0x7FF8000000000000 = some (Config.nanPattern, true) ∧
    trip 0x7FF0000000000000 = some (Config.nanPattern, true) ∧
    trip 0x8000000000000000 = some (0, false) ∧ trip 0x3FD5555555555555 = some (0x3FD5555554F9B516, false)

/-- 41_real.md R168: after every real encode that ends `OK` on a finite value the registers hold a canonical pair, the
one whose bytes were appended; and 100 gives mantissa 1, exponent 2. -/
def Obligations.EncodedMantissaIsCanonical : Prop :=
  (∀ (i : Instr) (s t : State), ((∃ p, i = .encr p) ∨ i = .encrU ∨ i = .encd) → exec i s = .next t →
    t.codeField = codeNumber .ok → t.nf = false →
    canonicalMantissa t.mant.toInt ∧ t.outq = s.outq ++ pairBytes t.mant.toInt t.expo.toInt) ∧
    ∃ t, exec (.encr 9) { State.reset with rval := 0x4059000000000000 } = .next t ∧ t.mant = 1 ∧ t.expo = 2

/-- 41_real.md R153, R164: the pair round trip through the block, without floating point: `DECD` gives back the pair
`ENCD` left, whatever the host wrote to the pair's registers in between. -/
def Obligations.PairRoundTrip : Prop :=
  ∀ (s t : State) (x : Word) (y : BitVec 8), s.inq = [] → s.outq = [] → exec .encd s = .next t →
    t.codeField = codeNumber .ok →
    ∃ u, exec .decd (((looped t).setMant x).setExpo y) = .next u ∧ u.codeField = codeNumber .ok ∧
      u.mant = t.mant ∧ u.expo = t.expo ∧ u.cnt = t.cnt ∧ u.nf = false ∧ u.ovl = false ∧ u.inq = [] ∧ u.outq = []

/-! ## Frame headers -/

/-- 42_frame_header.md R193: the decimal rendering: the ASCII digits of the length, most significant first. -/
def Obligations.RenderingIsTheDecimalDigits : Prop :=
  dec 0 = [0x30] ∧
    ∀ l : Nat, l < 2 ^ 64 → 0 < l →
      dec l = (Nat.digits 10 l).reverse.map (fun d => BitVec.ofNat 8 (0x30 + d)) ∧ (dec l).length ≤ 20 ∧
        (dec l).head? ≠ some 0x30

/-- 42_frame_header.md R192 (`HDRE`): the next state, whole, in each case, by mode. -/
def Obligations.HdreResult : Prop :=
  ∀ s : State,
    (s.fixedAscii = false →
      ((uencode 8 s.val.toNat).length ≤ outRoom s →
        exec .hdre s = .next { s with
          outq := s.outq ++ uencode 8 s.val.toNat
          status := packStatus .ok false false (uencode 8 s.val.toNat).length }) ∧
      (outRoom s < (uencode 8 s.val.toNat).length →
        exec .hdre s = .next { s with status := packStatus .outFull false false 0 })) ∧
    (s.fixedAscii = true →
      (s.hwidth < (dec s.val.toNat).length →
        exec .hdre s = .next { s with
          status := packStatus .encodeRange false false 0, sticky := s.sticky ||| 0x40 }) ∧
      ((dec s.val.toNat).length ≤ s.hwidth → outRoom s < s.hwidth →
        exec .hdre s = .next { s with status := packStatus .outFull false false 0 }) ∧
      ((dec s.val.toNat).length ≤ s.hwidth → s.hwidth ≤ outRoom s →
        exec .hdre s = .next { s with
          outq := s.outq ++ dec s.val.toNat ++ List.replicate (s.hwidth - (dec s.val.toNat).length) 0x00
          status := packStatus .ok false false s.hwidth }))

/-- 42_frame_header.md R196, R197 (`HDRD` in Compact mode). -/
def Obligations.HdrdCompactResult : Prop :=
  ∀ s : State, s.fixedAscii = false →
    (∀ f r, s.inq = f ++ r → isField f = true → f.length ≤ 10 →
      exec .hdrd s = .next { s with
        val := BitVec.ofNat 64 (fieldNat f), inq := r
        status := packStatus .ok false (decide (2 ^ 64 ≤ fieldNat f)) f.length }) ∧
    (10 ≤ s.inq.length → noStop (s.inq.take 10) = true →
      exec .hdrd s = .next { s with
        inq := s.inq.drop 10, status := packStatus .headerTooLong false false 10, sticky := s.sticky ||| 0x4 }) ∧
    (s.inq.length < 10 → noStop s.inq = true →
      exec .hdrd s = .next { s with status := packStatus .underrun false false 0 })

/-- 42_frame_header.md R196, R198, R199, R201 (`HDRD` in FixedAscii mode): the accepted shape, its range, and
everything else refused as `BadHeader` with the width's bytes gone. -/
def Obligations.HdrdAsciiResult : Prop :=
  ∀ s : State, s.fixedAscii = true →
    (s.inq.length < s.hwidth → exec .hdrd s = .next { s with status := packStatus .underrun false false 0 }) ∧
    ∀ h r, s.inq = h ++ r → h.length = s.hwidth →
      (∀ lead digits trail, asciiShape h lead digits trail → spelled digits < 2 ^ 64 - 1 →
        exec .hdrd s = .next { s with
          val := BitVec.ofNat 64 (spelled digits), inq := r, status := packStatus .ok false false s.hwidth }) ∧
      (∀ lead digits trail, asciiShape h lead digits trail → 2 ^ 64 - 1 ≤ spelled digits →
        exec .hdrd s = .next { s with
          inq := r, status := packStatus .badHeader false false s.hwidth, sticky := s.sticky ||| 0x8 }) ∧
      ((¬ ∃ lead digits trail, asciiShape h lead digits trail) →
        exec .hdrd s = .next { s with
          inq := r, status := packStatus .badHeader false false s.hwidth, sticky := s.sticky ||| 0x8 })

/-- 42_frame_header.md R192, R196, R198, R199: the header round trip in both modes, and the one length that FixedAscii
sends and does not take back. -/
def Obligations.HeaderRoundTrip : Prop :=
  ∀ (s : State) (x : Word), s.inq = [] → s.outq = [] →
    (s.fixedAscii = false ∨ s.val.toNat < 10 ^ s.hwidth) →
    ∃ t u, exec .hdre s = .next t ∧ t.codeField = codeNumber .ok ∧ exec .hdrd ((looped t).setVal x) = .next u ∧
      u.cnt = t.cnt ∧ u.inq = [] ∧ u.outq = [] ∧ u.ovl = false ∧
      (s.fixedAscii = false ∨ s.val.toNat ≠ 2 ^ 64 - 1 → u.codeField = codeNumber .ok ∧ u.val = s.val) ∧
      (s.fixedAscii = true → s.val.toNat = 2 ^ 64 - 1 → u.codeField = codeNumber .badHeader ∧ u.val = x)

/-- 42_frame_header.md R202: eleven stopless bytes in Compact mode end `HeaderTooLong` with one byte left. -/
def Obligations.HeaderBoundRejection : Prop :=
  ∀ s : State, s.fixedAscii = false → s.inq.length = 11 → noStop s.inq = true →
    ∃ t, exec .hdrd s = .next t ∧ t.codeField = codeNumber .headerTooLong ∧ t.cnt = 10 ∧ t.inq.length = 1

/-! ## Every command -/

/-- 60_exceptions.md R260, R272: every well-formed command ends in a next state, with an outcome that R272 allows it. -/
def Obligations.EveryCommandEndsWithAnAllowedOutcome : Prop :=
  ∀ (i : Instr) (s : State), i.wf = true →
    ∃ t, exec i s = .next t ∧ ∃ x ∈ possibleCodes i s.fixedAscii, t.codeField = codeNumber x

/-- 60_exceptions.md R262: an outcome other than `OK` is precise. -/
def Obligations.ErrorOutcomesArePrecise : Prop :=
  ∀ (i : Instr) (s t : State), exec i s = .next t → t.codeField ≠ codeNumber .ok →
    sameButInput s t ∧ t.nf = false ∧ t.ovl = false ∧ t.status &&& ~~~(0xFF3F : Word) = 0 ∧
      t.inq = (if t.codeField = 1 ∨ t.codeField = 2 ∨ t.codeField = 3 then s.inq.drop t.cnt else s.inq)

/-- 60_exceptions.md R266, R267; 70_reset_and_hazards.md R305: `Underrun` and `OutFull` leave the block as it was apart
from `STATUS`, so the same command ends the same way again. -/
def Obligations.RetryIsHarmless : Prop :=
  ∀ (i : Instr) (s t : State), exec i s = .next t →
    (t.codeField = codeNumber .underrun ∨ t.codeField = codeNumber .outFull) →
    t = s.setStatus t.status ∧ t.cnt = 0 ∧ exec i t = .next t

/-- 10_state.md R31; 60_exceptions.md R262: `STICKY` only gains the bit of an error outcome. -/
def Obligations.StickyGainsTheErrorBit : Prop :=
  ∀ (i : Instr) (s t : State), i ≠ .srst → exec i s = .next t →
    t.sticky = (if t.codeField ∈ [1, 2, 3, 6, 7, 8, 9] then s.sticky ||| BitVec.ofNat 64 (2 ^ t.codeField) else s.sticky)

/-- 10_state.md R22 to R25, R32, R35: which registers a command other than `SRST` may write; the outside agents are
unchanged. -/
def Obligations.CommandsWriteOnlyTheirRegisters : Prop :=
  ∀ (i : Instr) (s t : State), i ≠ .srst → exec i s = .next t →
    t.cfg = s.cfg ∧ t.env = s.env ∧ (writesVal i = false → t.val = s.val) ∧ (writesRval i = false → t.rval = s.rval) ∧
      (writesPair i = false → t.mant = s.mant ∧ t.expo = s.expo) ∧
      (isDecoder i = false → t.inq = s.inq) ∧ (isEncoder i = false → t.outq = s.outq)

/-- 20_memory.md R57, R58: output is all or nothing, and a decode command removes exactly `CNT` bytes, at most 32. -/
def Obligations.StreamAccessIsAllOrNothing : Prop :=
  ∀ (i : Instr) (s t : State), exec i s = .next t →
    (isEncoder i = true →
      (t.outq = s.outq ∧ t.cnt = 0 ∧ t.codeField ≠ codeNumber .ok) ∨
        ∃ bs, t.outq = s.outq ++ bs ∧ bs.length = t.cnt ∧ 1 ≤ t.cnt ∧ t.cnt ≤ 32 ∧
          t.outq.length ≤ Config.outCap ∧ t.codeField = codeNumber .ok) ∧
    (isDecoder i = true →
      t.inq = s.inq.drop t.cnt ∧ t.cnt ≤ s.inq.length ∧ t.cnt ≤ 32 ∧
        (t.codeField = codeNumber .underrun ↔ t.cnt = 0))

/-- 10_state.md R21, R62: a command's effect on the block does not depend on `STATUS` or `STICKY`. -/
def Obligations.CommandsDoNotReadStatusOrSticky : Prop :=
  ∀ (i : Instr) (s t : State) (x y : Word), exec i s = .next t →
    exec i { s with status := x, sticky := y } =
      .next { t with sticky := if i = .srst then 0 else y ||| (if t.codeField ∈ [1, 2, 3, 6, 7, 8, 9] then
        BitVec.ofNat 64 (2 ^ t.codeField) else 0) }

/-- The invariant of Safety.lean, from 10_state.md R30, R31, R36, R37 and 60_exceptions.md R260, R262, holds at reset. -/
def Obligations.InvariantHoldsAtReset : Prop := StateInv State.reset

/-- Every step, of every agent, keeps the invariant. -/
def Obligations.EveryStepKeepsTheInvariant : Prop :=
  ∀ s t : State, StateInv s → step s = .next t → StateInv t

/-- 60_exceptions.md R262, R275; 20_memory.md R61: no step of any agent stops the machine, nor does any run. -/
def Obligations.NoRunStops : Prop :=
  ∀ (n : Nat) (s : State), safeStep s ∧ ∃ t, Sys2Proof.core.run n s = .next t

/-! ## Framing -/

/-- 42_frame_header.md R203: "hello" in Compact mode, on the wire and back. -/
def Obligations.HelloIsFramedAndRecovered : Prop :=
  let t : Transport := { blocking := true, freeEstimate := 0, sendAnswers := [], receiveAnswers := [], wire := [], arrived := [] }
  let w := writeAttempt none [] [0x68, 0x65, 0x6C, 0x6C, 0x6F] State.reset t
  let r := readMessage State.reset { t with arrived := w.transport.wire }
  w.outcome = .finished ∧ w.transport.wire = [0x85, 0x68, 0x65, 0x6C, 0x6C, 0x6F] ∧
    r.outcome = .message [0x68, 0x65, 0x6C, 0x6C, 0x6F]

/-- 43_host_framing.md R225 to R229, R235, R236; 42_frame_header.md R203: a message written over a blocking transport in
Compact mode is read back, and nothing after it is taken. A transport with no answers listed moves all it is asked to,
as far as bytes have arrived: that is the model's choice (log entry 11). -/
def Obligations.MessageRoundTrip : Prop :=
  ∀ (msg more : List Byte) (s s' : State) (t t' : Transport), msg.length < 2 ^ 64 →
    s.fixedAscii = false → s.outq = [] → t.blocking = true → t.sendAnswers = [] →
    ∃ hdr, (writeAttempt none [] msg s t).outcome = .finished ∧
      (writeAttempt none [] msg s t).transport.wire = t.wire ++ hdr ++ msg ∧
      (writeAttempt none [] msg s t).block.outq = [] ∧
      (s'.fixedAscii = false → s'.inq = [] → t'.receiveAnswers = [] → t'.arrived = hdr ++ msg ++ more →
        (readMessage s' t').outcome = .message msg ∧ (readMessage s' t').transport.arrived = more ∧
          (readMessage s' t').block.inq = [])

/-- 43_host_framing.md R231: with too little send space the writer reports zero bytes and an unsent progress; a later
attempt with space completes the message, its header the compact encoding of the length. -/
def Obligations.WriterResumesAfterBackpressure : Prop :=
  ∀ (msg : List Byte) (s : State) (t t' : Transport), msg.length < 2 ^ 64 → s.fixedAscii = false → s.outq = [] →
    t.blocking = false → t.freeEstimate < msg.length + (uencode 8 msg.length).length →
    t'.blocking = false → msg.length + (uencode 8 msg.length).length ≤ t'.freeEstimate →
    t'.sendAnswers = [.moved msg.length] →
    ∃ hdr, (writeAttempt none [] msg s t).outcome = .pending 0 nothingSent hdr ∧
      (writeAttempt none [] msg s t).transport = t ∧
      (writeAttempt (some nothingSent) hdr msg (writeAttempt none [] msg s t).block t').outcome = .finished ∧
      (writeAttempt (some nothingSent) hdr msg (writeAttempt none [] msg s t).block t').transport.wire =
        t'.wire ++ uencode 8 msg.length ++ msg
end

