-- ==== Sys2Proof/Laws/Framing.lean ====
section
/-! SUPPORT. What one call of the transport can do (43_host_framing.md R220, R221, R237). -/

namespace Sys2Proof.Machine

/-- A `send` changes only the list of answers and the bytes accepted. -/
theorem send_transport (buf : List Byte) (t : Transport) :
    (send buf t).2 = { t with
      sendAnswers := t.sendAnswers.tail
      wire := t.wire ++ buf.take (movedBytes buf.length (nextAnswer buf.length t)) } := rfl

/-- With no answer listed, a blocking `send` moves every byte. -/
theorem send_blocking {buf : List Byte} {t : Transport} (hb : t.blocking = true) (ha : t.sendAnswers = []) :
    send buf t = (.moved buf.length, { t with wire := t.wire ++ buf }) := by
  simp [send, nextAnswer, movedBytes, hb, ha]

/-- A `receive` changes only the list of answers and the bytes arrived. -/
theorem receive_transport (n : Nat) (t : Transport) :
    (receive n t).2 = { t with
      receiveAnswers := t.receiveAnswers.tail
      arrived := t.arrived.drop (movedBytes n (nextReceiveAnswer n t)) } := rfl

/-- `receive` answers bytes exactly when the transport's answer is a count; they are the head of what has arrived. -/
theorem receive_moved {n : Nat} {t : Transport} {bs : List Byte} :
    (receive n t).1 = .moved bs ↔
      ∃ k, nextReceiveAnswer n t = .moved k ∧ bs = t.arrived.take (min k n) := by
  unfold receive
  cases nextReceiveAnswer n t <;> simp [movedBytes, eq_comm]

/-- `receiveExactly` gives bytes exactly when `receive` moved as many as asked for. -/
theorem receiveExactly_ok {n : Nat} {t t1 : Transport} {bs : List Byte} :
    receiveExactly n t = (.ok bs, t1) ↔ receive n t = (.moved bs, t1) ∧ bs.length = n := by
  unfold receiveExactly
  rcases receive n t with ⟨r, u⟩
  cases r with
  | moved cs =>
    by_cases h : cs.length = n
    · simp [h]; rintro rfl rfl; exact h
    · simp [h]; rintro rfl rfl; exact h
  | wouldBlock => simp
  | error => simp

/-- With no answer listed and all the bytes there, either kind of stream gives them and leaves the rest. -/
theorem receiveExactly_arrived {bs more : List Byte} {t : Transport} (ha : t.receiveAnswers = [])
    (h : t.arrived = bs ++ more) :
    receiveExactly bs.length t = (.ok bs, { t with arrived := more }) := by
  simp [receiveExactly, receive, nextReceiveAnswer, movedBytes, ha, h]

/-- Where `receiveExactly` gives no bytes, the reader ends as R220, R237 and log entry 13 say. -/
theorem receiveExactly_error {n : Nat} {t t1 : Transport} {o : ReadOutcome} (h : receiveExactly n t = (.error o, t1)) :
    o = .failed .transport ∨ (t.blocking = true ∧ o = .failed .shortRead) ∨
      (t.blocking = false ∧ (o = .wouldBlock ∨ ∃ bs, bs.length ≠ n ∧ o = .receivedInPart bs)) := by
  unfold receiveExactly at h
  rcases hr : receive n t with ⟨r, u⟩
  rw [hr] at h
  cases hb : t.blocking <;> cases r <;> simp [hb] at h
  · split at h
    · simp at h
    · exact .inr (.inr ⟨rfl, .inr ⟨_, by assumption, by simpa using h.1.symm⟩⟩)
  · simp [← h.1]
  · simp [← h.1]
  · split at h
    · simp at h
    · simp at h; simp [← h.1]
  · simp [← h.1]
  · simp [← h.1]

end Sys2Proof.Machine
end

