-- ==== Sys2Proof/Laws/Operands.lean ====
section
/-! SUPPORT. The operand forms: bit length, the group counts of R106 and R111 as the least counts they are said to be,
the bytes of a field, and what `scan` answers. -/

namespace Sys2Proof.Machine

/-! ## Bit length -/

/-- `bitlen(v)` is the least k with `v < 2^k` (00_scope.md R10). -/
theorem bitlen_le_iff (v k : Nat) : bitlen v ≤ k ↔ v < 2 ^ k := by
  unfold bitlen
  split
  · rename_i h
    simp [h]
  · rename_i h
    rw [Nat.succ_le_iff, Nat.log2_lt h]

/-! ## How many groups -/

theorem ulen_pos (v : Nat) : 1 ≤ ulen v := Nat.le_max_left _ _

/-- `ulen v` is the least count of 7-bit groups, at least one, that hold `v` (R106). -/
theorem ulen_le_iff (v n : Nat) (hn : 1 ≤ n) : ulen v ≤ n ↔ v < 2 ^ (7 * n) := by
  rw [← bitlen_le_iff]
  unfold ulen
  omega

theorem slen_pos (v : Int) : 1 ≤ slen v := by
  unfold slen
  omega

theorem signMagnitude_lt_iff (v : Int) (k : Nat) : signMagnitude v < 2 ^ k ↔ -2 ^ k ≤ v ∧ v < 2 ^ k := by
  have hk : (0 : Int) < 2 ^ k := by positivity
  have hc : ((2 ^ k : Nat) : Int) = 2 ^ k := by push_cast; rfl
  unfold signMagnitude
  split <;> zify [hc] <;> omega

/-- `slen v` is the least count, at least one, with `-2^(7n-1) ≤ v < 2^(7n-1)` (R111). -/
theorem slen_le_iff (v : Int) (n : Nat) (hn : 1 ≤ n) :
    slen v ≤ n ↔ -2 ^ (7 * n - 1) ≤ v ∧ v < 2 ^ (7 * n - 1) := by
  rw [← signMagnitude_lt_iff, ← bitlen_le_iff]
  unfold slen
  omega

/-- `slen v` groups hold `v` (R111). -/
theorem slen_fits (v : Int) : -2 ^ (7 * slen v - 1) ≤ v ∧ v < 2 ^ (7 * slen v - 1) :=
  (slen_le_iff v (slen v) (slen_pos v)).mp (Nat.le_refl _)

/-- No smaller count, at least one, holds `v` (R111). -/
theorem slen_least (v : Int) (n : Nat) (hn : 1 ≤ n) (h : -2 ^ (7 * n - 1) ≤ v ∧ v < 2 ^ (7 * n - 1)) :
    slen v ≤ n := (slen_le_iff v n hn).mpr h

/-! ## The bytes of a field -/

@[simp] theorem leadBytes_length (k u : Nat) : (leadBytes k u).length = k := by
  induction k with
  | zero => rfl
  | succ k ih => simp [leadBytes, ih]

@[simp] theorem fieldBytes_length (n u : Nat) : (fieldBytes n u).length = n - 1 + 1 := by
  simp [fieldBytes]

@[simp] theorem payload_groupByte (g : Nat) : payload (groupByte g) = g % 128 := by
  simp [payload, groupByte]

@[simp] theorem payload_stopByte (g : Nat) : payload (stopByte g) = g % 128 := by
  simp [payload, stopByte]

theorem stopBit_iff (b : Byte) : stopBit b = decide (128 ≤ b.toNat) := by
  have : ∀ b : BitVec 8, b.getLsbD 7 = decide (128 ≤ b.toNat) := by decide
  exact this b

@[simp] theorem stopBit_groupByte (g : Nat) : stopBit (groupByte g) = false := by
  rw [stopBit_iff, groupByte]
  simp
  omega

@[simp] theorem stopBit_stopByte (g : Nat) : stopBit (stopByte g) = true := by
  rw [stopBit_iff, stopByte]
  simp
  omega

theorem stopBit_of_mem_leadBytes {k u : Nat} {b : Byte} (h : b ∈ leadBytes k u) : stopBit b = false := by
  induction k with
  | zero => simp [leadBytes] at h
  | succ k ih =>
    simp only [leadBytes, List.mem_cons] at h
    rcases h with rfl | h
    · simp
    · exact ih h

/-! ## Folding -/

theorem fieldNat_append_singleton (f : List Byte) (b : Byte) :
    fieldNat (f ++ [b]) = fieldNat f * 128 + payload b := by
  simp [fieldNat]

/-- The decoders' accumulator is the seed and all the groups, reduced (R109, R118). -/
theorem foldAcc_eq (W seed : Nat) (f : List Byte) :
    foldAcc W seed f % 2 ^ W = (seed * 128 ^ f.length + fieldNat f) % 2 ^ W := by
  induction f using List.reverseRecOn with
  | nil => simp [foldAcc, fieldNat]
  | append_singleton f b ih =>
    have step : foldAcc W seed (f ++ [b]) = (foldAcc W seed f * 128 + payload b) % 2 ^ W := by
      simp [foldAcc]
    rw [step, fieldNat_append_singleton, Nat.mod_mod, Nat.add_mod, Nat.mul_mod, ih, ← Nat.mul_mod, ← Nat.add_mod]
    congr 1
    simp only [List.length_append, List.length_singleton, pow_succ]
    ring

theorem payload_lt (b : Byte) : payload b < 128 := Nat.mod_lt _ (by decide)

theorem fieldNat_lt (f : List Byte) : fieldNat f < 128 ^ f.length := by
  induction f using List.reverseRecOn with
  | nil => simp [fieldNat]
  | append_singleton f b ih =>
    have := payload_lt b
    rw [fieldNat_append_singleton, List.length_append, List.length_singleton, pow_succ]
    omega

/-! ## Finding the end of a field (R108) -/

/-- `scan` answers `Found(n)` exactly when the n-th byte is the first with the stop bit among the first `M`. -/
theorem scan_found_iff {off bound n : Nat} {q : List Byte} :
    scan off bound q = .found n ↔ ∃ i, n = i + 1 ∧ ((q.drop off).take bound).findIdx? stopBit = some i := by
  unfold scan
  cases h : ((q.drop off).take bound).findIdx? stopBit with
  | none => simp; split <;> simp
  | some i => simp [eq_comm]

/-- `scan` answers `Malformed` exactly when all `M` bytes are there and none has the stop bit. -/
theorem scan_malformed_iff {off bound : Nat} {q : List Byte} :
    scan off bound q = .malformed ↔
      off + bound ≤ q.length ∧ ∀ b ∈ (q.drop off).take bound, stopBit b = false := by
  unfold scan
  cases h : ((q.drop off).take bound).findIdx? stopBit with
  | none =>
    have := List.findIdx?_eq_none_iff.mp h
    simp only
    split <;> simp_all
  | some i =>
    have hne : ((q.drop off).take bound).findIdx? stopBit ≠ none := by simp [h]
    simp only [reduceCtorEq, false_iff, not_and]
    intro _ hall
    exact hne (List.findIdx?_eq_none_iff.mpr hall)

/-- `scan` answers `Underrun` exactly when fewer than `M` bytes are there and none has the stop bit. -/
theorem scan_underrun_iff {off bound : Nat} {q : List Byte} :
    scan off bound q = .underrun ↔
      q.length < off + bound ∧ ∀ b ∈ (q.drop off).take bound, stopBit b = false := by
  unfold scan
  cases h : ((q.drop off).take bound).findIdx? stopBit with
  | none =>
    have := List.findIdx?_eq_none_iff.mp h
    simp only
    split
    · simp; omega
    · simp_all
  | some i =>
    have hne : ((q.drop off).take bound).findIdx? stopBit ≠ none := by simp [h]
    simp only [reduceCtorEq, false_iff, not_and]
    intro _ hall
    exact hne (List.findIdx?_eq_none_iff.mpr hall)

/-- A found field lies within the bound and within `IN`. -/
theorem scan_found_le {off bound n : Nat} {q : List Byte} (h : scan off bound q = .found n) :
    1 ≤ n ∧ n ≤ bound ∧ off + n ≤ q.length := by
  obtain ⟨i, rfl, hi⟩ := scan_found_iff.mp h
  have hlt := (List.findIdx?_eq_some_iff_getElem.mp hi).1
  simp only [List.length_take, List.length_drop] at hlt
  omega

end Sys2Proof.Machine
end

