-- ==== Sys2Proof/Laws/State.lean ====
section
/-! SUPPORT. One lemma per field per update of State, each true by rfl. -/

namespace Sys2Proof.Machine

section
variable (s : State) (v : Word)
@[simp] theorem State.setVal_val : (s.setVal v).val = v := rfl
@[simp] theorem State.setVal_rval : (s.setVal v).rval = s.rval := rfl
@[simp] theorem State.setVal_mant : (s.setVal v).mant = s.mant := rfl
@[simp] theorem State.setVal_expo : (s.setVal v).expo = s.expo := rfl
@[simp] theorem State.setVal_cfg : (s.setVal v).cfg = s.cfg := rfl
@[simp] theorem State.setVal_status : (s.setVal v).status = s.status := rfl
@[simp] theorem State.setVal_sticky : (s.setVal v).sticky = s.sticky := rfl
@[simp] theorem State.setVal_inq : (s.setVal v).inq = s.inq := rfl
@[simp] theorem State.setVal_outq : (s.setVal v).outq = s.outq := rfl
@[simp] theorem State.setVal_env : (s.setVal v).env = s.env := rfl
end

section
variable (s : State) (v : Word)
@[simp] theorem State.setRval_val : (s.setRval v).val = s.val := rfl
@[simp] theorem State.setRval_rval : (s.setRval v).rval = v := rfl
@[simp] theorem State.setRval_mant : (s.setRval v).mant = s.mant := rfl
@[simp] theorem State.setRval_expo : (s.setRval v).expo = s.expo := rfl
@[simp] theorem State.setRval_cfg : (s.setRval v).cfg = s.cfg := rfl
@[simp] theorem State.setRval_status : (s.setRval v).status = s.status := rfl
@[simp] theorem State.setRval_sticky : (s.setRval v).sticky = s.sticky := rfl
@[simp] theorem State.setRval_inq : (s.setRval v).inq = s.inq := rfl
@[simp] theorem State.setRval_outq : (s.setRval v).outq = s.outq := rfl
@[simp] theorem State.setRval_env : (s.setRval v).env = s.env := rfl
end

section
variable (s : State) (v : Word)
@[simp] theorem State.setMant_val : (s.setMant v).val = s.val := rfl
@[simp] theorem State.setMant_rval : (s.setMant v).rval = s.rval := rfl
@[simp] theorem State.setMant_mant : (s.setMant v).mant = v := rfl
@[simp] theorem State.setMant_expo : (s.setMant v).expo = s.expo := rfl
@[simp] theorem State.setMant_cfg : (s.setMant v).cfg = s.cfg := rfl
@[simp] theorem State.setMant_status : (s.setMant v).status = s.status := rfl
@[simp] theorem State.setMant_sticky : (s.setMant v).sticky = s.sticky := rfl
@[simp] theorem State.setMant_inq : (s.setMant v).inq = s.inq := rfl
@[simp] theorem State.setMant_outq : (s.setMant v).outq = s.outq := rfl
@[simp] theorem State.setMant_env : (s.setMant v).env = s.env := rfl
end

section
variable (s : State) (v : BitVec 8)
@[simp] theorem State.setExpo_val : (s.setExpo v).val = s.val := rfl
@[simp] theorem State.setExpo_rval : (s.setExpo v).rval = s.rval := rfl
@[simp] theorem State.setExpo_mant : (s.setExpo v).mant = s.mant := rfl
@[simp] theorem State.setExpo_expo : (s.setExpo v).expo = v := rfl
@[simp] theorem State.setExpo_cfg : (s.setExpo v).cfg = s.cfg := rfl
@[simp] theorem State.setExpo_status : (s.setExpo v).status = s.status := rfl
@[simp] theorem State.setExpo_sticky : (s.setExpo v).sticky = s.sticky := rfl
@[simp] theorem State.setExpo_inq : (s.setExpo v).inq = s.inq := rfl
@[simp] theorem State.setExpo_outq : (s.setExpo v).outq = s.outq := rfl
@[simp] theorem State.setExpo_env : (s.setExpo v).env = s.env := rfl
end

section
variable (s : State) (v : BitVec 6)
@[simp] theorem State.setCfg_val : (s.setCfg v).val = s.val := rfl
@[simp] theorem State.setCfg_rval : (s.setCfg v).rval = s.rval := rfl
@[simp] theorem State.setCfg_mant : (s.setCfg v).mant = s.mant := rfl
@[simp] theorem State.setCfg_expo : (s.setCfg v).expo = s.expo := rfl
@[simp] theorem State.setCfg_cfg : (s.setCfg v).cfg = v := rfl
@[simp] theorem State.setCfg_status : (s.setCfg v).status = s.status := rfl
@[simp] theorem State.setCfg_sticky : (s.setCfg v).sticky = s.sticky := rfl
@[simp] theorem State.setCfg_inq : (s.setCfg v).inq = s.inq := rfl
@[simp] theorem State.setCfg_outq : (s.setCfg v).outq = s.outq := rfl
@[simp] theorem State.setCfg_env : (s.setCfg v).env = s.env := rfl
end

section
variable (s : State) (v : Word)
@[simp] theorem State.setStatus_val : (s.setStatus v).val = s.val := rfl
@[simp] theorem State.setStatus_rval : (s.setStatus v).rval = s.rval := rfl
@[simp] theorem State.setStatus_mant : (s.setStatus v).mant = s.mant := rfl
@[simp] theorem State.setStatus_expo : (s.setStatus v).expo = s.expo := rfl
@[simp] theorem State.setStatus_cfg : (s.setStatus v).cfg = s.cfg := rfl
@[simp] theorem State.setStatus_status : (s.setStatus v).status = v := rfl
@[simp] theorem State.setStatus_sticky : (s.setStatus v).sticky = s.sticky := rfl
@[simp] theorem State.setStatus_inq : (s.setStatus v).inq = s.inq := rfl
@[simp] theorem State.setStatus_outq : (s.setStatus v).outq = s.outq := rfl
@[simp] theorem State.setStatus_env : (s.setStatus v).env = s.env := rfl
end

section
variable (s : State) (v : Word)
@[simp] theorem State.setSticky_val : (s.setSticky v).val = s.val := rfl
@[simp] theorem State.setSticky_rval : (s.setSticky v).rval = s.rval := rfl
@[simp] theorem State.setSticky_mant : (s.setSticky v).mant = s.mant := rfl
@[simp] theorem State.setSticky_expo : (s.setSticky v).expo = s.expo := rfl
@[simp] theorem State.setSticky_cfg : (s.setSticky v).cfg = s.cfg := rfl
@[simp] theorem State.setSticky_status : (s.setSticky v).status = s.status := rfl
@[simp] theorem State.setSticky_sticky : (s.setSticky v).sticky = v := rfl
@[simp] theorem State.setSticky_inq : (s.setSticky v).inq = s.inq := rfl
@[simp] theorem State.setSticky_outq : (s.setSticky v).outq = s.outq := rfl
@[simp] theorem State.setSticky_env : (s.setSticky v).env = s.env := rfl
end

section
variable (s : State) (v : List Byte)
@[simp] theorem State.setInq_val : (s.setInq v).val = s.val := rfl
@[simp] theorem State.setInq_rval : (s.setInq v).rval = s.rval := rfl
@[simp] theorem State.setInq_mant : (s.setInq v).mant = s.mant := rfl
@[simp] theorem State.setInq_expo : (s.setInq v).expo = s.expo := rfl
@[simp] theorem State.setInq_cfg : (s.setInq v).cfg = s.cfg := rfl
@[simp] theorem State.setInq_status : (s.setInq v).status = s.status := rfl
@[simp] theorem State.setInq_sticky : (s.setInq v).sticky = s.sticky := rfl
@[simp] theorem State.setInq_inq : (s.setInq v).inq = v := rfl
@[simp] theorem State.setInq_outq : (s.setInq v).outq = s.outq := rfl
@[simp] theorem State.setInq_env : (s.setInq v).env = s.env := rfl
end

section
variable (s : State) (v : List Byte)
@[simp] theorem State.setOutq_val : (s.setOutq v).val = s.val := rfl
@[simp] theorem State.setOutq_rval : (s.setOutq v).rval = s.rval := rfl
@[simp] theorem State.setOutq_mant : (s.setOutq v).mant = s.mant := rfl
@[simp] theorem State.setOutq_expo : (s.setOutq v).expo = s.expo := rfl
@[simp] theorem State.setOutq_cfg : (s.setOutq v).cfg = s.cfg := rfl
@[simp] theorem State.setOutq_status : (s.setOutq v).status = s.status := rfl
@[simp] theorem State.setOutq_sticky : (s.setOutq v).sticky = s.sticky := rfl
@[simp] theorem State.setOutq_inq : (s.setOutq v).inq = s.inq := rfl
@[simp] theorem State.setOutq_outq : (s.setOutq v).outq = v := rfl
@[simp] theorem State.setOutq_env : (s.setOutq v).env = s.env := rfl
end

section
variable (s : State) (v : Env)
@[simp] theorem State.setEnv_val : (s.setEnv v).val = s.val := rfl
@[simp] theorem State.setEnv_rval : (s.setEnv v).rval = s.rval := rfl
@[simp] theorem State.setEnv_mant : (s.setEnv v).mant = s.mant := rfl
@[simp] theorem State.setEnv_expo : (s.setEnv v).expo = s.expo := rfl
@[simp] theorem State.setEnv_cfg : (s.setEnv v).cfg = s.cfg := rfl
@[simp] theorem State.setEnv_status : (s.setEnv v).status = s.status := rfl
@[simp] theorem State.setEnv_sticky : (s.setEnv v).sticky = s.sticky := rfl
@[simp] theorem State.setEnv_inq : (s.setEnv v).inq = s.inq := rfl
@[simp] theorem State.setEnv_outq : (s.setEnv v).outq = s.outq := rfl
@[simp] theorem State.setEnv_env : (s.setEnv v).env = v := rfl
end

end Sys2Proof.Machine
end

