-- ==== Sys2Proof/Laws/Ops.lean ====
section
/-! SUPPORT. The shared operations: what each changes, field by field, and one lemma for each that says all it can do. -/

namespace Sys2Proof.Machine

/-! ## Field by field -/

section
variable (x : Code) (c : Nat) (s : State)
@[simp] theorem raised_val : (raised x c s).val = s.val := rfl
@[simp] theorem raised_rval : (raised x c s).rval = s.rval := rfl
@[simp] theorem raised_mant : (raised x c s).mant = s.mant := rfl
@[simp] theorem raised_expo : (raised x c s).expo = s.expo := rfl
@[simp] theorem raised_cfg : (raised x c s).cfg = s.cfg := rfl
@[simp] theorem raised_status : (raised x c s).status = packStatus x false false c := rfl
@[simp] theorem raised_sticky : (raised x c s).sticky = s.sticky ||| stickyBits x := rfl
@[simp] theorem raised_inq : (raised x c s).inq = s.inq := rfl
@[simp] theorem raised_outq : (raised x c s).outq = s.outq := rfl
@[simp] theorem raised_env : (raised x c s).env = s.env := rfl
end

section
variable (nf ovl : Bool) (c : Nat) (s : State)
@[simp] theorem finished_val : (finished nf ovl c s).val = s.val := rfl
@[simp] theorem finished_rval : (finished nf ovl c s).rval = s.rval := rfl
@[simp] theorem finished_mant : (finished nf ovl c s).mant = s.mant := rfl
@[simp] theorem finished_expo : (finished nf ovl c s).expo = s.expo := rfl
@[simp] theorem finished_cfg : (finished nf ovl c s).cfg = s.cfg := rfl
@[simp] theorem finished_status : (finished nf ovl c s).status = packStatus .ok nf ovl c := rfl
@[simp] theorem finished_sticky : (finished nf ovl c s).sticky = s.sticky := rfl
@[simp] theorem finished_inq : (finished nf ovl c s).inq = s.inq := rfl
@[simp] theorem finished_outq : (finished nf ovl c s).outq = s.outq := rfl
@[simp] theorem finished_env : (finished nf ovl c s).env = s.env := rfl
end

section
variable (n : Nat) (s : State)
@[simp] theorem inDrop_val : (inDrop n s).val = s.val := rfl
@[simp] theorem inDrop_rval : (inDrop n s).rval = s.rval := rfl
@[simp] theorem inDrop_mant : (inDrop n s).mant = s.mant := rfl
@[simp] theorem inDrop_expo : (inDrop n s).expo = s.expo := rfl
@[simp] theorem inDrop_cfg : (inDrop n s).cfg = s.cfg := rfl
@[simp] theorem inDrop_status : (inDrop n s).status = s.status := rfl
@[simp] theorem inDrop_sticky : (inDrop n s).sticky = s.sticky := rfl
@[simp] theorem inDrop_inq : (inDrop n s).inq = s.inq.drop n := rfl
@[simp] theorem inDrop_outq : (inDrop n s).outq = s.outq := rfl
@[simp] theorem inDrop_env : (inDrop n s).env = s.env := rfl
end

section
variable (xs : List Byte) (s : State)
@[simp] theorem outAppend_val : (outAppend xs s).val = s.val := rfl
@[simp] theorem outAppend_rval : (outAppend xs s).rval = s.rval := rfl
@[simp] theorem outAppend_mant : (outAppend xs s).mant = s.mant := rfl
@[simp] theorem outAppend_expo : (outAppend xs s).expo = s.expo := rfl
@[simp] theorem outAppend_cfg : (outAppend xs s).cfg = s.cfg := rfl
@[simp] theorem outAppend_status : (outAppend xs s).status = s.status := rfl
@[simp] theorem outAppend_sticky : (outAppend xs s).sticky = s.sticky := rfl
@[simp] theorem outAppend_inq : (outAppend xs s).inq = s.inq := rfl
@[simp] theorem outAppend_outq : (outAppend xs s).outq = s.outq ++ xs := rfl
@[simp] theorem outAppend_env : (outAppend xs s).env = s.env := rfl
end

section
variable (m e : Int) (s : State)
@[simp] theorem setPair_val : (setPair m e s).val = s.val := rfl
@[simp] theorem setPair_rval : (setPair m e s).rval = s.rval := rfl
@[simp] theorem setPair_mant : (setPair m e s).mant = BitVec.ofInt 64 m := rfl
@[simp] theorem setPair_expo : (setPair m e s).expo = BitVec.ofInt 8 e := rfl
@[simp] theorem setPair_cfg : (setPair m e s).cfg = s.cfg := rfl
@[simp] theorem setPair_status : (setPair m e s).status = s.status := rfl
@[simp] theorem setPair_sticky : (setPair m e s).sticky = s.sticky := rfl
@[simp] theorem setPair_inq : (setPair m e s).inq = s.inq := rfl
@[simp] theorem setPair_outq : (setPair m e s).outq = s.outq := rfl
@[simp] theorem setPair_env : (setPair m e s).env = s.env := rfl
end

section
variable  (s : State)
@[simp] theorem resetBlock_val : (resetBlock s).val = 0 := rfl
@[simp] theorem resetBlock_rval : (resetBlock s).rval = 0 := rfl
@[simp] theorem resetBlock_mant : (resetBlock s).mant = 0 := rfl
@[simp] theorem resetBlock_expo : (resetBlock s).expo = 0 := rfl
@[simp] theorem resetBlock_cfg : (resetBlock s).cfg = Config.cfgReset := rfl
@[simp] theorem resetBlock_status : (resetBlock s).status = 0 := rfl
@[simp] theorem resetBlock_sticky : (resetBlock s).sticky = 0 := rfl
@[simp] theorem resetBlock_inq : (resetBlock s).inq = [] := rfl
@[simp] theorem resetBlock_outq : (resetBlock s).outq = [] := rfl
@[simp] theorem resetBlock_env : (resetBlock s).env = s.env := rfl
end

/-! ## How a command ends -/

theorem raise_eq (x : Code) (c : Nat) (s : State) : raise x c s = .next (raised x c s) := rfl

theorem done_eq (nf ovl : Bool) (c : Nat) (s : State) : done nf ovl c s = .next (finished nf ovl c s) := rfl

@[simp] theorem raise_next {x : Code} {c : Nat} {s t : State} : raise x c s = .next t ↔ t = raised x c s := by
  simp [raise, eq_comm]

@[simp] theorem done_next {nf ovl : Bool} {c : Nat} {s t : State} :
    done nf ovl c s = .next t ↔ t = finished nf ovl c s := by
  simp [done, eq_comm]

/-- Output is all or nothing (20_memory.md R57). -/
theorem emitAll_next {bs : List Byte} {nf : Bool} {writes : State → State} {s t : State} :
    emitAll bs nf writes s = .next t ↔
      (outRoom s < bs.length ∧ t = raised .outFull 0 s) ∨
        (bs.length ≤ outRoom s ∧ t = finished nf false bs.length (outAppend bs (writes s))) := by
  unfold emitAll
  split
  · rename_i h
    simp [h, Nat.not_le.mpr h]
  · rename_i h
    simp [h, Nat.not_lt.mp h]

/-- Decoding one unsigned field: nothing taken, `M` bytes taken, or exactly the field taken (R109). -/
theorem decodeUnsigned_next {W M : Nat} {bad : Code} {s t : State} :
    decodeUnsigned W M bad s = .next t ↔
      (scan 0 M s.inq = .underrun ∧ t = raised .underrun 0 s) ∨
      (scan 0 M s.inq = .malformed ∧ t = raised bad M (inDrop M s)) ∨
      ∃ n, scan 0 M s.inq = .found n ∧
        t = finished false (ovlUnsigned W (fieldNat (s.inq.take n))) n
          (inDrop n (s.setVal (BitVec.ofNat 64 (foldAcc W 0 (s.inq.take n))))) := by
  unfold decodeUnsigned
  split <;> simp_all

/-- Decoding one signed field: nothing taken, `M` bytes taken, or exactly the field taken (R118). -/
theorem decodeSigned_next {W M : Nat} {s t : State} :
    decodeSigned W M s = .next t ↔
      (scan 0 M s.inq = .underrun ∧ t = raised .underrun 0 s) ∨
      (scan 0 M s.inq = .malformed ∧ t = raised .malformedVarint M (inDrop M s)) ∨
      ∃ n, scan 0 M s.inq = .found n ∧
        t = finished false (ovlSigned W (fieldInt (s.inq.take n))) n
          (inDrop n (s.setVal (BitVec.ofInt 64 (signedValue W (s.inq.take n))))) := by
  unfold decodeSigned
  split <;> simp_all

/-- Emitting a decimal pair: the exponent check, then all-or-nothing output (R147, R150, R153). -/
theorem emitPair_next {m0 e0 : Int} {s t : State} :
    emitPair m0 e0 s = .next t ↔
      (expInRange (canon m0 e0).2 = false ∧ t = raised .expRange 0 s) ∨
      (expInRange (canon m0 e0).2 = true ∧
        emitAll (pairBytes (canon m0 e0).1 (canon m0 e0).2) false (setPair (canon m0 e0).1 (canon m0 e0).2) s
          = .next t) := by
  unfold emitPair
  cases h : expInRange (canon m0 e0).2 <;> simp [h]

/-! ## What a command can do -/

theorem execEncu_next {w : Width} {s t : State} :
    execEncu w s = .next t ↔
      (outsideUnsigned (widthBits w) s.val.toNat = true ∧ t = raised .encodeRange 0 s) ∨
      (outsideUnsigned (widthBits w) s.val.toNat = false ∧
        emitAll (uencode (widthBytes w) s.val.toNat) false id s = .next t) := by
  unfold execEncu
  cases h : outsideUnsigned (widthBits w) s.val.toNat <;> simp

theorem execEncs_next {w : Width} {s t : State} :
    execEncs w s = .next t ↔
      (outsideSigned (widthBits w) s.val.toInt = true ∧ t = raised .encodeRange 0 s) ∨
      (outsideSigned (widthBits w) s.val.toInt = false ∧
        emitAll (sencode (widthBytes w) s.val.toInt) false id s = .next t) := by
  unfold execEncs
  cases h : outsideSigned (widthBits w) s.val.toInt <;> simp

theorem encodeReal_next {limit : Nat} {s t : State} :
    encodeReal limit s = .next t ↔
      (isfinite s.rval = false ∧ emitAll [nonFiniteByte] true id s = .next t) ∨
      (isfinite s.rval = true ∧
        outsideSigned Config.mantW (intOfF (ftrunc (search limit 0 s.rval).2)) = true ∧
        t = raised .realRange 0 s) ∨
      (isfinite s.rval = true ∧
        outsideSigned Config.mantW (intOfF (ftrunc (search limit 0 s.rval).2)) = false ∧
        emitPair (intOfF (ftrunc (search limit 0 s.rval).2)) (-((search limit 0 s.rval).1 : Int)) s = .next t) := by
  unfold encodeReal
  cases h : isfinite s.rval <;>
    cases h' : outsideSigned Config.mantW (intOfF (ftrunc (search limit 0 s.rval).2)) <;> simp [h']

theorem execDecr_next {s t : State} :
    execDecr s = .next t ↔
      (parseReal s.inq = .underrun ∧ t = raised .underrun 0 s) ∨
      (parseReal s.inq = .malformed ∧ t = raised .malformedVarint 11 (inDrop 11 s)) ∨
      (parseReal s.inq = .nonFinite ∧ t = finished true false 1 (inDrop 1 (s.setRval Config.nanPattern))) ∨
      (∃ e, parseReal s.inq = .zeroShort e ∧ t = finished false false 1 (inDrop 1 (setPair 0 e (s.setRval 0)))) ∨
      ∃ m e c o, parseReal s.inq = .pair m e c o ∧
        t = finished false o c (inDrop c (setPair m e (s.setRval (d2r m e)))) := by
  unfold execDecr
  cases h : parseReal s.inq <;> simp [-Bool.exists_bool]

theorem execDecd_next {s t : State} :
    execDecd s = .next t ↔
      (parseReal s.inq = .underrun ∧ t = raised .underrun 0 s) ∨
      (parseReal s.inq = .malformed ∧ t = raised .malformedVarint 11 (inDrop 11 s)) ∨
      (parseReal s.inq = .nonFinite ∧ t = finished true false 1 (inDrop 1 s)) ∨
      (∃ e, parseReal s.inq = .zeroShort e ∧ t = finished false false 1 (inDrop 1 (setPair 0 e s))) ∨
      ∃ m e c o, parseReal s.inq = .pair m e c o ∧
        t = finished false o c (inDrop c (setPair m e s)) := by
  unfold execDecd
  cases h : parseReal s.inq <;> simp [-Bool.exists_bool]

theorem execHdre_next {s t : State} :
    execHdre s = .next t ↔
      (s.fixedAscii = false ∧ emitAll (uencode Config.sizeN s.val.toNat) false id s = .next t) ∨
      (s.fixedAscii = true ∧ s.hwidth < (dec s.val.toNat).length ∧ t = raised .encodeRange 0 s) ∨
      (s.fixedAscii = true ∧ (dec s.val.toNat).length ≤ s.hwidth ∧
        emitAll (asciiHeader s.hwidth (dec s.val.toNat)) false id s = .next t) := by
  unfold execHdre
  cases h : s.fixedAscii
  · simp
  · by_cases h' : s.hwidth < (dec s.val.toNat).length
    · simp [h', Nat.not_le.mpr h']
    · simp [h', Nat.not_lt.mp h']

theorem execHdrd_next {s t : State} :
    execHdrd s = .next t ↔
      (s.fixedAscii = false ∧
        decodeUnsigned (8 * Config.sizeN) (ubound Config.sizeN) .headerTooLong s = .next t) ∨
      (s.fixedAscii = true ∧ s.inq.length < s.hwidth ∧ t = raised .underrun 0 s) ∨
      (s.fixedAscii = true ∧ s.hwidth ≤ s.inq.length ∧
        ((∀ l, asciiParse (s.inq.take s.hwidth) = some l → Config.platformMax ≤ l) ∧
          t = raised .badHeader s.hwidth (inDrop s.hwidth s) ∨
        ∃ l, asciiParse (s.inq.take s.hwidth) = some l ∧ l < Config.platformMax ∧
          t = finished false false s.hwidth (inDrop s.hwidth (s.setVal (BitVec.ofNat 64 l))))) := by
  unfold execHdrd
  cases h : s.fixedAscii
  · simp
  · by_cases h' : s.inq.length < s.hwidth
    · simp [h', Nat.not_le.mpr h']
    · cases hp : asciiParse (s.inq.take s.hwidth) with
      | none => simp [h', Nat.not_lt.mp h']
      | some l =>
        by_cases hl : Config.platformMax ≤ l
        · simp [h', Nat.not_lt.mp h', hl]
        · simp [h', Nat.not_lt.mp h', hl, Nat.not_le.mp hl]

theorem execSrst_next {s t : State} : execSrst s = .next t ↔ t = resetBlock s := by
  simp [execSrst, eq_comm]

end Sys2Proof.Machine
end

