-- ==== Sys2Proof/Laws/PerInstr.lean ====
section
/-! SUPPORT. Laws stated for every command, one lemma per constructor. -/

namespace Sys2Proof.Laws

/-- The mask of an instruction's row (30_encoding.md R74). -/
def rowMask : Instr → CmdWord
  | .encu _ | .decu _ | .encs _ | .decs _ => 0xFFCF
  | .encr _ => 0xF03F
  | .encrU | .decr | .encd | .decd | .hdre | .hdrd | .srst => 0xFFFF

/-- The match of an instruction's row (R74). -/
def rowMatch : Instr → CmdWord
  | .encu _ => 0x0001
  | .decu _ => 0x0002
  | .encs _ => 0x0003
  | .decs _ => 0x0004
  | .encr _ => 0x0005
  | .encrU => 0x1005
  | .decr => 0x0006
  | .encd => 0x0007
  | .decd => 0x0008
  | .hdre => 0x0009
  | .hdrd => 0x000A
  | .srst => 0x000F

/-- The encoded word of a command selects the command's own row: `c & mask = match` (R74). -/
def EncodedRow.Statement (i : Instr) : Prop := encode i &&& rowMask i = rowMatch i

theorem EncodedRow.encu (w : Width) : EncodedRow.Statement (.encu w) := by cases w <;> rfl
theorem EncodedRow.decu (w : Width) : EncodedRow.Statement (.decu w) := by cases w <;> rfl
theorem EncodedRow.encs (w : Width) : EncodedRow.Statement (.encs w) := by cases w <;> rfl
theorem EncodedRow.decs (w : Width) : EncodedRow.Statement (.decs w) := by cases w <;> rfl

theorem EncodedRow.encr (p : Nat) : EncodedRow.Statement (.encr p) := by
  have h : ∀ q : BitVec 6, packWord 0 q 0 0x5 &&& 0xF03F = 0x0005 := by decide
  exact h (BitVec.ofNat 6 p)

theorem EncodedRow.encrU : EncodedRow.Statement .encrU := rfl
theorem EncodedRow.decr : EncodedRow.Statement .decr := rfl
theorem EncodedRow.encd : EncodedRow.Statement .encd := rfl
theorem EncodedRow.decd : EncodedRow.Statement .decd := rfl
theorem EncodedRow.hdre : EncodedRow.Statement .hdre := rfl
theorem EncodedRow.hdrd : EncodedRow.Statement .hdrd := rfl
theorem EncodedRow.srst : EncodedRow.Statement .srst := rfl

end Sys2Proof.Laws
end

