-- ==== Sys2Proof/Laws/Streams.lean ====
section
/-! SUPPORT. The queues: every operation that touches one keeps both within their capacities. The block has no
byte-addressed memory (20_memory.md R50); `queuesFit` is the form its stores keep. -/

namespace Sys2Proof.Machine

theorem queuesFit_reset : queuesFit State.reset := by
  simp [queuesFit, State.reset]

theorem push_some {b : Byte} {s t : State} (h : push b s = some t) :
    s.inq.length < Config.inCap ∧ t = s.setInq (s.inq ++ [b]) := by
  unfold push at h
  split at h
  · exact ⟨‹_›, by simpa using h.symm⟩
  · cases h

theorem push_queuesFit {b : Byte} {s t : State} (h : push b s = some t) (hs : queuesFit s) : queuesFit t := by
  obtain ⟨hlt, rfl⟩ := push_some h
  exact ⟨by simpa using hlt, hs.2⟩

theorem pop_some {b : Byte} {s t : State} (h : pop s = some (b, t)) :
    ∃ rest, s.outq = b :: rest ∧ t = s.setOutq rest := by
  unfold pop at h
  split at h
  · cases h
  · rename_i c rest heq
    simp only [Option.some.injEq, Prod.mk.injEq] at h
    exact ⟨rest, by rw [heq, h.1], h.2.symm⟩

theorem pop_queuesFit {b : Byte} {s t : State} (h : pop s = some (b, t)) (hs : queuesFit s) : queuesFit t := by
  obtain ⟨rest, hrest, rfl⟩ := pop_some h
  have := hs.2
  rw [hrest] at this
  exact ⟨hs.1, by simp at this ⊢; omega⟩

theorem inDrop_queuesFit {n : Nat} {s : State} (hs : queuesFit s) : queuesFit (inDrop n s) :=
  ⟨by have := hs.1; simp; omega, hs.2⟩

theorem outAppend_queuesFit {bs : List Byte} {s : State} (hs : queuesFit s) (h : bs.length ≤ outRoom s) :
    queuesFit (outAppend bs s) :=
  ⟨hs.1, by have := hs.2; simp [outRoom] at h ⊢; omega⟩

/-- Output never overfills `OUT`, whatever registers the command writes. -/
theorem emitAll_queuesFit {bs : List Byte} {nf : Bool} {writes : State → State} {s t : State}
    (hw : (writes s).inq = s.inq ∧ (writes s).outq = s.outq) (h : emitAll bs nf writes s = .next t)
    (hs : queuesFit s) : queuesFit t := by
  rcases emitAll_next.mp h with ⟨_, rfl⟩ | ⟨hr, rfl⟩
  · exact hs
  · have := hs.2
    refine ⟨by simpa [hw.1] using hs.1, ?_⟩
    simp [outRoom, hw.2] at hr ⊢
    omega

end Sys2Proof.Machine
end

