-- ==== Sys2Proof/Tests/Slice0.lean ====
section
/-! SUPPORT. The model's own tests: well-formedness, decoding of words written out from R74, one or two steps per
command with the expected result taken from 95_test_vectors.md, and a witness for the hypotheses of each statement. -/

-- One theorem at a time: elaborated side by side, these theorems' threads alone reserve more memory than a check may.
set_option Elab.async false

namespace Sys2Proof.Machine.Tests

/-! ## Helpers -/

def valued (v : Word) : State := State.reset.setVal v
def fed (bs : List Byte) : State := State.reset.setInq bs
def real (x : Word) : State := State.reset.setRval x
def paired (m : Int) (e : Int) : State := setPair m e State.reset
def ascii (width : Nat) (s : State) : State := s.setCfg (BitVec.ofNat 6 (1 + 2 * (width - 1)))
def outFullOf (s : State) : State := s.setOutq (List.replicate Config.outCap 0)
def turning (ts : List Agent) (s : State) : State := s.setEnv { s.env with turns := ts }
def acting (hs : List HostAccess) (s : State) : State := s.setEnv { s.env with host := hs }
def sourcing (bs : List Byte) (s : State) : State := s.setEnv { s.env with source := bs }
def after (r : Result) : State :=
  match r with
  | .next t => t
  | .fault _ => State.reset
  | .refused _ => State.reset
def quiet (blocking : Bool) : Transport :=
  { blocking := blocking, freeEstimate := 0, sendAnswers := [], receiveAnswers := [], wire := [], arrived := [] }

def arriving (bs : List Byte) (answers : List IoAnswer) (t : Transport) : Transport :=
  { t with arrived := bs, receiveAnswers := answers }

theorem outRoom_outFullOf (s : State) : outRoom (outFullOf s) = 0 := by simp [outRoom, outFullOf, State.setOutq]

/-! ## Well-formedness: each check refuses an ill-formed term -/

theorem test_wf_refuses_precision_64 : Instr.wf (.encr 64) = false := by decide
theorem test_wf_takes_precision_63 : Instr.wf (.encr 63) = true := by decide

/-! ## Decoding: words written out bit by bit from R74 (`[15:13]` `unb` `prec` `wsel` `op`) -/

theorem test_decode_encu_w8 : decode 0b0000000000000001 = .ok (.encu .w8) := by decide
theorem test_decode_encu_w64 : decode 0b0000000000110001 = .ok (.encu .w64) := by decide
theorem test_decode_decu_w16 : decode 0b0000000000010010 = .ok (.decu .w16) := by decide
theorem test_decode_encs_w32 : decode 0b0000000000100011 = .ok (.encs .w32) := by decide
theorem test_decode_decs_w32 : decode 0b0000000000100100 = .ok (.decs .w32) := by decide
theorem test_decode_encr_9 : decode 0b0000001001000101 = .ok (.encr 9) := by decide
theorem test_decode_encr_63 : decode 0b0000111111000101 = .ok (.encr 63) := by decide
theorem test_decode_encrU : decode 0b0001000000000101 = .ok .encrU := by decide
theorem test_decode_decr : decode 0b0000000000000110 = .ok .decr := by decide
theorem test_decode_encd : decode 0b0000000000000111 = .ok .encd := by decide
theorem test_decode_decd : decode 0b0000000000001000 = .ok .decd := by decide
theorem test_decode_hdre : decode 0b0000000000001001 = .ok .hdre := by decide
theorem test_decode_hdrd : decode 0b0000000000001010 = .ok .hdrd := by decide
theorem test_decode_srst : decode 0b0000000000001111 = .ok .srst := by decide
theorem test_decode_zero_illegal : decode 0x0000 = .error .illegal := by decide
theorem test_decode_wsel_in_encr_illegal : decode 0x0015 = .error .illegal := by decide
theorem test_decode_unb_with_prec_illegal : decode 0x1045 = .error .illegal := by decide
theorem test_decode_bit15_illegal : decode 0x8001 = .error .illegal := by decide

/-! ## One step per command (95_test_vectors.md sections 2 to 7) -/

theorem test_encu_w16_300 : (after (exec (.encu .w16) (valued 300))).outq = [0x02, 0xAC] := by decide
theorem test_encu_w8_256_range : (after (exec (.encu .w8) (valued 256))).status = 0x0006 := by decide
theorem test_decu_w16 : (after (exec (.decu .w16) (fed [0x02, 0xAC, 0x99]))).val = 300 := by decide
theorem test_decu_w8_overflow : (after (exec (.decu .w8) (fed [0x7F, 0xFF]))).status = 0x0220 := by decide
theorem test_encs_w32_min :
    (after (exec (.encs .w32) (valued 0xFFFFFFFF80000000))).outq = [0x78, 0x00, 0x00, 0x00, 0x80] := by decide
theorem test_encs_w8_minus65 : (after (exec (.encs .w8) (valued 0xFFFFFFFFFFFFFFBF))).outq = [0x7F, 0xBF] := by decide
theorem test_decs_w32_min :
    (after (exec (.decs .w32) (fed [0x78, 0x00, 0x00, 0x00, 0x80]))).val = 0xFFFFFFFF80000000 := by decide
theorem test_decs_w8_malformed : (after (exec (.decs .w8) (fed [0x00, 0x00, 0x80]))).inq = [0x80] := by decide
theorem test_encr_pi :
    (after (exec (.encr 9) (real 0x400921F9F01B866E))).outq = [0x7B, 0x13, 0x16, 0xAF] := by decide +kernel
theorem test_encr_third :
    (after (exec (.encr 9) (real 0x3FD5555555555555))).outq = [0x77, 0x01, 0x1E, 0x79, 0x06, 0xD5] := by decide +kernel
theorem test_encrU_surplus_digits :
    (after (exec .encrU (real 0x3F201F31F46ED246))).mant = 12300000000000002 := by decide +kernel
theorem test_encrU_exponent_range : (after (exec .encrU (real 0x3379B604AAACA626))).status = 0x0008 := by decide +kernel
theorem test_decr_pi : (after (exec .decr (fed [0x7B, 0x13, 0x16, 0xAF]))).rval = 0x400921F9F01B866E := by decide +kernel
theorem test_decr_1e23 : (after (exec .decr (fed [0x17, 0x81]))).rval = 0x44B52D02C7E14AF6 := by decide +kernel
theorem test_encd_100 : (after (exec .encd (paired 100 0))).outq = [0x02, 0x81] := by decide
theorem test_encd_exponent_range : (after (exec .encd (paired 1000 63))).status = 0x0008 := by decide
theorem test_decd_short_zero : (after (exec .decd (fed [0xC1]))).expo = 0xC1 := by decide
theorem test_decd_not_canonical : (after (exec .decd (fed [0x01, 0x8A]))).mant = 10 := by decide
theorem test_hdre_ascii :
    (after (exec .hdre (ascii 10 (valued 1234)))).outq = [0x31, 0x32, 0x33, 0x34, 0, 0, 0, 0, 0, 0] := by decide
theorem test_hdre_compact : (after (exec .hdre (valued 65536))).outq = [0x04, 0x00, 0x80] := by decide
theorem test_hdrd_ascii_spaces :
    (after (exec .hdrd (ascii 10 (fed [0x20, 0x20, 0x34, 0x32, 0x20, 0x20, 0, 0, 0, 0])))).val = 42 := by decide
theorem test_hdrd_ascii_bad :
    (after (exec .hdrd (ascii 4 (fed [0x31, 0x20, 0x32, 0x00, 0x99])))).status = 0x0403 := by decide
theorem test_srst : (after (exec .srst (ascii 4 (valued 7)))).cfg = 0x12 := by decide
theorem test_illegal_word : (after (hostWrite 0 0x1045 State.reset)).sticky = 0x200 := by decide
theorem test_placed_word_runs : (after (step (State.reset.withFetchWord 16 0x0031))).outq = [0x80] := by decide
theorem test_setmode_assembles : setModeA 10 = [.wr .cfg 0x13] := by decide
theorem test_program_loads : (loadProgram [.push [0x85], .cmd .hdrd, .pop 2] State.reset).env.turns =
    [.source, .host, .sink, .sink] := by decide

/-! ## Witnesses: the hypotheses of each statement are met, clause by clause -/

theorem wit_StatusFieldsReadBack : (0 : Nat) < 256 ∧ (255 : Nat) < 256 := by decide
theorem wit_HostReadsEachRegister : (State.reset).inq.length < 2 ^ 64 ∧ (State.reset).outq.length < 2 ^ 64 := by decide
theorem wit_StickyWriteOneClears : (0 : Nat) < 64 ∧ (63 : Nat) < 64 := by decide
theorem wit_ReservedIndicesDoNothing : 10 ≤ (10 : RegIdx).toNat ∧ 10 ≤ (15 : RegIdx).toNat := by decide

theorem wit_Push_room : (sourcing [0x05] State.reset).inq.length < Config.inCap ∧
    (sourcing [0x05] State.reset).env.source = 0x05 :: [] := by decide
theorem wit_Push_full : Config.inCap ≤ (sourcing [0x05] (fed (List.replicate Config.inCap 0))).inq.length ∧
    (sourcing [0x05] (fed (List.replicate Config.inCap 0))).env.source = 0x05 :: [] := by
  simp [sourcing, fed, State.setEnv, State.setInq]
theorem wit_Pop_some : (State.reset.setOutq [0x85]).outq = 0x85 :: [] := by decide
theorem wit_Pop_none : State.reset.outq = [] := by decide
theorem wit_StreamsKeepOrder_push : (State.reset).inq.length + [(0x01 : Byte), 0x02].length ≤ Config.inCap := by decide
theorem wit_StreamsKeepOrder_full :
    Config.inCap < (fed (List.replicate Config.inCap 0)).inq.length + [(0x01 : Byte)].length ∧ [(0x01 : Byte)] ≠ [] := by
  simp [fed, State.setInq]
theorem wit_StreamsKeepOrder_pop : 2 ≤ (State.reset.setOutq [1, 2]).outq.length ∧
    (State.reset.setOutq [1, 2]).outq.length < 3 := by decide

theorem wit_StepRuns_written :
    (turning [.host] (acting [.write 0 0x31] State.reset)).env.turns = .host :: [] ∧
      (turning [.host] (acting [.write 0 0x31] State.reset)).env.host = .write 0 0x31 :: [] ∧
      decode ((0x31 : Word).extractLsb' 0 16) = .ok (.encu .w64) := by decide
theorem wit_StepRuns_placed : Instr.wf (.encr 63) = true := by decide
theorem wit_StepTakes_waits : State.reset.env.turns = [] := by decide
theorem wit_StepTakes_read :
    (turning [.host] (acting [.read 4] State.reset)).env.turns = .host :: [] ∧
      (turning [.host] (acting [.read 4] State.reset)).env.host = .read 4 :: [] := by decide
theorem wit_StepTakes_write :
    (turning [.host] (acting [.write 4 7] State.reset)).env.turns = .host :: [] ∧
      (turning [.host] (acting [.write 4 7] State.reset)).env.host = .write 4 7 :: [] := by decide
theorem wit_StepTakes_idle_host :
    (turning [.host] State.reset).env.turns = .host :: [] ∧ (turning [.host] State.reset).env.host = [] := by decide
theorem wit_StepTakes_others :
    (turning [.source] State.reset).env.turns = .source :: [] ∧ (turning [.sink] State.reset).env.turns = .sink :: [] ∧
      (turning [.reset] State.reset).env.turns = .reset :: [] := by decide

theorem wit_DecodeIsTheInverse : decode 0x0FC5 = .ok (.encr 63) ∧ Instr.wf (.encr 63) = true ∧
    encode (.encr 63) = 0x0FC5 := by decide
theorem wit_LegalWords : decode 0x000F = .ok .srst ∧ (0x0FC5 : CmdWord).toNat = 0x0005 + 0x40 * 63 := by decide
theorem wit_IllegalWord : decode ((0x10000 : Word).extractLsb' 0 16) = .error .illegal ∧
    decode ((0x31 : Word).extractLsb' 0 16) = .ok (.encu .w64) := by decide
theorem wit_BoundsAgree : ¬ 7 ∣ 8 ∧ 7 ∣ 7 := by decide

theorem wit_Encu_ok : (valued 255).val.toNat < 2 ^ widthBits .w8 ∧
    (uencode (widthBytes .w8) (valued 255).val.toNat).length ≤ outRoom (valued 255) := by decide
theorem wit_Encu_range : 2 ^ widthBits .w8 ≤ (valued 256).val.toNat := by decide
theorem wit_Encu_full : (outFullOf (valued 255)).val.toNat < 2 ^ widthBits .w8 ∧
    outRoom (outFullOf (valued 255)) < (uencode (widthBytes .w8) (outFullOf (valued 255)).val.toNat).length := by
  rw [outRoom_outFullOf]; decide
theorem wit_UnsignedBytes : 2 ^ 64 - 1 < 2 ^ widthBits .w64 ∧ isField [0x00, 0x85] = true ∧
    fieldNat [0x00, 0x85] = 5 := by decide
theorem wit_Encs_ok : -2 ^ (widthBits .w8 - 1) ≤ (valued (-128)).val.toInt ∧
    (valued (-128)).val.toInt < 2 ^ (widthBits .w8 - 1) ∧
    (sencode (widthBytes .w8) (valued (-128)).val.toInt).length ≤ outRoom (valued (-128)) := by decide
theorem wit_Encs_range : (valued (-129)).val.toInt < -2 ^ (widthBits .w8 - 1) ∧
    2 ^ (widthBits .w8 - 1) ≤ (valued 128).val.toInt := by decide
theorem wit_Encs_full : -2 ^ (widthBits .w8 - 1) ≤ (outFullOf (valued 127)).val.toInt ∧
    (outFullOf (valued 127)).val.toInt < 2 ^ (widthBits .w8 - 1) ∧
    outRoom (outFullOf (valued 127)) < (sencode (widthBytes .w8) (outFullOf (valued 127)).val.toInt).length := by
  rw [outRoom_outFullOf]; decide
theorem wit_SignedBytes : ∃ t, exec (.encs .w8) (valued (-65)) = .next t ∧ t.codeField = codeNumber .ok ∧
    isField [0x7F, 0x7F, 0xBF] = true ∧ fieldInt [0x7F, 0x7F, 0xBF] = (valued (-65)).val.toInt :=
  ⟨after (exec (.encs .w8) (valued (-65))), rfl, by decide, by decide, by decide⟩
theorem wit_FillMask : -2 ^ (widthBits .w32 - 1) ≤ (-2147483648 : Int) ∧ (-2147483648 : Int) < 2 ^ (widthBits .w32 - 1) ∧
    slen (-2147483648) = sbound (widthBytes .w32) := by decide
theorem wit_Decu_field : (fed [0x01, 0xFF, 0x99]).inq = [0x01, 0xFF] ++ [0x99] ∧ isField [0x01, 0xFF] = true ∧
    [(0x01 : Byte), 0xFF].length ≤ ubound (widthBytes .w8) := by decide
theorem wit_Decu_malformed : ubound (widthBytes .w8) ≤ (fed [0, 0]).inq.length ∧
    noStop ((fed [0, 0]).inq.take (ubound (widthBytes .w8))) = true := by decide
theorem wit_Decu_underrun : (fed [0]).inq.length < ubound (widthBytes .w8) ∧ noStop (fed [0]).inq = true := by decide
theorem wit_Decs_field : (fed [0x7F, 0x80]).inq = [0x7F, 0x80] ++ [] ∧ isField [0x7F, 0x80] = true ∧
    [(0x7F : Byte), 0x80].length ≤ sbound (widthBytes .w8) := by decide
theorem wit_Decs_malformed : sbound (widthBytes .w64) ≤ (fed (List.replicate 10 0)).inq.length ∧
    noStop ((fed (List.replicate 10 0)).inq.take (sbound (widthBytes .w64))) = true := by decide
theorem wit_Decs_underrun : (fed []).inq.length < sbound (widthBytes .w64) ∧ noStop (fed []).inq = true := by decide
theorem wit_UnsignedRoundTrip : widthBits .w8 ≤ widthBits .w16 ∧ (valued 255).inq = [] ∧ (valued 255).outq = [] ∧
    (valued 255).val.toNat < 2 ^ widthBits .w8 := by decide
theorem wit_SignedRoundTrip : widthBits .w8 ≤ widthBits .w64 ∧ (valued (-128)).inq = [] ∧ (valued (-128)).outq = [] ∧
    -2 ^ (widthBits .w8 - 1) ≤ (valued (-128)).val.toInt ∧ (valued (-128)).val.toInt < 2 ^ (widthBits .w8 - 1) := by decide
theorem wit_StopBit_integer : ∃ t, exec .hdre (valued 5) = .next t ∧ t.codeField = codeNumber .ok ∧
    (valued 5).fixedAscii = false := ⟨after (exec .hdre (valued 5)), rfl, by decide, by decide⟩
theorem wit_StopBit_pair : ∃ t, exec .encd (paired 100 0) = .next t ∧ t.codeField = codeNumber .ok ∧ t.nf = false :=
  ⟨after (exec .encd (paired 100 0)), rfl, by decide, by decide⟩

theorem wit_Arithmetic_mul : isfinite fOne = true ∧ isfinite fTen = true ∧ isfinite (fmul fOne fTen) = true := by
  decide +kernel
theorem wit_Arithmetic_div : fsig fTen ≠ 0 ∧ isfinite (fdiv fOne fTen) = true := by decide +kernel
theorem wit_Arithmetic_int : -2 ^ 63 ≤ (9007199254740993 : Int) ∧ (9007199254740993 : Int) < 2 ^ 63 ∧
    isfinite (fOfInt 9007199254740993) = true := by decide +kernel
theorem wit_Arithmetic_pow : 9 ≤ 64 ∧ isfinite (pow10 64) = true := by decide +kernel
theorem wit_Truncation : isfinite 0xC004000000000000 = true := by decide
theorem wit_UnboundedSearchEnds : isfinite 0x0000000000000001 = true := by decide
theorem wit_CanonGives : -2 ^ 63 ≤ (-9223372036854775808 : Int) ∧ (-9223372036854775808 : Int) < 2 ^ 63 := by decide

theorem wit_EncrFinite_ok : searchEnds (some 9) 0x400921F9F01B866E 5 ∧
    isCanonOf (intOfF (ftrunc (tenfold 5 0x400921F9F01B866E))) (-(5 : Nat)) 314159 (-5) ∧
    isfinite (real 0x400921F9F01B866E).rval = true ∧
    -2 ^ 63 ≤ intOfF (ftrunc (tenfold 5 0x400921F9F01B866E)) ∧
    intOfF (ftrunc (tenfold 5 0x400921F9F01B866E)) < 2 ^ 63 ∧
    (pairBytes 314159 (-5)).length ≤ outRoom (real 0x400921F9F01B866E) :=
  ⟨⟨by decide +kernel, by decide, .inl (by decide +kernel)⟩,
    ⟨.inr (by decide), 0, by decide +kernel, by decide, by decide⟩,
    by decide, by decide +kernel, by decide +kernel, by decide +kernel⟩
theorem wit_EncrFinite_full :
    outRoom (outFullOf (real 0x400921F9F01B866E)) < (pairBytes 314159 (-5)).length := by
  rw [outRoom_outFullOf]; decide
theorem wit_EncrFinite_realRange : searchEnds none 0x43E0000000000000 0 ∧
    isCanonOf (intOfF (ftrunc (tenfold 0 0x43E0000000000000))) (-(0 : Nat)) 9223372036854775808 0 ∧
    2 ^ 63 ≤ intOfF (ftrunc (tenfold 0 0x43E0000000000000)) :=
  ⟨⟨by decide, by decide +kernel⟩, ⟨.inr (by decide), 0, by decide +kernel, by decide, by decide⟩, by decide +kernel⟩
theorem wit_EncrFinite_expRange : searchEnds none 0x3379B604AAACA626 76 ∧
    isCanonOf (intOfF (ftrunc (tenfold 76 0x3379B604AAACA626))) (-(76 : Nat)) 10000000000000008 (-76) ∧
    -2 ^ 63 ≤ intOfF (ftrunc (tenfold 76 0x3379B604AAACA626)) ∧
    intOfF (ftrunc (tenfold 76 0x3379B604AAACA626)) < 2 ^ 63 :=
  ⟨⟨by decide +kernel, by decide +kernel⟩, ⟨.inr (by decide), 0, by decide +kernel, by decide, by decide +kernel⟩,
    by decide +kernel, by decide +kernel⟩
theorem wit_EncrNonFinite_ok : (real 0xFFF0000000000000).rval.extractLsb' 52 11 = 0x7FF ∧
    1 ≤ outRoom (real 0xFFF0000000000000) := by decide
theorem wit_EncrNonFinite_full : outRoom (outFullOf (real 0x7FF8000000000000)) = 0 := outRoom_outFullOf _
theorem wit_PairBytes : -2 ^ 63 ≤ (-25 : Int) ∧ (-25 : Int) < 2 ^ 63 ∧ -64 ≤ (-64 : Int) ∧ (63 : Int) ≤ 63 := by decide
theorem wit_Encd_ok : isCanonOf (paired 1000 (-67)).mant.toInt (paired 1000 (-67)).expo.toInt 1 (-64) ∧
    (pairBytes 1 (-64)).length ≤ outRoom (paired 1000 (-67)) :=
  ⟨⟨.inr (by decide), 3, by decide, by decide, by decide⟩, by decide⟩
theorem wit_Encd_expRange : isCanonOf (paired 10 63).mant.toInt (paired 10 63).expo.toInt 1 64 :=
  ⟨.inr (by decide), 1, by decide, by decide, by decide⟩
theorem wit_Encd_full : isCanonOf (outFullOf (paired 0 63)).mant.toInt (outFullOf (paired 0 63)).expo.toInt 0 63 ∧
    outRoom (outFullOf (paired 0 63)) < (pairBytes 0 63).length :=
  ⟨⟨.inl rfl, 0, by decide, by decide, by decide⟩, by rw [outRoom_outFullOf]; decide⟩
theorem wit_Dec_empty : (fed []).inq = [] := by decide
theorem wit_Dec_nonFinite : (fed [0xFF, 0x81]).inq = 0xFF :: [0x81] := by decide
theorem wit_Dec_short : (fed [0xFE]).inq = 0xFE :: [] ∧ stopBit 0xFE = true ∧ (0xFE : Byte) ≠ 0xFF := by decide
theorem wit_Dec_pair : (fed [0x40, 0x81, 0x55]).inq = 0x40 :: [0x81, 0x55] ∧ stopBit 0x40 = false ∧
    [(0x81 : Byte), 0x55] = [0x81] ++ [0x55] ∧ isField [0x81] = true ∧ [(0x81 : Byte)].length ≤ 10 := by decide
theorem wit_Dec_malformed : (fed (List.replicate 11 0)).inq = 0 :: List.replicate 10 0 ∧ stopBit 0 = false ∧
    10 ≤ (List.replicate 10 (0 : Byte)).length ∧ noStop ((List.replicate 10 (0 : Byte)).take 10) = true := by decide
theorem wit_Dec_underrun : (fed (List.replicate 10 0)).inq = 0 :: List.replicate 9 0 ∧
    (List.replicate 9 (0 : Byte)).length < 10 ∧ noStop (List.replicate 9 (0 : Byte)) = true := by decide
theorem wit_DecodedReal : -64 ≤ (-64 : Int) ∧ (63 : Int) ≤ 63 ∧ (8 : Nat) < 9 := by decide
theorem wit_EncodedMantissa : ∃ t, exec .encd (paired 100 0) = .next t ∧ t.codeField = codeNumber .ok ∧ t.nf = false :=
  ⟨after (exec .encd (paired 100 0)), rfl, by decide, by decide⟩
theorem wit_PairRoundTrip : ∃ t, (paired 100 0).inq = [] ∧ (paired 100 0).outq = [] ∧
    exec .encd (paired 100 0) = .next t ∧ t.codeField = codeNumber .ok :=
  ⟨after (exec .encd (paired 100 0)), by decide, by decide, rfl, by decide⟩

theorem wit_Rendering : 2 ^ 64 - 1 < 2 ^ 64 ∧ 0 < 2 ^ 64 - 1 := by decide
theorem wit_Hdre_compact : (valued 128).fixedAscii = false ∧
    (uencode 8 (valued 128).val.toNat).length ≤ outRoom (valued 128) := by decide
theorem wit_Hdre_compact_full : (outFullOf (valued 128)).fixedAscii = false ∧
    outRoom (outFullOf (valued 128)) < (uencode 8 (outFullOf (valued 128)).val.toNat).length := by
  rw [outRoom_outFullOf]; decide
theorem wit_Hdre_range : (ascii 1 (valued 10)).fixedAscii = true ∧
    (ascii 1 (valued 10)).hwidth < (dec (ascii 1 (valued 10)).val.toNat).length := by decide
theorem wit_Hdre_ascii : (ascii 32 (valued 42)).fixedAscii = true ∧
    (dec (ascii 32 (valued 42)).val.toNat).length ≤ (ascii 32 (valued 42)).hwidth ∧
    (ascii 32 (valued 42)).hwidth ≤ outRoom (ascii 32 (valued 42)) := by decide
theorem wit_Hdre_ascii_full : (outFullOf (ascii 1 (valued 9))).fixedAscii = true ∧
    (dec (outFullOf (ascii 1 (valued 9))).val.toNat).length ≤ (outFullOf (ascii 1 (valued 9))).hwidth ∧
    outRoom (outFullOf (ascii 1 (valued 9))) < (outFullOf (ascii 1 (valued 9))).hwidth := by
  rw [outRoom_outFullOf]; decide
theorem wit_HdrdCompact_field : (fed [0x85, 0x68]).fixedAscii = false ∧ (fed [0x85, 0x68]).inq = [0x85] ++ [0x68] ∧
    isField [0x85] = true ∧ [(0x85 : Byte)].length ≤ 10 := by decide
theorem wit_HdrdCompact_long : 10 ≤ (fed (List.replicate 10 0)).inq.length ∧
    noStop ((fed (List.replicate 10 0)).inq.take 10) = true := by decide
theorem wit_HdrdCompact_underrun : (fed (List.replicate 9 0)).inq.length < 10 ∧
    noStop (fed (List.replicate 9 0)).inq = true := by decide
theorem wit_HdrdAscii_underrun : (ascii 2 (fed [0x31])).fixedAscii = true ∧
    (ascii 2 (fed [0x31])).inq.length < (ascii 2 (fed [0x31])).hwidth := by decide
theorem wit_HdrdAscii_value : (ascii 3 (fed [0x20, 0x35, 0x00, 0x99])).fixedAscii = true ∧
    (ascii 3 (fed [0x20, 0x35, 0x00, 0x99])).inq = [0x20, 0x35, 0x00] ++ [0x99] ∧
    [(0x20 : Byte), 0x35, 0x00].length = (ascii 3 (fed [0x20, 0x35, 0x00, 0x99])).hwidth ∧
    asciiShape [0x20, 0x35, 0x00] [0x20] [0x35] [0x00] ∧ spelled [0x35] < 2 ^ 64 - 1 := by
  refine ⟨by decide, by decide, by decide, ⟨by decide, by decide, by decide, by decide, by decide⟩, ?_⟩
  decide +kernel
theorem wit_HdrdAscii_limit : asciiShape (List.replicate 20 0x39) [] (List.replicate 20 0x39) [] ∧
    2 ^ 64 - 1 ≤ spelled (List.replicate 20 0x39) ∧
    (List.replicate 20 (0x39 : Byte)).length = (ascii 20 (fed (List.replicate 20 0x39))).hwidth := by
  refine ⟨⟨by decide, by decide, by decide, by decide, by decide⟩, ?_, by decide⟩
  decide +kernel
theorem wit_HdrdAscii_bad : ¬ ∃ lead digits trail, asciiShape [0x00] lead digits trail := by
  rintro ⟨lead, digits, trail, h, hd, _, hdig, _⟩
  cases digits with
  | nil => exact hd rfl
  | cons b bs =>
    have hb : b ∈ [(0x00 : Byte)] := by rw [h]; simp
    have := (hdig b (by simp)).1
    simp only [List.mem_singleton] at hb
    subst hb
    exact absurd this (by decide)
theorem wit_HeaderRoundTrip : (valued 128).inq = [] ∧ (valued 128).outq = [] ∧ (valued 128).fixedAscii = false ∧
    (ascii 3 (valued 999)).val.toNat < 10 ^ (ascii 3 (valued 999)).hwidth := by decide
theorem wit_HeaderRoundTrip_limit : (ascii 20 (valued (-1))).fixedAscii = true ∧
    (ascii 20 (valued (-1))).val.toNat = 2 ^ 64 - 1 ∧
    (ascii 20 (valued (-1))).val.toNat < 10 ^ (ascii 20 (valued (-1))).hwidth := by decide
theorem wit_HeaderBoundRejection : (fed (List.replicate 11 0)).fixedAscii = false ∧
    (fed (List.replicate 11 0)).inq.length = 11 ∧ noStop (fed (List.replicate 11 0)).inq = true := by decide

theorem wit_EveryCommandEnds : Instr.wf (.encr 63) = true := by decide
theorem wit_ErrorOutcomes : ∃ t, exec (.decu .w8) (fed [0, 0]) = .next t ∧ t.codeField ≠ codeNumber .ok :=
  ⟨after (exec (.decu .w8) (fed [0, 0])), rfl, by decide⟩
/-! ## The transport's answers to the reader (43_host_framing.md R220, R237, R245; log entries 11 and 13) -/

theorem test_read_error : (readMessage State.reset (arriving [0x81, 0x68] [.moved 1, .error] (quiet true))).outcome =
    .failed .transport := by decide
theorem test_read_blocking_short : (readMessage State.reset (arriving [0x82, 0x68] [] (quiet true))).outcome =
    .failed .shortRead := by decide
theorem test_read_nonblocking_in_part :
    (readMessage State.reset (arriving [0x82, 0x68, 0x69] [.moved 1, .moved 1] (quiet false))).outcome =
      .receivedInPart [0x68] := by decide
theorem test_read_header_resumes :
    let r := readMessage State.reset (arriving [0x01] [] (quiet false))
    r.outcome = .wouldBlock ∧ r.block.inq = [0x01] := by decide

theorem wit_RetryIsHarmless : ∃ t, exec (.decu .w8) (fed [0]) = .next t ∧ t.codeField = codeNumber .underrun :=
  ⟨after (exec (.decu .w8) (fed [0])), rfl, by decide⟩
theorem wit_RetryIsHarmless_full :
    (raised .outFull 0 (outFullOf (valued 5))).codeField = codeNumber .outFull ∧
      exec (.encu .w8) (outFullOf (valued 5)) = .next (raised .outFull 0 (outFullOf (valued 5))) := by
  refine ⟨by simp [State.codeField, raised, packStatus, codeNumber, State.setStatus], ?_⟩
  have h : outRoom (outFullOf (valued 5)) < (uencode (widthBytes .w8) (valued 5).val.toNat).length := by
    rw [outRoom_outFullOf]; decide
  exact execEncu_next.mpr (.inr ⟨by decide, emitAll_next.mpr (.inl ⟨h, rfl⟩)⟩)
theorem wit_StickyGains : (Instr.decu .w8) ≠ .srst ∧ ∃ t, exec (.decu .w8) (fed [0, 0]) = .next t :=
  ⟨by decide, after (exec (.decu .w8) (fed [0, 0])), rfl⟩
theorem wit_CommandsWriteOnly : writesVal .decr = false ∧ writesRval .decd = false ∧ writesPair .hdrd = false ∧
    isDecoder .encd = false ∧ isEncoder .hdrd = false := by decide
theorem wit_StreamAccess : isEncoder .hdre = true ∧ isDecoder .hdrd = true ∧
    (∃ t, exec .hdre (valued 5) = .next t) ∧ ∃ t, exec .hdrd (fed [0x85]) = .next t :=
  ⟨by decide, by decide, ⟨after (exec .hdre (valued 5)), rfl⟩, ⟨after (exec .hdrd (fed [0x85])), rfl⟩⟩
theorem wit_CommandsDoNotRead : ∃ t, exec .encd (paired 100 0) = .next t := ⟨after (exec .encd (paired 100 0)), rfl⟩
theorem wit_EveryStepKeeps : StateInv State.reset ∧ ∃ t, step (State.reset.withFetchWord 16 0x0031) = .next t :=
  ⟨{ statusUnused := by decide, codeLegal := by decide, flagsOnlyOnOk := by decide, countBound := by decide,
     stickyUnused := by decide, queues := ⟨by decide, by decide⟩ },
    after (step (State.reset.withFetchWord 16 0x0031)), rfl⟩
theorem wit_MessageRoundTrip : [(0x68 : Byte)].length < 2 ^ 64 ∧ State.reset.fixedAscii = false ∧
    State.reset.outq = [] ∧ State.reset.inq = [] ∧ (quiet true).blocking = true ∧ (quiet true).sendAnswers = [] ∧
    (arriving [0x81, 0x68, 0x00] [] (quiet false)).receiveAnswers = [] ∧
    (arriving [0x81, 0x68, 0x00] [] (quiet false)).arrived = [0x81] ++ [0x68] ++ [0x00] := by decide
theorem wit_WriterResumes : (quiet false).freeEstimate < [(0x68 : Byte)].length + (uencode 8 1).length ∧
    (quiet false).blocking = false ∧
    [(0x68 : Byte)].length + (uencode 8 1).length ≤
      ({ quiet false with freeEstimate := 2, sendAnswers := [.moved 1] } : Transport).freeEstimate := by decide

end Sys2Proof.Machine.Tests
end

section
/-! ## The `STATUS` word and the error bits of `STICKY` (10_state.md R30, R31; 60_exceptions.md R262) -/

namespace Sys2Proof.Machine

theorem codeNumber_le (x : Code) : codeNumber x ≤ codeNumber .illegalCmd := by
  cases x <;> decide

/-- The layout of R30 as a sum of disjoint fields. -/
theorem packStatus_toNat (x : Code) (nf ovl : Bool) (c : Nat) :
    (packStatus x nf ovl c).toNat = 2 ^ 8 * (c % 2 ^ 8) + (codeNumber x + 2 ^ 4 * nf.toNat + 2 ^ 5 * ovl.toNat) := by
  have hx : codeNumber x ≤ 9 := codeNumber_le x
  rw [packStatus, BitVec.toNat_ofNat]
  cases nf <;> cases ovl <;> simp <;> omega

section
variable {s : State} {x : Code} {nf ovl : Bool} {c : Nat}

theorem codeField_of_status (h : s.status = packStatus x nf ovl c) : s.codeField = codeNumber x := by
  have hx : codeNumber x ≤ 9 := codeNumber_le x
  rw [State.codeField, h, BitVec.extractLsb'_toNat, packStatus_toNat, Nat.shiftRight_eq_div_pow]
  omega

theorem nf_of_status (h : s.status = packStatus x nf ovl c) : s.nf = nf := by
  have hx : codeNumber x ≤ 9 := codeNumber_le x
  rw [State.nf, h, ← BitVec.testBit_toNat, packStatus_toNat, Nat.testBit_eq_decide_div_mod_eq]
  cases nf <;> simp <;> omega

theorem ovl_of_status (h : s.status = packStatus x nf ovl c) : s.ovl = ovl := by
  have hx : codeNumber x ≤ 9 := codeNumber_le x
  have hnf := nf.toNat_le
  rw [State.ovl, h, ← BitVec.testBit_toNat, packStatus_toNat, Nat.testBit_eq_decide_div_mod_eq]
  cases ovl <;> simp <;> omega

theorem cnt_of_status (h : s.status = packStatus x nf ovl c) : s.cnt = c % 2 ^ 8 := by
  have hx : codeNumber x ≤ 9 := codeNumber_le x
  have hnf := nf.toNat_le
  have hovl := ovl.toNat_le
  rw [State.cnt, h, BitVec.extractLsb'_toNat, packStatus_toNat, Nat.shiftRight_eq_div_pow]
  omega

end

/-- Every bit that `statusMask` leaves out lies between the flags and `CNT` or above `CNT`. -/
theorem unused_of_not_statusMask :
    ∀ j < 64, (~~~statusMask).getLsbD j = true → (6 ≤ j ∧ j < 8) ∨ 16 ≤ j := by
  decide

theorem packStatus_unused (x : Code) (nf ovl : Bool) (c : Nat) : packStatus x nf ovl c &&& ~~~statusMask = 0 := by
  have hx : codeNumber x ≤ 9 := codeNumber_le x
  have hnf := nf.toNat_le
  have hovl := ovl.toNat_le
  refine BitVec.eq_of_getLsbD_eq fun j hj => ?_
  rw [BitVec.getLsbD_and, ← BitVec.testBit_toNat (packStatus x nf ovl c), packStatus_toNat,
    Nat.testBit_two_pow_mul_add _ (by omega)]
  cases hmask : (~~~statusMask).getLsbD j with
  | false => simp
  | true =>
    rcases unused_of_not_statusMask j hj hmask with ⟨h6, h8⟩ | h16
    · have hlow : codeNumber x + 2 ^ 4 * nf.toNat + 2 ^ 5 * ovl.toNat < 2 ^ j :=
        Nat.lt_of_lt_of_le (m := 2 ^ 6) (by omega) (Nat.pow_le_pow_right (by decide) h6)
      rw [if_pos h8, Nat.testBit_lt_two_pow hlow]
      simp
    · have hcnt : c % 2 ^ 8 < 2 ^ (j - 8) :=
        Nat.lt_of_lt_of_le (Nat.mod_lt _ (by decide)) (Nat.pow_le_pow_right (by decide) (by omega))
      rw [if_neg (by omega), Nat.testBit_lt_two_pow hcnt]
      simp

/-- The bit of `STICKY` that belongs to a code number: codes 1, 2, 3, 6, 7, 8 and 9 have one (R31). -/
def errorBit (n : Nat) : Word := if n ∈ [1, 2, 3, 6, 7, 8, 9] then BitVec.ofNat 64 (2 ^ n) else 0

theorem stickyBits_eq_errorBit (x : Code) : stickyBits x = errorBit (codeNumber x) := by
  cases x <;> rfl

@[simp] theorem errorBit_ok : errorBit (codeNumber .ok) = 0 := rfl

theorem stickyBits_unused (x : Code) : stickyBits x &&& ~~~stickyMask = 0 := by
  cases x <;> decide

/-! ### What the two ways to end a command leave in `STATUS` -/

section
variable (x : Code) (nf ovl : Bool) (c : Nat) (s : State)
@[simp] theorem raised_codeField : (raised x c s).codeField = codeNumber x := codeField_of_status rfl
@[simp] theorem raised_nf : (raised x c s).nf = false := nf_of_status rfl
@[simp] theorem raised_ovl : (raised x c s).ovl = false := ovl_of_status rfl
@[simp] theorem raised_cnt : (raised x c s).cnt = c % 2 ^ 8 := cnt_of_status rfl
@[simp] theorem finished_codeField : (finished nf ovl c s).codeField = codeNumber .ok := codeField_of_status rfl
@[simp] theorem finished_nf : (finished nf ovl c s).nf = nf := nf_of_status rfl
@[simp] theorem finished_ovl : (finished nf ovl c s).ovl = ovl := ovl_of_status rfl
@[simp] theorem finished_cnt : (finished nf ovl c s).cnt = c % 2 ^ 8 := cnt_of_status rfl
end

/-- Settles O3: each field of `STATUS` is read back from the sum the fields are written as. -/
theorem statusFieldsReadBack : Obligations.StatusFieldsReadBack := by
  intro x nf ovl c s hc
  exact ⟨codeField_of_status rfl, nf_of_status rfl, ovl_of_status rfl,
    (cnt_of_status rfl).trans (Nat.mod_eq_of_lt hc), packStatus_unused x nf ovl c⟩

end Sys2Proof.Machine
end

section
/-! ## What a command can do (10_state.md R35; 20_memory.md R57, R58; 60_exceptions.md R262) -/

namespace Sys2Proof.Machine

/-- The outcomes that take bytes from `IN` (60_exceptions.md R262). -/
def consumes : Code → Bool
  | .malformedVarint | .headerTooLong | .badHeader => true
  | .ok | .underrun | .outFull | .encodeRange | .realRange | .expRange | .illegalCmd => false

/-- A count that a command can report for bytes a queue holds: from 1 to 32 (10_state.md R30). -/
def countFits (n available : Nat) : Prop := 1 ≤ n ∧ n ≤ 32 ∧ n ≤ available

/-- `u` is `s` with no register changed but the data registers that `i` writes (10_state.md R35). -/
structure WritesData (i : Instr) (s u : State) : Prop where
  val : writesVal i = false → u.val = s.val
  rval : writesRval i = false → u.rval = s.rval
  pair : writesPair i = false → u.mant = s.mant ∧ u.expo = s.expo
  cfg : u.cfg = s.cfg
  sticky : u.sticky = s.sticky
  inq : u.inq = s.inq
  outq : u.outq = s.outq
  env : u.env = s.env

/-- The ways a command other than `SRST` can end. -/
inductive CommandEnds (i : Instr) (s : State) : State → Prop
  /-- An error that takes no byte. -/
  | held {x : Code} (hx : x ≠ .ok) (hcons : consumes x = false) (hdec : isDecoder i = true → x = .underrun) :
      CommandEnds i s (raised x 0 s)
  /-- A decode command refuses bytes and takes them. -/
  | refused {x : Code} {n : Nat} (hi : isDecoder i = true) (hcons : consumes x = true)
      (hn : countFits n s.inq.length) : CommandEnds i s (raised x n (inDrop n s))
  /-- A decode command ends `OK`. -/
  | decoded {nf ovl : Bool} {n : Nat} {u : State} (hi : isDecoder i = true) (hn : countFits n s.inq.length)
      (hu : WritesData i s u) : CommandEnds i s (finished nf ovl n (inDrop n u))
  /-- An encode command ends `OK`. -/
  | emitted {nf : Bool} {bs : List Byte} {u : State} (hi : isEncoder i = true)
      (hn : countFits bs.length (outRoom s)) (hu : WritesData i s u) :
      CommandEnds i s (finished nf false bs.length (outAppend bs u))

section
variable {i : Instr} {s : State}

theorem WritesData.refl : WritesData i s s :=
  ⟨fun _ => rfl, fun _ => rfl, fun _ => ⟨rfl, rfl⟩, rfl, rfl, rfl, rfl, rfl⟩

theorem WritesData.setVal {u : State} (hu : WritesData i s u) (hi : writesVal i = true) (v : Word) :
    WritesData i s (u.setVal v) :=
  { hu with val := by simp [hi] }

theorem WritesData.setRval {u : State} (hu : WritesData i s u) (hi : writesRval i = true) (v : Word) :
    WritesData i s (u.setRval v) :=
  { hu with rval := by simp [hi] }

theorem WritesData.setPair {u : State} (hu : WritesData i s u) (hi : writesPair i = true) (m e : Int) :
    WritesData i s (setPair m e u) :=
  { hu with pair := by simp [hi] }

end

/-! ### How long an encoding is -/

theorem uencode_length (n v : Nat) (hn : 1 ≤ n) :
    1 ≤ (uencode n v).length ∧ (uencode n v).length ≤ ubound n := by
  have := ulen_pos v
  simp only [uencode, fieldBytes_length, ubound]
  omega

theorem sencode_length (n : Nat) (v : Int) : 1 ≤ (sencode n v).length ∧ (sencode n v).length ≤ sbound n := by
  have := slen_pos v
  simp only [sencode, fieldBytes_length, sbound]
  omega

theorem pairBytes_length (m e : Int) : 1 ≤ (pairBytes m e).length ∧ (pairBytes m e).length ≤ 11 := by
  have h := (sencode_length (Config.mantW / 8) m).2
  have hb : sbound (Config.mantW / 8) = 10 := by decide
  rw [pairBytes, List.length_cons]
  omega

theorem asciiHeader_length {w : Nat} {ds : List Byte} (h : ds.length ≤ w) : (asciiHeader w ds).length = w := by
  simp [asciiHeader]
  omega

theorem hwidth_bounds (s : State) : 1 ≤ s.hwidth ∧ s.hwidth ≤ 32 := by
  have := (s.cfg.extractLsb' 1 5).isLt
  unfold State.hwidth
  omega

theorem ubound_widthBytes (w : Width) : 1 ≤ ubound (widthBytes w) ∧ ubound (widthBytes w) ≤ 10 := by
  cases w <;> decide

theorem sbound_widthBytes (w : Width) : 1 ≤ sbound (widthBytes w) ∧ sbound (widthBytes w) ≤ 10 := by
  cases w <;> decide

theorem widthBytes_pos (w : Width) : 1 ≤ widthBytes w := by
  cases w <;> decide

/-! ### How many bytes parsing a real looks at (41_real.md R163) -/

theorem parseReal_malformed_length {q : List Byte} (h : parseReal q = .malformed) : 11 ≤ q.length := by
  unfold parseReal at h
  split at h
  · cases h
  · split at h
    · cases h
    · split at h
      · cases h
      · split at h
        · cases h
        · rename_i hscan
          exact (scan_malformed_iff.mp hscan).1
        · cases h

theorem parseReal_pair_count {q : List Byte} {m e : Int} {c : Nat} {o : Bool} (h : parseReal q = .pair m e c o) :
    1 ≤ c ∧ c ≤ 11 ∧ c ≤ q.length := by
  unfold parseReal at h
  split at h
  · cases h
  · split at h
    · cases h
    · split at h
      · cases h
      · split at h
        · cases h
        · cases h
        · rename_i n hscan
          have hn := scan_found_le hscan
          have hb : sbound (Config.mantW / 8) = 10 := by decide
          simp only [Parse.pair.injEq] at h
          omega

theorem one_le_length_of_parseReal {q : List Byte} (h : parseReal q ≠ .underrun) : 1 ≤ q.length := by
  cases q with
  | nil => exact absurd rfl h
  | cons b rest => simp

/-! ### The shared operations and the commands -/

section
variable {i : Instr} {s t : State}

theorem emitAll_ends {bs : List Byte} {nf : Bool} {writes : State → State} (hi : isEncoder i = true)
    (hd : isDecoder i = false) (hbs : 1 ≤ bs.length ∧ bs.length ≤ 32) (hw : WritesData i s (writes s))
    (h : emitAll bs nf writes s = .next t) : CommandEnds i s t := by
  rcases emitAll_next.mp h with ⟨_, rfl⟩ | ⟨hroom, rfl⟩
  · exact .held (by decide) rfl (by simp [hd])
  · exact .emitted hi ⟨hbs.1, hbs.2, hroom⟩ hw

theorem decodeUnsigned_ends {W M : Nat} {bad : Code} (hi : isDecoder i = true) (hv : writesVal i = true)
    (hbad : consumes bad = true) (hM : 1 ≤ M ∧ M ≤ 10) (h : decodeUnsigned W M bad s = .next t) :
    CommandEnds i s t := by
  rcases decodeUnsigned_next.mp h with ⟨_, rfl⟩ | ⟨hscan, rfl⟩ | ⟨n, hscan, rfl⟩
  · exact .held (by decide) rfl fun _ => rfl
  · have hlen := (scan_malformed_iff.mp hscan).1
    exact .refused hi hbad ⟨hM.1, by omega, by omega⟩
  · have hn := scan_found_le hscan
    exact .decoded hi ⟨hn.1, by omega, by omega⟩ (WritesData.refl.setVal hv _)

theorem decodeSigned_ends {W M : Nat} (hi : isDecoder i = true) (hv : writesVal i = true) (hM : 1 ≤ M ∧ M ≤ 10)
    (h : decodeSigned W M s = .next t) : CommandEnds i s t := by
  rcases decodeSigned_next.mp h with ⟨_, rfl⟩ | ⟨hscan, rfl⟩ | ⟨n, hscan, rfl⟩
  · exact .held (by decide) rfl fun _ => rfl
  · have hlen := (scan_malformed_iff.mp hscan).1
    exact .refused hi rfl ⟨hM.1, by omega, by omega⟩
  · have hn := scan_found_le hscan
    exact .decoded hi ⟨hn.1, by omega, by omega⟩ (WritesData.refl.setVal hv _)

theorem emitPair_ends {m e : Int} (hi : isEncoder i = true) (hd : isDecoder i = false) (hp : writesPair i = true)
    (h : emitPair m e s = .next t) : CommandEnds i s t := by
  rcases emitPair_next.mp h with ⟨_, rfl⟩ | ⟨_, hemit⟩
  · exact .held (by decide) rfl (by simp [hd])
  · have hlen := pairBytes_length (canon m e).1 (canon m e).2
    exact emitAll_ends hi hd ⟨hlen.1, by omega⟩ (WritesData.refl.setPair hp _ _) hemit

theorem encodeReal_ends {limit : Nat} (hi : isEncoder i = true) (hd : isDecoder i = false)
    (hp : writesPair i = true) (h : encodeReal limit s = .next t) : CommandEnds i s t := by
  rcases encodeReal_next.mp h with ⟨_, hemit⟩ | ⟨_, _, rfl⟩ | ⟨_, _, hemit⟩
  · exact emitAll_ends hi hd (by simp) .refl hemit
  · exact .held (by decide) rfl (by simp [hd])
  · exact emitPair_ends hi hd hp hemit

theorem execEncu_ends {w : Width} (h : execEncu w s = .next t) : CommandEnds (.encu w) s t := by
  rcases execEncu_next.mp h with ⟨_, rfl⟩ | ⟨_, hemit⟩
  · exact .held (by decide) rfl (by simp [isDecoder])
  · have hlen := uencode_length (widthBytes w) s.val.toNat (widthBytes_pos w)
    have hb := (ubound_widthBytes w).2
    exact emitAll_ends rfl rfl ⟨hlen.1, by omega⟩ .refl hemit

theorem execEncs_ends {w : Width} (h : execEncs w s = .next t) : CommandEnds (.encs w) s t := by
  rcases execEncs_next.mp h with ⟨_, rfl⟩ | ⟨_, hemit⟩
  · exact .held (by decide) rfl (by simp [isDecoder])
  · have hlen := sencode_length (widthBytes w) s.val.toInt
    have hb := (sbound_widthBytes w).2
    exact emitAll_ends rfl rfl ⟨hlen.1, by omega⟩ .refl hemit

theorem execDecr_ends (h : execDecr s = .next t) : CommandEnds .decr s t := by
  rcases execDecr_next.mp h with ⟨_, rfl⟩ | ⟨hp, rfl⟩ | ⟨hp, rfl⟩ | ⟨e, hp, rfl⟩ | ⟨m, e, c, o, hp, rfl⟩
  · exact .held (by decide) rfl fun _ => rfl
  · exact .refused rfl rfl ⟨by decide, by decide, parseReal_malformed_length hp⟩
  · exact .decoded rfl ⟨by decide, by decide, one_le_length_of_parseReal (by simp [hp])⟩
      (WritesData.refl.setRval rfl _)
  · exact .decoded rfl ⟨by decide, by decide, one_le_length_of_parseReal (by simp [hp])⟩
      ((WritesData.refl.setRval rfl _).setPair rfl _ _)
  · obtain ⟨hpos, hmax, hlen⟩ := parseReal_pair_count hp
    exact .decoded rfl ⟨hpos, by omega, hlen⟩ ((WritesData.refl.setRval rfl _).setPair rfl _ _)

theorem execDecd_ends (h : execDecd s = .next t) : CommandEnds .decd s t := by
  rcases execDecd_next.mp h with ⟨_, rfl⟩ | ⟨hp, rfl⟩ | ⟨hp, rfl⟩ | ⟨e, hp, rfl⟩ | ⟨m, e, c, o, hp, rfl⟩
  · exact .held (by decide) rfl fun _ => rfl
  · exact .refused rfl rfl ⟨by decide, by decide, parseReal_malformed_length hp⟩
  · exact .decoded rfl ⟨by decide, by decide, one_le_length_of_parseReal (by simp [hp])⟩ .refl
  · exact .decoded rfl ⟨by decide, by decide, one_le_length_of_parseReal (by simp [hp])⟩
      (WritesData.refl.setPair rfl _ _)
  · obtain ⟨hpos, hmax, hlen⟩ := parseReal_pair_count hp
    exact .decoded rfl ⟨hpos, by omega, hlen⟩ (WritesData.refl.setPair rfl _ _)

theorem execHdre_ends (h : execHdre s = .next t) : CommandEnds .hdre s t := by
  rcases execHdre_next.mp h with ⟨_, hemit⟩ | ⟨_, _, rfl⟩ | ⟨_, hdigits, hemit⟩
  · have hlen := uencode_length Config.sizeN s.val.toNat (by decide)
    have hb : ubound Config.sizeN = 10 := by decide
    exact emitAll_ends rfl rfl ⟨hlen.1, by omega⟩ .refl hemit
  · exact .held (by decide) rfl (by simp [isDecoder])
  · exact emitAll_ends rfl rfl (by simpa only [asciiHeader_length hdigits] using hwidth_bounds s) .refl hemit

theorem execHdrd_ends (h : execHdrd s = .next t) : CommandEnds .hdrd s t := by
  have hw := hwidth_bounds s
  rcases execHdrd_next.mp h with ⟨_, hdecode⟩ | ⟨_, _, rfl⟩ | ⟨_, hlen, ⟨_, rfl⟩ | ⟨l, _, _, rfl⟩⟩
  · exact decodeUnsigned_ends rfl rfl rfl (by decide) hdecode
  · exact .held (by decide) rfl fun _ => rfl
  · exact .refused rfl rfl ⟨hw.1, hw.2, hlen⟩
  · exact .decoded rfl ⟨hw.1, hw.2, hlen⟩ (WritesData.refl.setVal rfl _)

/-- Every command but `SRST` ends in one of the four ways. -/
theorem exec_ends (hi : i ≠ .srst) (h : exec i s = .next t) : CommandEnds i s t := by
  cases i with
  | encu w => exact execEncu_ends h
  | decu w => exact decodeUnsigned_ends rfl rfl rfl (ubound_widthBytes w) h
  | encs w => exact execEncs_ends h
  | decs w => exact decodeSigned_ends rfl rfl (sbound_widthBytes w) h
  | encr p => exact encodeReal_ends rfl rfl rfl h
  | encrU => exact encodeReal_ends rfl rfl rfl h
  | decr => exact execDecr_ends h
  | encd => exact emitPair_ends rfl rfl rfl h
  | decd => exact execDecd_ends h
  | hdre => exact execHdre_ends h
  | hdrd => exact execHdrd_ends h
  | srst => exact absurd rfl hi

end

/-- Settles O51: an error end adds its own bit, an `OK` end adds none. -/
theorem stickyGainsTheErrorBit : Obligations.StickyGainsTheErrorBit := by
  intro i s t hi h
  have hbit : t.sticky = s.sticky ||| errorBit t.codeField := by
    cases exec_ends hi h with
    | held => simp [stickyBits_eq_errorBit]
    | refused => simp [stickyBits_eq_errorBit]
    | decoded _ _ hu => simp [hu.sticky]
    | emitted _ _ hu => simp [hu.sticky]
  rw [hbit, errorBit]
  split <;> simp

/-- Settles O52, from the four ways a command can end. -/
theorem commandsWriteOnlyTheirRegisters : Obligations.CommandsWriteOnlyTheirRegisters := by
  intro i s t hi h
  cases exec_ends hi h with
  | held => simp
  | refused hdec => simp [hdec]
  | decoded hdec _ hu => simpa [hdec, hu.outq, hu.cfg, hu.env] using ⟨hu.val, hu.rval, hu.pair⟩
  | emitted henc _ hu => simpa [henc, hu.inq, hu.cfg, hu.env] using ⟨hu.val, hu.rval, hu.pair⟩

end Sys2Proof.Machine
end

section
/-! ## The register interface and the turns (10_state.md R22 to R35; 20_memory.md R53, R54, R60, R62) -/

namespace Sys2Proof.Machine

section
variable (d : Word) (s : State)
theorem hostWrite_cmd : hostWrite 0 d s = issue (d.extractLsb' 0 16) s := rfl
theorem hostWrite_sticky : hostWrite 2 d s = .next (s.setSticky (s.sticky &&& ~~~d)) := rfl
theorem hostWrite_cfg : hostWrite 3 d s = .next (s.setCfg (d.extractLsb' 0 6)) := rfl
theorem hostWrite_expo : hostWrite 7 d s = .next (s.setExpo (d.extractLsb' 0 8)) := rfl
end

theorem regOf_reserved {i : RegIdx} (h : 10 ≤ i.toNat) : regOf i = .reserved := by
  have all : ∀ i : RegIdx, 10 ≤ i.toNat → regOf i = .reserved := by decide
  exact all i h

theorem issue_of_decode {c : CmdWord} {i : Instr} (h : decode c = .ok i) (s : State) : issue c s = exec i s := by
  simp [issue, h]

/-- Issuing a word runs the command it decodes to, or ends `IllegalCmd` (60_exceptions.md R270). -/
theorem issue_next {c : CmdWord} {s t : State} :
    issue c s = .next t ↔
      (∃ i, decode c = .ok i ∧ exec i s = .next t) ∨
        (decode c = .error .illegal ∧ t = raised .illegalCmd 0 s) := by
  unfold issue
  cases h : decode c with
  | ok i => simp
  | error e => cases e; simp

/-- What a host write can do, as far as `STATUS`, `STICKY` and the queues show it. -/
theorem hostWrite_next {i : RegIdx} {d : Word} {s t : State} (h : hostWrite i d s = .next t) :
    issue (d.extractLsb' 0 16) s = .next t ∨
      t = s.setSticky (s.sticky &&& ~~~d) ∨
      (t.status = s.status ∧ t.sticky = s.sticky ∧ t.inq = s.inq ∧ t.outq = s.outq) := by
  unfold hostWrite at h
  cases hr : regOf i <;> simp only [hr, Host.Outcome.next.injEq] at h
  case cmd => exact .inl h
  case sticky => exact .inr (.inl h.symm)
  all_goals exact .inr (.inr (by simp [← h]))

theorem sourceTurn_next {s t : State} (h : sourceTurn s = .next t) :
    t = s ∨ ∃ b rest u, push b s = some u ∧ t = u.setEnv { u.env with source := rest } := by
  unfold sourceTurn at h
  split at h
  · simp_all
  · split at h
    · exact .inr ⟨_, _, _, ‹_›, by simpa using h.symm⟩
    · simp_all

theorem sinkTurn_next {s t : State} (h : sinkTurn s = .next t) :
    t = s ∨ ∃ b u, pop s = some (b, u) ∧ t = u.setEnv { u.env with sunk := u.env.sunk ++ [b] } := by
  unfold sinkTurn at h
  split at h
  · exact .inr ⟨_, _, ‹_›, by simpa using h.symm⟩
  · simp_all

theorem hostTurn_next {s t : State} (h : hostTurn s = .next t) :
    (∃ e, t = s.setEnv e) ∨ ∃ i d e, hostWrite i d (s.setEnv e) = .next t := by
  unfold hostTurn at h
  split at h
  · exact .inl ⟨s.env, (Host.Outcome.next.inj h).symm⟩
  · exact .inl ⟨_, by simpa using h.symm⟩
  · exact .inr ⟨_, _, _, h⟩

theorem step_next {s t : State} (h : step s = .next t) :
    t = s ∨ ∃ a e, agentTurn a (s.setEnv e) = .next t := by
  unfold step nextAction at h
  split at h
  · simp_all
  · exact .inr ⟨_, _, h⟩

@[simp] theorem State.setEnv_setEnv (s : State) (e f : Env) : (s.setEnv e).setEnv f = s.setEnv f := rfl

/-- When the host's turn is a write, the step is that write with the turn and the access taken out. -/
theorem step_of_hostWrite {s : State} {i : RegIdx} {d : Word} {ts : List Agent} {hs : List HostAccess}
    (hturn : s.env.turns = .host :: ts) (hacc : s.env.host = .write i d :: hs) :
    step s = hostWrite i d (s.setEnv { s.env with turns := ts, host := hs }) := by
  simp [step, nextAction, hturn, agentTurn, hostTurn, hacc]

end Sys2Proof.Machine
end

section
/-! ## The invariant (10_state.md R30, R31, R36, R37; 60_exceptions.md R262) -/

namespace Sys2Proof.Machine

/-- The invariant speaks of `STATUS`, `STICKY` and the queues alone. -/
theorem StateInv.congr {s t : State} (hs : StateInv s) (hstatus : t.status = s.status)
    (hsticky : t.sticky = s.sticky) (hq : queuesFit t) : StateInv t := by
  have hcode : t.codeField = s.codeField := by simp only [State.codeField, hstatus]
  have hnf : t.nf = s.nf := by simp only [State.nf, hstatus]
  have hovl : t.ovl = s.ovl := by simp only [State.ovl, hstatus]
  have hcnt : t.cnt = s.cnt := by simp only [State.cnt, hstatus]
  exact
    { statusUnused := hstatus ▸ hs.statusUnused
      codeLegal := hcode ▸ hs.codeLegal
      flagsOnlyOnOk := by rw [hcode, hnf, hovl]; exact hs.flagsOnlyOnOk
      countBound := hcnt ▸ hs.countBound
      stickyUnused := hsticky ▸ hs.stickyUnused
      queues := hq }

theorem StateInv.setEnv {s : State} (hs : StateInv s) (e : Env) : StateInv (s.setEnv e) :=
  hs.congr rfl rfl hs.queues

theorem StateInv.setSticky {s : State} (hs : StateInv s) {v : Word} (hv : v &&& ~~~stickyMask = 0) :
    StateInv (s.setSticky v) :=
  { hs with stickyUnused := hv }

theorem StateInv.setInq {s : State} (hs : StateInv s) {q : List Byte} (hq : queuesFit (s.setInq q)) :
    StateInv (s.setInq q) :=
  { hs with queues := hq }

theorem StateInv.setOutq {s : State} (hs : StateInv s) {q : List Byte} (hq : queuesFit (s.setOutq q)) :
    StateInv (s.setOutq q) :=
  { hs with queues := hq }

theorem stateInv_raised {x : Code} {c : Nat} {s : State} (hc : c ≤ 32) (hsticky : s.sticky &&& ~~~stickyMask = 0)
    (hq : queuesFit s) : StateInv (raised x c s) where
  statusUnused := packStatus_unused x false false c
  codeLegal := by rw [raised_codeField]; exact codeNumber_le x
  flagsOnlyOnOk _ := ⟨raised_nf x c s, raised_ovl x c s⟩
  countBound := by rw [raised_cnt]; omega
  stickyUnused := by
    rw [raised_sticky, BitVec.and_or_distrib_right, hsticky, stickyBits_unused]
    exact BitVec.zero_or
  queues := hq

theorem stateInv_finished {nf ovl : Bool} {c : Nat} {s : State} (hc : c ≤ 32)
    (hsticky : s.sticky &&& ~~~stickyMask = 0) (hq : queuesFit s) : StateInv (finished nf ovl c s) where
  statusUnused := packStatus_unused .ok nf ovl c
  codeLegal := by rw [finished_codeField]; exact codeNumber_le .ok
  flagsOnlyOnOk h := absurd (finished_codeField nf ovl c s) h
  countBound := by rw [finished_cnt]; omega
  stickyUnused := hsticky
  queues := hq

/-- Settles O55. -/
theorem invariantHoldsAtReset : Obligations.InvariantHoldsAtReset :=
  { statusUnused := by decide
    codeLegal := by decide
    flagsOnlyOnOk := by decide
    countBound := by decide
    stickyUnused := by decide
    queues := queuesFit_reset }

theorem resetBlock_keepsInv (s : State) : StateInv (resetBlock s) := StateInv.setEnv invariantHoldsAtReset s.env

section
variable {i : Instr} {s t u : State}

theorem WritesData.queuesFit (hu : WritesData i s u) (hs : queuesFit s) : queuesFit u := by
  rw [Machine.queuesFit, hu.inq, hu.outq]
  exact hs

theorem WritesData.outRoom (hu : WritesData i s u) : outRoom u = outRoom s := by
  rw [Machine.outRoom, hu.outq, Machine.outRoom]

theorem CommandEnds.keepsInv (h : CommandEnds i s t) (hs : StateInv s) : StateInv t := by
  cases h with
  | held => exact stateInv_raised (by decide) hs.stickyUnused hs.queues
  | refused _ _ hn => exact stateInv_raised hn.2.1 hs.stickyUnused (inDrop_queuesFit hs.queues)
  | decoded _ hn hu =>
    exact stateInv_finished hn.2.1 (hu.sticky ▸ hs.stickyUnused) (inDrop_queuesFit (hu.queuesFit hs.queues))
  | emitted _ hn hu =>
    obtain ⟨_, hmax, hroom⟩ := hn
    exact stateInv_finished hmax (hu.sticky ▸ hs.stickyUnused)
      (outAppend_queuesFit (hu.queuesFit hs.queues) (hu.outRoom ▸ hroom))

theorem exec_keepsInv (hs : StateInv s) (h : exec i s = .next t) : StateInv t := by
  by_cases hi : i = .srst
  · subst hi
    rw [execSrst_next.mp h]
    exact resetBlock_keepsInv s
  · exact (exec_ends hi h).keepsInv hs

theorem issue_keepsInv {c : CmdWord} (hs : StateInv s) (h : issue c s = .next t) : StateInv t := by
  rcases issue_next.mp h with ⟨i, _, hexec⟩ | ⟨_, rfl⟩
  · exact exec_keepsInv hs hexec
  · exact stateInv_raised (by decide) hs.stickyUnused hs.queues

theorem hostWrite_keepsInv {i : RegIdx} {d : Word} (hs : StateInv s) (h : hostWrite i d s = .next t) :
    StateInv t := by
  rcases hostWrite_next h with hissue | rfl | ⟨hstatus, hsticky, hinq, houtq⟩
  · exact issue_keepsInv hs hissue
  · refine hs.setSticky ?_
    rw [BitVec.and_assoc, BitVec.and_comm (~~~d), ← BitVec.and_assoc, hs.stickyUnused]
    exact BitVec.zero_and
  · exact hs.congr hstatus hsticky (by rw [queuesFit, hinq, houtq]; exact hs.queues)

theorem hostTurn_keepsInv (hs : StateInv s) (h : hostTurn s = .next t) : StateInv t := by
  rcases hostTurn_next h with ⟨e, rfl⟩ | ⟨i, d, e, hwrite⟩
  · exact hs.setEnv e
  · exact hostWrite_keepsInv (hs.setEnv e) hwrite

theorem sourceTurn_keepsInv (hs : StateInv s) (h : sourceTurn s = .next t) : StateInv t := by
  rcases sourceTurn_next h with rfl | ⟨b, rest, u, hpush, rfl⟩
  · exact hs
  · have hq := push_queuesFit hpush hs.queues
    obtain ⟨_, rfl⟩ := push_some hpush
    exact (hs.setInq hq).setEnv _

theorem sinkTurn_keepsInv (hs : StateInv s) (h : sinkTurn s = .next t) : StateInv t := by
  rcases sinkTurn_next h with rfl | ⟨b, u, hpop, rfl⟩
  · exact hs
  · have hq := pop_queuesFit hpop hs.queues
    obtain ⟨_, _, rfl⟩ := pop_some hpop
    exact (hs.setOutq hq).setEnv _

theorem agentTurn_keepsInv {a : Agent} (hs : StateInv s) (h : agentTurn a s = .next t) : StateInv t := by
  cases a with
  | host => exact hostTurn_keepsInv hs h
  | source => exact sourceTurn_keepsInv hs h
  | sink => exact sinkTurn_keepsInv hs h
  | reset =>
    obtain rfl : resetBlock s = t := by simpa [agentTurn] using h
    exact resetBlock_keepsInv s

end

/-- Settles O56: a step is a wait or one agent's turn, and each turn keeps the invariant. -/
theorem everyStepKeepsTheInvariant : Obligations.EveryStepKeepsTheInvariant := by
  intro s t hs h
  rcases step_next h with rfl | ⟨a, e, hturn⟩
  · exact hs
  · exact agentTurn_keepsInv (hs.setEnv e) hturn

end Sys2Proof.Machine
end

section
/-! ## No command reads `STATUS` or `STICKY` (10_state.md R28, R31) -/

namespace Sys2Proof.Machine

/-- `s` with other contents put into `STATUS` and `STICKY`. -/
def overlay (x y : Word) (s : State) : State := { s with status := x, sticky := y }

/-- A command's next state as it would be had `STICKY` been `y` before. -/
def rebased (y : Word) (t : State) : State := t.setSticky (y ||| errorBit t.codeField)

/-- A command's answer as it would be had `STICKY` been `y` before. -/
def rebasedResult (y : Word) : Result → Result
  | .next t => .next (rebased y t)
  | .fault r => .fault r
  | .refused r => .refused r

section
variable (x y : Word) (s : State)

@[simp] theorem overlay_val : (overlay x y s).val = s.val := rfl
@[simp] theorem overlay_rval : (overlay x y s).rval = s.rval := rfl
@[simp] theorem overlay_mant : (overlay x y s).mant = s.mant := rfl
@[simp] theorem overlay_expo : (overlay x y s).expo = s.expo := rfl
@[simp] theorem overlay_inq : (overlay x y s).inq = s.inq := rfl
@[simp] theorem overlay_fixedAscii : (overlay x y s).fixedAscii = s.fixedAscii := rfl
@[simp] theorem overlay_hwidth : (overlay x y s).hwidth = s.hwidth := rfl
@[simp] theorem outRoom_overlay : outRoom (overlay x y s) = outRoom s := rfl

@[simp] theorem inDrop_overlay (n : Nat) : inDrop n (overlay x y s) = overlay x y (inDrop n s) := rfl
@[simp] theorem outAppend_overlay (bs : List Byte) : outAppend bs (overlay x y s) = overlay x y (outAppend bs s) := rfl
@[simp] theorem setVal_overlay (v : Word) : (overlay x y s).setVal v = overlay x y (s.setVal v) := rfl
@[simp] theorem setRval_overlay (v : Word) : (overlay x y s).setRval v = overlay x y (s.setRval v) := rfl
@[simp] theorem setPair_overlay (m e : Int) : setPair m e (overlay x y s) = overlay x y (setPair m e s) := rfl

theorem raised_overlay (c : Code) (n : Nat) : raised c n (overlay x y s) = rebased y (raised c n s) := by
  rw [rebased, raised_codeField, ← stickyBits_eq_errorBit]
  rfl

theorem finished_overlay (nf ovl : Bool) (n : Nat) :
    finished nf ovl n (overlay x y s) = rebased y (finished nf ovl n s) := by
  rw [rebased, finished_codeField, errorBit_ok, show y ||| 0 = y from BitVec.or_zero]
  rfl

@[simp] theorem raise_overlay (c : Code) (n : Nat) :
    raise c n (overlay x y s) = rebasedResult y (raise c n s) :=
  congrArg Host.Outcome.next (raised_overlay x y s c n)

@[simp] theorem done_overlay (nf ovl : Bool) (n : Nat) :
    done nf ovl n (overlay x y s) = rebasedResult y (done nf ovl n s) :=
  congrArg Host.Outcome.next (finished_overlay x y s nf ovl n)

theorem emitAll_overlay (writes : State → State) (hw : writes (overlay x y s) = overlay x y (writes s))
    (bs : List Byte) (nf : Bool) :
    emitAll bs nf writes (overlay x y s) = rebasedResult y (emitAll bs nf writes s) := by
  unfold emitAll
  rw [outRoom_overlay, hw]
  split <;> simp

theorem decodeUnsigned_overlay (W M : Nat) (bad : Code) :
    decodeUnsigned W M bad (overlay x y s) = rebasedResult y (decodeUnsigned W M bad s) := by
  unfold decodeUnsigned
  rw [overlay_inq]
  split <;> simp

theorem decodeSigned_overlay (W M : Nat) :
    decodeSigned W M (overlay x y s) = rebasedResult y (decodeSigned W M s) := by
  unfold decodeSigned
  rw [overlay_inq]
  split <;> simp

theorem emitPair_overlay (m e : Int) :
    emitPair m e (overlay x y s) = rebasedResult y (emitPair m e s) := by
  unfold emitPair
  dsimp only
  split
  · exact emitAll_overlay x y s (setPair _ _) rfl _ _
  · simp

theorem encodeReal_overlay (limit : Nat) :
    encodeReal limit (overlay x y s) = rebasedResult y (encodeReal limit s) := by
  unfold encodeReal
  rw [overlay_rval]
  dsimp only
  split
  · split
    · simp
    · exact emitPair_overlay x y s _ _
  · exact emitAll_overlay x y s id rfl _ _

theorem execEncu_overlay (w : Width) : execEncu w (overlay x y s) = rebasedResult y (execEncu w s) := by
  unfold execEncu
  rw [overlay_val]
  split
  · simp
  · exact emitAll_overlay x y s id rfl _ _

theorem execEncs_overlay (w : Width) : execEncs w (overlay x y s) = rebasedResult y (execEncs w s) := by
  unfold execEncs
  rw [overlay_val]
  split
  · simp
  · exact emitAll_overlay x y s id rfl _ _

theorem execDecr_overlay : execDecr (overlay x y s) = rebasedResult y (execDecr s) := by
  unfold execDecr
  rw [overlay_inq]
  split <;> simp

theorem execDecd_overlay : execDecd (overlay x y s) = rebasedResult y (execDecd s) := by
  unfold execDecd
  rw [overlay_inq]
  split <;> simp

theorem execHdre_overlay : execHdre (overlay x y s) = rebasedResult y (execHdre s) := by
  unfold execHdre
  rw [overlay_fixedAscii, overlay_hwidth, overlay_val]
  split
  · split
    · simp
    · exact emitAll_overlay x y s id rfl _ _
  · exact emitAll_overlay x y s id rfl _ _

theorem execHdrd_overlay : execHdrd (overlay x y s) = rebasedResult y (execHdrd s) := by
  unfold execHdrd
  rw [overlay_fixedAscii, overlay_hwidth, overlay_inq]
  split
  · split
    · simp
    · split
      · simp
      · split <;> simp
  · exact decodeUnsigned_overlay x y s _ _ _

/-- Other contents of `STATUS` and `STICKY` before a command change nothing after it but what `STICKY` keeps. -/
theorem exec_overlay {i : Instr} (hi : i ≠ .srst) :
    exec i (overlay x y s) = rebasedResult y (exec i s) := by
  cases i with
  | encu w => exact execEncu_overlay x y s w
  | decu w => exact decodeUnsigned_overlay x y s _ _ _
  | encs w => exact execEncs_overlay x y s w
  | decs w => exact decodeSigned_overlay x y s _ _
  | encr p => exact encodeReal_overlay x y s _
  | encrU => exact encodeReal_overlay x y s _
  | decr => exact execDecr_overlay x y s
  | encd => exact emitPair_overlay x y s _ _
  | decd => exact execDecd_overlay x y s
  | hdre => exact execHdre_overlay x y s
  | hdrd => exact execHdrd_overlay x y s
  | srst => exact absurd rfl hi

end

/-- Settles O54: `SRST` overwrites both registers, every other command goes by `exec_overlay`. -/
theorem commandsDoNotReadStatusOrSticky : Obligations.CommandsDoNotReadStatusOrSticky := by
  intro i s t x y h
  by_cases hi : i = .srst
  · subst hi
    rw [execSrst_next.mp h]
    rfl
  · have hrun := exec_overlay x y s hi
    rw [h] at hrun
    rw [if_neg hi]
    exact hrun

end Sys2Proof.Machine
end

section
/-! ## Reset, the register interface and the placed command word -/

namespace Sys2Proof.Machine

/-- Settles O1: the reset event's state and `State.reset` differ in the outside agents alone. -/
theorem resetLeavesListedValues : Obligations.ResetLeavesListedValues := by
  intro s
  refine ⟨resetBlock s, rfl, resetBlock_env s, fun r hr => ?_⟩
  obtain ⟨e, rfl⟩ : ∃ e, r = State.reset.setEnv e := hr.elim (⟨s.env, ·⟩) (⟨State.reset.env, ·⟩)
  have hstatus : (State.reset.setEnv e).status = packStatus .ok false false 0 := rfl
  have hmode : State.reset.fixedAscii = false := by decide
  have hwidth : State.reset.hwidth = 10 := by decide
  exact ⟨rfl, rfl, rfl, rfl, rfl, hmode, hwidth, rfl, codeField_of_status hstatus, nf_of_status hstatus,
    ovl_of_status hstatus, cnt_of_status hstatus, rfl, rfl, rfl⟩

/-- Settles O4. -/
theorem hostReadsEachRegister : Obligations.HostReadsEachRegister := by
  intro s
  have hcfg : hostRead 3 s = s.cfg.zeroExtend 64 := rfl
  have hexpo : hostRead 7 s = s.expo.signExtend 64 := rfl
  have hilvl : hostRead 8 s = BitVec.ofNat 64 s.inq.length := rfl
  have holvl : hostRead 9 s = BitVec.ofNat 64 s.outq.length := rfl
  refine ⟨rfl, rfl, rfl, ?_, rfl, rfl, rfl, ?_, fun hin => ?_, fun hout => ?_⟩
  · rw [hcfg, BitVec.toNat_setWidth_of_le (by decide)]
  · rw [hexpo, BitVec.toInt_signExtend_of_le (by decide)]
  · rw [hilvl, BitVec.toNat_ofNat, Nat.mod_eq_of_lt hin]
  · rw [holvl, BitVec.toNat_ofNat, Nat.mod_eq_of_lt hout]

/-- The low bits of a written datum, as a number. -/
theorem extractLow_toNat (d : Word) (n : Nat) : (d.extractLsb' 0 n).toNat = d.toNat % 2 ^ n := by
  rw [BitVec.extractLsb'_toNat, Nat.shiftRight_zero]

theorem fixedAscii_iff (s : State) : s.fixedAscii = true ↔ s.cfg.toNat % 2 = 1 := by
  rw [State.fixedAscii, ← BitVec.testBit_toNat, Nat.testBit_zero, decide_eq_true_iff]

theorem hwidth_eq (s : State) : s.hwidth = s.cfg.toNat / 2 % 32 + 1 := by
  rw [State.hwidth, BitVec.extractLsb'_toNat, Nat.shiftRight_eq_div_pow]

/-- Settles O5: a narrow register takes the low bits of the datum, and `CFG`'s two fields are read off them. -/
theorem hostWritesEachRegister : Obligations.HostWritesEachRegister := by
  intro s d
  have hcfg := extractLow_toNat d 6
  refine ⟨rfl, rfl, rfl, rfl, ⟨_, hostWrite_expo d s, extractLow_toNat d 8⟩,
    ⟨_, hostWrite_cfg d s, hcfg, ?_, ?_⟩, rfl, rfl⟩
  · rw [fixedAscii_iff, hcfg]
    omega
  · rw [hwidth_eq, hcfg]
    omega

/-- Settles O6. -/
theorem stickyWriteOneClears : Obligations.StickyWriteOneClears := by
  intro s d
  refine ⟨_, hostWrite_sticky d s, fun b hb => ?_⟩
  rw [BitVec.getLsbD_and, BitVec.getLsbD_not, decide_eq_true hb, Bool.true_and]

/-- Settles O7. -/
theorem reservedIndicesDoNothing : Obligations.ReservedIndicesDoNothing := by
  intro i d s hi
  simp [hostRead, hostWrite, regOf_reserved hi]

/-- The decoder takes back the word of every command the hardware has (30_encoding.md R76). -/
theorem decode_encode {i : Instr} (hi : i.wf = true) : decode (encode i) = .ok i := by
  cases i with
  | encu w => cases w <;> decide
  | decu w => cases w <;> decide
  | encs w => cases w <;> decide
  | decs w => cases w <;> decide
  | encr p =>
    have all : ∀ p, p ≤ Config.pMax → decode (encode (.encr p)) = .ok (.encr p) := by decide
    exact all p (by simpa [Instr.wf] using hi)
  | encrU | decr | encd | decd | hdre | hdrd | srst => decide

theorem step_withFetchWord (s : State) (c : CmdWord) : step (s.withFetchWord 16 c.toNat) = issue c s := by
  have hword : (BitVec.ofNat 64 (c.toNat % 2 ^ 16)).extractLsb' 0 16 = c := by
    apply BitVec.eq_of_toNat_eq
    rw [extractLow_toNat, BitVec.toNat_ofNat]
    omega
  calc step (s.withFetchWord 16 c.toNat)
      = hostWrite 0 (BitVec.ofNat 64 (c.toNat % 2 ^ 16)) s := rfl
    _ = issue c s := by rw [hostWrite_cmd, hword]

/-- Settles O11: the written or placed word is issued, and issuing a word runs what it decodes to. -/
theorem stepRunsTheWrittenCommand : Obligations.StepRunsTheWrittenCommand := by
  refine ⟨fun s d i ts hs hturn hacc hdec => ?_, fun s i hi => ?_⟩
  · rw [step_of_hostWrite hturn hacc, hostWrite_cmd, issue_of_decode hdec]
  · rw [step_withFetchWord, issue_of_decode (decode_encode hi)]

end Sys2Proof.Machine
end

section
/-! ## The streams and the turns (20_memory.md R53, R54, R60, R62; 70_reset_and_hazards.md R290) -/

namespace Sys2Proof.Machine

section
variable (s : State) (p q : List Byte)
@[simp] theorem State.setInq_self : s.setInq s.inq = s := rfl
@[simp] theorem State.setInq_setInq : (s.setInq p).setInq q = s.setInq q := rfl
@[simp] theorem State.setOutq_self : s.setOutq s.outq = s := rfl
@[simp] theorem State.setOutq_setOutq : (s.setOutq p).setOutq q = s.setOutq q := rfl
end

/-! ### One push, one pop -/

section
variable {s : State} {b : Byte} {rest : List Byte}

theorem push_of_room (h : s.inq.length < Config.inCap) : push b s = some (s.setInq (s.inq ++ [b])) := if_pos h

theorem push_of_full (h : Config.inCap ≤ s.inq.length) : push b s = none := if_neg (Nat.not_lt.mpr h)

theorem pop_of_cons (h : s.outq = b :: rest) : pop s = some (b, s.setOutq rest) := by
  simp [pop, h]

theorem pop_of_nil (h : s.outq = []) : pop s = none := by
  simp [pop, h]

end

/-! ### Runs of pushes and of pops -/

theorem pushAll_of_fits {bs : List Byte} {s : State} (h : s.inq.length + bs.length ≤ Config.inCap) :
    pushAll bs s = some (s.setInq (s.inq ++ bs)) := by
  induction bs generalizing s with
  | nil => simp [pushAll]
  | cons b bs ih =>
    rw [List.length_cons] at h
    rw [pushAll, push_of_room (by omega), Option.bind_some, ih (by simp; omega)]
    simp

/-- The first byte that finds `IN` full stops the run. -/
theorem pushAll_of_overflow {bs : List Byte} {s : State} (hne : bs ≠ [])
    (h : Config.inCap < s.inq.length + bs.length) : pushAll bs s = none := by
  induction bs generalizing s with
  | nil => exact absurd rfl hne
  | cons b bs ih =>
    rw [List.length_cons] at h
    rw [pushAll]
    rcases Nat.lt_or_ge s.inq.length Config.inCap with hroom | hfull
    · have hmore : bs ≠ [] := by
        rintro rfl
        simp at h
        omega
      rw [push_of_room hroom, Option.bind_some]
      exact ih hmore (by simp; omega)
    · rw [push_of_full hfull, Option.bind_none]

theorem popN_of_le {n : Nat} {s : State} (h : n ≤ s.outq.length) :
    popN n s = some (s.outq.take n, s.setOutq (s.outq.drop n)) := by
  induction n generalizing s with
  | zero => simp [popN]
  | succ n ih =>
    cases hq : s.outq with
    | nil => simp [hq] at h
    | cons b rest =>
      rw [popN, pop_of_cons hq, Option.bind_some, ih (by simpa [hq] using h)]
      simp

/-- The first pop that finds `OUT` empty stops the run. -/
theorem popN_of_lt {n : Nat} {s : State} (h : s.outq.length < n) : popN n s = none := by
  induction n generalizing s with
  | zero => exact absurd h (Nat.not_lt_zero _)
  | succ n ih =>
    rw [popN]
    cases hq : s.outq with
    | nil => rw [pop_of_nil hq, Option.bind_none]
    | cons b rest =>
      rw [pop_of_cons hq, Option.bind_some, ih (by simpa [hq] using h), Option.map_none]

/-- Settles O10: by induction on the bytes pushed and on the number of pops. -/
theorem streamsKeepOrder : Obligations.StreamsKeepOrder := fun _ _ _ =>
  ⟨pushAll_of_fits, fun hover hne => pushAll_of_overflow hne hover, popN_of_le, popN_of_lt⟩

/-- Settles O8: the source's turn is the push it attempts. -/
theorem pushOnlyWhenInHasRoom : Obligations.PushOnlyWhenInHasRoom := by
  intro b s
  refine ⟨push_of_room, fun hfull => ⟨push_of_full hfull, fun r hr => ?_⟩, fun r hroom hr => ?_⟩
  · simp [sourceTurn, hr, push_of_full hfull]
  · simp only [sourceTurn, hr, push_of_room hroom]
    rfl

/-- Settles O9: the sink's turn is the pop it attempts. -/
theorem popOnlyWhenOutHoldsBytes : Obligations.PopOnlyWhenOutHoldsBytes := by
  intro s
  refine ⟨fun b r hq => ⟨pop_of_cons hq, ?_⟩, fun hq => ⟨pop_of_nil hq, ?_⟩⟩
  · simp only [sinkTurn, pop_of_cons hq]
    rfl
  · simp [sinkTurn, pop_of_nil hq]

/-! ### One step -/

section
variable {s : State} {a : Agent} {rest : List Agent}

/-- With no turn scheduled the block waits (70_reset_and_hazards.md R290). -/
theorem step_of_idle (h : s.env.turns = []) : step s = .next s := by
  simp [step, nextAction, h]

/-- A step is the scheduled agent's turn, with that turn taken out of the order. -/
theorem step_of_turn (h : s.env.turns = a :: rest) :
    step s = agentTurn a (s.setEnv { s.env with turns := rest }) := by
  simp [step, nextAction, h]

end

/-- Settles O12: each clause is the turn of the agent it names. -/
theorem stepTakesTheOtherTurns : Obligations.StepTakesTheOtherTurns := by
  intro s rest
  refine ⟨step_of_idle, fun hturn => ⟨fun hacc => ?_, fun i hs hacc => ?_, fun i d hs hacc => ?_⟩,
    step_of_turn, step_of_turn, step_of_turn⟩
  · rw [step_of_turn hturn]
    simp only [agentTurn, hostTurn, State.setEnv_env, hacc]
    rfl
  · rw [step_of_turn hturn]
    simp only [agentTurn, hostTurn, State.setEnv_env, hacc]
    rfl
  · exact step_of_hostWrite hturn hacc

end Sys2Proof.Machine
end

section
/-! ## All-or-nothing output and counted input (20_memory.md R57, R58; 42_frame_header.md R207) -/

namespace Sys2Proof.Machine

/-- `codeNumber` lists the codes in the order of 60_exceptions.md R260, so the list of them inverts it. -/
theorem codeNumber_getElem? (x : Code) :
    [Code.ok, .malformedVarint, .headerTooLong, .badHeader, .underrun, .outFull, .encodeRange, .realRange, .expRange,
      .illegalCmd][codeNumber x]? = some x := by
  cases x <;> rfl

theorem codeNumber_inj {x y : Code} : codeNumber x = codeNumber y ↔ x = y :=
  ⟨fun h => Option.some.inj (by rw [← codeNumber_getElem? x, h, codeNumber_getElem?]), congrArg codeNumber⟩

theorem isDecoder_of_isEncoder {i : Instr} (h : isEncoder i = true) : isDecoder i = false := by
  cases i with
  | encu | encs | encr | encrU | encd | hdre => rfl
  | decu | decs | decr | decd | hdrd | srst => cases h

/-! ### A count that fits is read back whole from `CNT` -/

section
variable {n k : Nat} (h : countFits n k)
include h

theorem countFits.mod_eq : n % 2 ^ 8 = n := by
  obtain ⟨_, hmax, _⟩ := h
  omega

theorem countFits.cnt_raised (x : Code) (s : State) : (raised x n s).cnt = n := by
  rw [Machine.raised_cnt, h.mod_eq]

theorem countFits.cnt_finished (nf ovl : Bool) (s : State) : (finished nf ovl n s).cnt = n := by
  rw [Machine.finished_cnt, h.mod_eq]

end

/-! ### What a command does to the queue it works on -/

section
variable {i : Instr} {s t : State}

/-- What an encode command does to `OUT`: nothing, or one whole encoding. -/
theorem CommandEnds.output (h : CommandEnds i s t) (hi : isEncoder i = true) :
    (t.outq = s.outq ∧ t.cnt = 0 ∧ t.codeField ≠ codeNumber .ok) ∨
      ∃ bs, t.outq = s.outq ++ bs ∧ bs.length = t.cnt ∧ countFits t.cnt (outRoom s) ∧
        t.codeField = codeNumber .ok := by
  have hdec := isDecoder_of_isEncoder hi
  cases h with
  | held hx => exact .inl ⟨rfl, raised_cnt .., by rwa [raised_codeField, Ne, codeNumber_inj]⟩
  | refused hdec' => simp [hdec] at hdec'
  | decoded hdec' => simp [hdec] at hdec'
  | @emitted nf bs u _ hn hu =>
    have hcnt : (finished nf false bs.length (outAppend bs u)).cnt = bs.length := hn.cnt_finished _ _ _
    exact .inr ⟨bs, by simp [hu.outq], hcnt.symm, hcnt.symm ▸ hn, finished_codeField ..⟩

/-- What a decode command does to `IN`: nothing on `Underrun`, else it takes the bytes it counts. -/
theorem CommandEnds.input (h : CommandEnds i s t) (hi : isDecoder i = true) :
    (t.inq = s.inq ∧ t.cnt = 0 ∧ t.codeField = codeNumber .underrun) ∨
      (t.inq = s.inq.drop t.cnt ∧ countFits t.cnt s.inq.length ∧ t.codeField ≠ codeNumber .underrun) := by
  cases h with
  | held _ _ hdec => exact .inl ⟨rfl, raised_cnt .., by rw [hdec hi, raised_codeField]⟩
  | @refused x n _ hcons hn =>
    have hx : x ≠ .underrun := by
      rintro rfl
      cases hcons
    have hcnt : (raised x n (inDrop n s)).cnt = n := hn.cnt_raised _ _
    exact .inr ⟨by rw [hcnt, raised_inq, inDrop_inq], hcnt.symm ▸ hn, by rwa [raised_codeField, Ne, codeNumber_inj]⟩
  | @decoded nf ovl n u _ hn hu =>
    have hcnt : (finished nf ovl n (inDrop n u)).cnt = n := hn.cnt_finished _ _ _
    exact .inr ⟨by rw [hcnt, finished_inq, inDrop_inq, hu.inq], hcnt.symm ▸ hn, by rw [finished_codeField]; decide⟩
  | emitted henc => simp [isDecoder_of_isEncoder henc] at hi

end

/-- Settles O53, from what each end of a command does to the queue the command works on. -/
theorem streamAccessIsAllOrNothing : Obligations.StreamAccessIsAllOrNothing := by
  intro i s t h
  refine ⟨fun henc => ?_, fun hdec => ?_⟩
  · have hi : i ≠ .srst := by
      rintro rfl
      cases henc
    rcases (exec_ends hi h).output henc with hkept | ⟨bs, hout, hlen, ⟨hpos, hmax, hroom⟩, hok⟩
    · exact .inl hkept
    · have hcap : t.outq.length ≤ Config.outCap := by
        rw [hout, List.length_append]
        unfold outRoom at hroom
        omega
      exact .inr ⟨bs, hout, hlen, hpos, hmax, hcap, hok⟩
  · have hi : i ≠ .srst := by
      rintro rfl
      cases hdec
    rcases (exec_ends hi h).input hdec with ⟨hin, hcnt, hcode⟩ | ⟨hin, ⟨hpos, hmax, hlen⟩, hcode⟩
    · simp [hin, hcnt, hcode]
    · exact ⟨hin, hlen, hmax, iff_of_false hcode (by omega)⟩

end Sys2Proof.Machine
end

section
/-! ## The opcode map: rows, fields and the words of the commands (30_encoding.md R70 to R76) -/

namespace Sys2Proof.Machine

/-- A command word is its five fields put together (R70); bits [15:13] have no name of their own. -/
theorem word_eq_fields (c : CmdWord) :
    c.extractLsb' 13 3 ++ unbField c ++ precField c ++ wselField c ++ opField c = c := by
  unfold unbField precField wselField opField
  rw [BitVec.extractLsb'_append_extractLsb'_eq_extractLsb' (by rfl),
    BitVec.extractLsb'_append_extractLsb'_eq_extractLsb' (by rfl),
    BitVec.extractLsb'_append_extractLsb'_eq_extractLsb' (by rfl),
    BitVec.extractLsb'_append_extractLsb'_eq_extractLsb' (by rfl)]
  exact BitVec.extractLsb'_eq_self

section
variable {c mask pattern : CmdWord}

theorem packWord_fields (htop : c.extractLsb' 13 3 = 0) :
    packWord (unbField c) (precField c) (wselField c) (opField c) = c := by
  rw [packWord, ← htop]
  exact word_eq_fields c

/-- A row fixes every field its mask covers. -/
theorem field_of_masked (h : c &&& mask = pattern) (start len : Nat)
    (hmask : mask.extractLsb' start len = BitVec.allOnes len) :
    c.extractLsb' start len = pattern.extractLsb' start len := by
  rw [← h, BitVec.extractLsb'_and, hmask, BitVec.and_allOnes]

/-- In the row of a width command only `wsel` is free (R72). -/
theorem word_of_wselRow {op : BitVec 4} (h : c &&& 0xFFCF = packWord 0 0 0 op) :
    packWord 0 0 (wselField c) op = c := by
  have fixed : ∀ op, (packWord 0 0 0 op).extractLsb' 13 3 = 0 ∧ unbField (packWord 0 0 0 op) = 0 ∧
      precField (packWord 0 0 0 op) = 0 ∧ opField (packWord 0 0 0 op) = op := by decide
  obtain ⟨ptop, punb, pprec, pop⟩ := fixed op
  have htop : c.extractLsb' 13 3 = 0 := (field_of_masked h 13 3 rfl).trans ptop
  have hunb : unbField c = 0 := (field_of_masked h 12 1 rfl).trans punb
  have hprec : precField c = 0 := (field_of_masked h 6 6 rfl).trans pprec
  have hop : opField c = op := (field_of_masked h 0 4 rfl).trans pop
  have hword := packWord_fields htop
  rwa [hunb, hprec, hop] at hword

/-- In the row of `ENCR` only `prec` is free (R73). -/
theorem word_of_precRow (h : c &&& 0xF03F = 0x0005) : packWord 0 (precField c) 0 0x5 = c := by
  have htop : c.extractLsb' 13 3 = 0 := field_of_masked h 13 3 rfl
  have hunb : unbField c = 0 := field_of_masked h 12 1 rfl
  have hwsel : wselField c = 0 := field_of_masked h 4 2 rfl
  have hop : opField c = 0x5 := field_of_masked h 0 4 rfl
  have hword := packWord_fields htop
  rwa [hunb, hwsel, hop] at hword

/-- A row without operands is hit by its pattern alone. -/
theorem word_of_fixedRow (h : c &&& 0xFFFF = pattern) : c = pattern := by
  rw [← h]
  exact BitVec.and_allOnes.symm

end

theorem selOfWidth_widthOfSel (b : BitVec 2) : selOfWidth (widthOfSel b) = b := by
  have all : ∀ b, selOfWidth (widthOfSel b) = b := by decide
  exact all b

/-- A hit row answers a command of the hardware, and that command's word is the one that hit the row. -/
theorem encode_build {r : Row} {c : CmdWord} (hr : r ∈ rows) (hit : rowHits c r = true) :
    (r.build c).wf = true ∧ encode (r.build c) = c := by
  have h : c &&& r.mask = r.pattern := eq_of_beq hit
  have wselRow (op : BitVec 4) (hop : c &&& 0xFFCF = packWord 0 0 0 op) :
      packWord 0 0 (selOfWidth (widthOfSel (wselField c))) op = c := by
    rw [selOfWidth_widthOfSel, word_of_wselRow hop]
  simp only [rows, List.mem_cons, List.not_mem_nil, or_false] at hr
  rcases hr with rfl | rfl | rfl | rfl | rfl | hfixed
  · exact ⟨rfl, wselRow 0x1 h⟩
  · exact ⟨rfl, wselRow 0x2 h⟩
  · exact ⟨rfl, wselRow 0x3 h⟩
  · exact ⟨rfl, wselRow 0x4 h⟩
  · have hprec : (precField c).toNat ≤ Config.pMax := Nat.le_of_lt_succ (precField c).isLt
    refine ⟨decide_eq_true hprec, ?_⟩
    calc packWord 0 (BitVec.ofNat 6 (precField c).toNat) 0 0x5
        = packWord 0 (precField c) 0 0x5 := by rw [BitVec.ofNat_toNat, BitVec.setWidth_eq]
      _ = c := word_of_precRow h
  · rcases hfixed with rfl | rfl | rfl | rfl | rfl | rfl | rfl <;>
      exact ⟨rfl, (word_of_fixedRow h).symm⟩

/-- What the decoder answers is built by a row the word hits (R76). -/
theorem row_of_decode {c : CmdWord} {i : Instr} (h : decode c = .ok i) :
    ∃ r ∈ rows, rowHits c r = true ∧ r.build c = i := by
  unfold decode at h
  split at h
  · rename_i r hfind
    exact ⟨r, List.mem_of_find?_eq_some hfind, List.find?_some hfind, Except.ok.inj h⟩
  · cases h

/-- A word that hits no row is illegal (R75). -/
theorem decode_of_noRow {c : CmdWord} (h : ∀ r ∈ rows, rowHits c r = false) : decode c = .error .illegal := by
  have hfind : rows.find? (rowHits c) = none := List.find?_eq_none.mpr fun r hr => by simp [h r hr]
  rw [decode, hfind]

theorem decode_eq_ok_iff (c : CmdWord) (i : Instr) : decode c = .ok i ↔ (i.wf = true ∧ encode i = c) := by
  constructor
  · intro h
    obtain ⟨r, hr, hit, rfl⟩ := row_of_decode h
    exact encode_build hr hit
  · rintro ⟨hi, rfl⟩
    exact decode_encode hi

/-- Settles O13: a hit row's command has the word that hit the row, and the decoder takes back every encoded word. -/
theorem decodeIsTheInverseOfEncode : Obligations.DecodeIsTheInverseOfEncode := decode_eq_ok_iff

/-! ### The legal words, and that each selects one row -/

/-- The 23 words of R74 without a precision. -/
def wordsWithoutPrecision : List CmdWord :=
  [0x0001, 0x0011, 0x0021, 0x0031, 0x0002, 0x0012, 0x0022, 0x0032, 0x0003, 0x0013, 0x0023, 0x0033,
    0x0004, 0x0014, 0x0024, 0x0034, 0x1005, 0x0006, 0x0007, 0x0008, 0x0009, 0x000A, 0x000F]

/-- The word of `ENCR P=p`, as a number. -/
theorem encode_encr_toNat {p : Nat} (hp : p ≤ 63) : (encode (.encr p)).toNat = 0x0005 + 0x40 * p := by
  have all : ∀ p, p ≤ 63 → (encode (.encr p)).toNat = 0x0005 + 0x40 * p := by decide
  exact all p hp

/-- The word of a command is listed, or has its precision in place. -/
theorem encode_listed {i : Instr} (hi : i.wf = true) :
    encode i ∈ wordsWithoutPrecision ∨ ∃ p, p ≤ 63 ∧ (encode i).toNat = 0x0005 + 0x40 * p := by
  cases i with
  | encr p =>
    have hp : p ≤ 63 := of_decide_eq_true hi
    exact .inr ⟨p, hp, encode_encr_toNat hp⟩
  | encu w | decu w | encs w | decs w => exact .inl (by cases w <;> decide)
  | encrU | decr | encd | decd | hdre | hdrd | srst => exact .inl (by decide)

/-- Each listed word is the word of a command. -/
theorem decode_of_listed {c : CmdWord} (h : c ∈ wordsWithoutPrecision) : ∃ i, decode c = .ok i := by
  have all : wordsWithoutPrecision.all (fun c => (decode c).isOk) = true := by decide
  have hok : (decode c).isOk = true := List.all_eq_true.mp all c h
  cases hc : decode c with
  | ok i => exact ⟨i, rfl⟩
  | error e =>
    rw [hc] at hok
    cases hok

theorem legal_iff_listed (c : CmdWord) :
    (∃ i, decode c = .ok i) ↔ c ∈ wordsWithoutPrecision ∨ ∃ p : Nat, p ≤ 63 ∧ c.toNat = 0x0005 + 0x40 * p := by
  constructor
  · rintro ⟨i, h⟩
    obtain ⟨hi, rfl⟩ := (decode_eq_ok_iff c i).mp h
    exact encode_listed hi
  · rintro (hc | ⟨p, hp, hc⟩)
    · exact decode_of_listed hc
    · have hword : encode (.encr p) = c := BitVec.eq_of_toNat_eq ((encode_encr_toNat hp).trans hc.symm)
      exact ⟨.encr p, (decode_eq_ok_iff c _).mpr ⟨decide_eq_true hp, hword⟩⟩

/-- Two rows are apart when their patterns differ on the bits both masks look at. -/
def rowsApart (r q : Row) : Prop := r.pattern &&& q.mask ≠ q.pattern &&& r.mask

theorem not_hits_both_of_rowsApart {c : CmdWord} {r q : Row} (h : rowsApart r q) :
    ¬ (rowHits c r = true ∧ rowHits c q = true) := by
  rintro ⟨hr, hq⟩
  have hr : c &&& r.mask = r.pattern := eq_of_beq hr
  have hq : c &&& q.mask = q.pattern := eq_of_beq hq
  exact h (by rw [← hr, ← hq, BitVec.and_assoc, BitVec.and_assoc, BitVec.and_comm r.mask])

/-- The rows of the opcode map are apart, two by two (R74). -/
theorem rows_pairwise_apart : rows.Pairwise rowsApart := by
  unfold rowsApart
  decide

/-- A test that no two entries of a list pass together keeps at most one of them. -/
theorem length_filter_le_one {α : Type} {p : α → Bool} {l : List α}
    (h : l.Pairwise fun a b => ¬ (p a = true ∧ p b = true)) : (l.filter p).length ≤ 1 := by
  have hkept := h.filter p
  have hpass : ∀ a ∈ l.filter p, p a = true := fun a ha => (List.mem_filter.mp ha).2
  match l.filter p, hkept, hpass with
  | [], _, _ => exact Nat.zero_le 1
  | [_], _, _ => exact Nat.le_refl 1
  | a :: b :: _, hkept, hpass =>
    exact absurd ⟨hpass a (by simp), hpass b (by simp)⟩ (List.rel_of_pairwise_cons hkept (by simp))

/-- Settles O14: the legal words are the encodings of the commands, and rows that are apart share no word. -/
theorem legalWordsAreListedAndUnambiguous : Obligations.LegalWordsAreListedAndUnambiguous := fun c =>
  ⟨legal_iff_listed c, length_filter_le_one (rows_pairwise_apart.imp not_hits_both_of_rowsApart)⟩

/-- Settles O15: a sample word is the encoding of its command, and a forbidden field keeps a word out of every row. -/
theorem sampleWordsDecode : Obligations.SampleWordsDecode := by
  have legal (c : CmdWord) (i : Instr) := (decode_eq_ok_iff c i).mpr
  exact ⟨legal _ _ ⟨rfl, rfl⟩, legal _ _ ⟨rfl, rfl⟩, legal _ _ ⟨rfl, rfl⟩, legal _ _ ⟨rfl, rfl⟩,
    legal _ _ ⟨rfl, rfl⟩, legal _ _ ⟨rfl, rfl⟩, legal _ _ ⟨rfl, rfl⟩, decode_of_noRow (by decide),
    decode_of_noRow (by decide), decode_of_noRow (by decide), decode_of_noRow (by decide)⟩

end Sys2Proof.Machine
end

section
/-! ## Bounds and field lengths (40_varint.md R101 to R106, R111) -/

namespace Sys2Proof.Machine

/-- `N + ceil(N/7)` is `ceil(8N/7)` (R103). -/
theorem ubound_eq_ceil (n : Nat) : ubound n = (8 * n + 6) / 7 := by
  unfold ubound
  omega

/-- Settles O17: linear arithmetic for every `N`, then the four widths. -/
theorem boundsAgreeAtTheFourWidths : Obligations.BoundsAgreeAtTheFourWidths := by
  refine ⟨ubound_eq_ceil, fun n hn => ?_, fun n hn => ?_, by decide, by decide, fun w => ?_, by decide⟩
  · unfold sbound ubound
    omega
  · unfold sbound ubound
    omega
  · cases w <;> decide

theorem widthBits_pos (w : Width) : 1 ≤ widthBits w := by
  cases w <;> decide

theorem ubound_mono {m n : Nat} (h : m ≤ n) : ubound m ≤ ubound n := by
  unfold ubound
  omega

theorem sbound_mono {m n : Nat} (h : m ≤ n) : sbound m ≤ sbound n := by
  unfold sbound
  omega

theorem widthBytes_le_of_widthBits_le {w w' : Width} (h : widthBits w ≤ widthBits w') :
    widthBytes w ≤ widthBytes w' := by
  unfold widthBits at h
  omega

/-- A value of the width needs no more groups than the bound allows (R106). -/
theorem ulen_le_ubound {w : Width} {v : Nat} (h : v < 2 ^ widthBits w) : ulen v ≤ ubound (widthBytes w) := by
  have hbits : widthBits w ≤ 7 * ubound (widthBytes w) := by
    unfold widthBits ubound
    omega
  exact (ulen_le_iff v _ (ubound_widthBytes w).1).mpr (h.trans_le (Nat.pow_le_pow_right (by decide) hbits))

theorem signed_range_mono {a b : Nat} {v : Int} (hab : a ≤ b) (hlo : -2 ^ (a - 1) ≤ v) (hhi : v < 2 ^ (a - 1)) :
    -2 ^ (b - 1) ≤ v ∧ v < 2 ^ (b - 1) := by
  have hpow : (2 : Int) ^ (a - 1) ≤ 2 ^ (b - 1) := pow_le_pow_right₀ (by decide) (by omega)
  omega

/-- A value of the signed width needs no more groups than the bound allows (R111). -/
theorem slen_le_sbound {w : Width} {v : Int} (hlo : -2 ^ (widthBits w - 1) ≤ v) (hhi : v < 2 ^ (widthBits w - 1)) :
    slen v ≤ sbound (widthBytes w) := by
  have hbits : widthBits w ≤ 7 * sbound (widthBytes w) := by
    unfold widthBits sbound
    omega
  exact (slen_le_iff v _ (sbound_widthBytes w).1).mpr (signed_range_mono hbits hlo hhi)

theorem uencode_eq_fieldBytes {w : Width} {v : Nat} (h : v < 2 ^ widthBits w) :
    uencode (widthBytes w) v = fieldBytes (ulen v) v := by
  rw [uencode, Nat.min_eq_left (ulen_le_ubound h)]

theorem sencode_eq_fieldBytes {w : Width} {v : Int} (hlo : -2 ^ (widthBits w - 1) ≤ v)
    (hhi : v < 2 ^ (widthBits w - 1)) :
    sencode (widthBytes w) v = fieldBytes (slen v) (patternOf (slen v) v) := by
  rw [sencode, Nat.min_eq_left (slen_le_sbound hlo hhi)]

end Sys2Proof.Machine
end

section
/-! ## Residues around zero: a pattern read as two's complement (00_scope.md R10) -/

namespace Sys2Proof.Machine

theorem two_pow_eq_double {W : Nat} (hW : 1 ≤ W) : 2 ^ W = 2 * 2 ^ (W - 1) := by
  rw [← pow_succ', Nat.sub_add_cancel hW]

/-- `bmod` only sees the residue. -/
theorem bmod_eq_of_emod_eq {x y : Int} {m : Nat} (h : x % m = y % m) : x.bmod m = y.bmod m := by
  rw [← Int.emod_bmod, h, Int.emod_bmod]

theorem bmod_two_pow_of_range {W : Nat} {v : Int} (hW : 1 ≤ W) (hlo : -2 ^ (W - 1) ≤ v) (hhi : v < 2 ^ (W - 1)) :
    v.bmod (2 ^ W) = v := by
  have hdouble : ((2 ^ W : Nat) : Int) = 2 * 2 ^ (W - 1) := by exact_mod_cast two_pow_eq_double hW
  exact Int.bmod_eq_of_le_mul_two (by omega) (by omega)

theorem bmod_two_pow_range {W : Nat} (hW : 1 ≤ W) (v : Int) :
    -2 ^ (W - 1) ≤ v.bmod (2 ^ W) ∧ v.bmod (2 ^ W) < 2 ^ (W - 1) := by
  have hdouble : ((2 ^ W : Nat) : Int) = 2 * 2 ^ (W - 1) := by exact_mod_cast two_pow_eq_double hW
  have hlo : -(((2 ^ W : Nat) : Int) / 2) ≤ v.bmod (2 ^ W) := Int.le_bmod (by positivity)
  have hhi : v.bmod (2 ^ W) < (((2 ^ W : Nat) : Int) + 1) / 2 := Int.bmod_lt (by positivity)
  omega

/-- Reading a W-bit pattern as two's complement is taking its residue around zero. -/
theorem asSigned_eq_bmod {W p : Nat} (hW : 1 ≤ W) (hp : p < 2 ^ W) : asSigned W p = (p : Int).bmod (2 ^ W) := by
  have hdouble := two_pow_eq_double hW
  have hres : (p : Int) % ((2 ^ W : Nat) : Int) = p := Int.emod_eq_of_lt (by omega) (by omega)
  unfold asSigned
  rw [Int.bmod_def, hres]
  split <;> split <;> omega

theorem outsideUnsigned_eq_false_iff {W v : Nat} : outsideUnsigned W v = false ↔ v < 2 ^ W := by
  simp [outsideUnsigned]

theorem outsideSigned_iff {W : Nat} {v : Int} :
    outsideSigned W v = true ↔ v < -2 ^ (W - 1) ∨ 2 ^ (W - 1) ≤ v := by
  simp [outsideSigned]

theorem outsideSigned_eq_false_iff {W : Nat} {v : Int} :
    outsideSigned W v = false ↔ -2 ^ (W - 1) ≤ v ∧ v < 2 ^ (W - 1) := by
  simp [outsideSigned]

end Sys2Proof.Machine
end

section
/-! ## Fields: where the stop bit is, and what number the groups make (40_varint.md R100, R107, R109, R113) -/

namespace Sys2Proof.Machine

theorem pow_128_eq (n : Nat) : 128 ^ n = 2 ^ (7 * n) := by
  rw [pow_mul]
  norm_num

theorem noStop_iff {bs : List Byte} : noStop bs = true ↔ ∀ b ∈ bs, stopBit b = false := by
  simp [noStop]

/-! ### The shape of a field -/

theorem isField_append_singleton (g : List Byte) (b : Byte) : isField (g ++ [b]) = (noStop g && stopBit b) := by
  induction g with
  | nil => simp [isField, noStop]
  | cons a g ih =>
    have hcons : isField (a :: (g ++ [b])) = (!stopBit a && isField (g ++ [b])) := by
      cases g <;> rfl
    rw [List.cons_append, hcons, ih]
    simp [noStop, Bool.and_assoc]

/-- A field is stopless bytes and one stop byte (R100). -/
theorem isField_iff {f : List Byte} :
    isField f = true ↔ ∃ g b, f = g ++ [b] ∧ noStop g = true ∧ stopBit b = true := by
  constructor
  · intro h
    cases f using List.reverseRecOn with
    | nil => simp [isField] at h
    | append_singleton g b =>
      rw [isField_append_singleton, Bool.and_eq_true] at h
      exact ⟨g, b, rfl, h⟩
  · rintro ⟨g, b, rfl, hg, hb⟩
    rw [isField_append_singleton, hg, hb]
    rfl

theorem length_pos_of_isField {f : List Byte} (h : isField f = true) : 1 ≤ f.length := by
  obtain ⟨g, b, rfl, _, _⟩ := isField_iff.mp h
  simp

/-- The emitted bytes have the stop bit on the last one only, whatever number they hold (R107, R122). -/
theorem isField_fieldBytes (n u : Nat) : isField (fieldBytes n u) = true :=
  isField_iff.mpr ⟨_, _, rfl, noStop_iff.mpr fun _ hb => stopBit_of_mem_leadBytes hb, stopBit_stopByte u⟩

theorem isField_uencode (n v : Nat) : isField (uencode n v) = true := isField_fieldBytes ..

theorem isField_sencode (n : Nat) (v : Int) : isField (sencode n v) = true := isField_fieldBytes ..

/-! ### The number of a field -/

theorem fieldNat_cons (b : Byte) (f : List Byte) : fieldNat (b :: f) = payload b * 128 ^ f.length + fieldNat f := by
  induction f using List.reverseRecOn with
  | nil => simp [fieldNat]
  | append_singleton f c ih =>
    rw [← List.cons_append, fieldNat_append_singleton, fieldNat_append_singleton, ih, List.length_append,
      List.length_singleton, pow_succ]
    ring

theorem fieldNat_leadBytes (k u : Nat) : fieldNat (leadBytes k u) = u / 128 % 128 ^ k := by
  induction k with
  | zero => simp [leadBytes, fieldNat, Nat.mod_one]
  | succ k ih =>
    rw [leadBytes, fieldNat_cons, payload_groupByte, leadBytes_length, ih, Nat.mod_pow_succ, Nat.div_div_eq_div_mul,
      ← pow_succ']
    ring

/-- `n` groups hold the low `7n` bits of a number (R107). -/
theorem fieldNat_fieldBytes {n : Nat} (hn : 1 ≤ n) (u : Nat) : fieldNat (fieldBytes n u) = u % 2 ^ (7 * n) := by
  obtain ⟨k, rfl⟩ := Nat.exists_eq_add_of_le' hn
  rw [fieldBytes, fieldNat_append_singleton, Nat.add_sub_cancel, fieldNat_leadBytes, payload_stopByte, ← pow_128_eq,
    pow_succ', Nat.mod_mul]
  ring

theorem fieldNat_lt_two_pow (f : List Byte) : fieldNat f < 2 ^ (7 * f.length) :=
  pow_128_eq f.length ▸ fieldNat_lt f

theorem payload_bit6 (b : Byte) : b.getLsbD 6 = decide (64 ≤ payload b) := by
  have all : ∀ b : BitVec 8, b.getLsbD 6 = decide (64 ≤ b.toNat % 128) := by decide
  exact all b

/-- The sign of a field, bit 6 of its first byte, is the top bit of its number (R117). -/
theorem signBit_iff {f : List Byte} (hf : f ≠ []) : signBit f = true ↔ 2 ^ (7 * f.length - 1) ≤ fieldNat f := by
  cases f with
  | nil => exact absurd rfl hf
  | cons b f =>
    have hpos : 0 < 128 ^ f.length := by positivity
    have htop : 2 ^ (7 * (b :: f).length - 1) = 64 * 128 ^ f.length := by
      rw [List.length_cons, show 7 * (f.length + 1) - 1 = 6 + 7 * f.length by omega, pow_add, pow_128_eq]
      norm_num
    have hquot : (payload b * 128 ^ f.length + fieldNat f) / 128 ^ f.length = payload b := by
      rw [Nat.mul_comm, Nat.mul_add_div hpos, Nat.div_eq_of_lt (fieldNat_lt f), Nat.add_zero]
    rw [htop, fieldNat_cons, ← Nat.le_div_iff_mul_le hpos, hquot, signBit, payload_bit6, decide_eq_true_iff]

/-- The signed number of a field is its groups' number as a `7n`-bit two's complement pattern (R118). -/
theorem fieldInt_eq_bmod {f : List Byte} (hf : isField f = true) :
    fieldInt f = (fieldNat f : Int).bmod (2 ^ (7 * f.length)) := by
  have hlen := length_pos_of_isField hf
  have hsign := signBit_iff (List.ne_nil_of_length_pos hlen)
  rw [← asSigned_eq_bmod (by omega) (fieldNat_lt_two_pow f), fieldInt, asSigned]
  by_cases h : signBit f = true
  · rw [if_pos h, if_neg (Nat.not_lt.mpr (hsign.mp h))]
  · rw [if_neg h, if_pos (Nat.lt_of_not_le fun hle => h (hsign.mpr hle))]

theorem slen_fieldInt_le {f : List Byte} (hf : isField f = true) : slen (fieldInt f) ≤ f.length := by
  have hlen := length_pos_of_isField hf
  rw [slen_le_iff _ _ hlen, fieldInt_eq_bmod hf]
  exact bmod_two_pow_range (by omega) _

theorem ulen_fieldNat_le {f : List Byte} (hf : isField f = true) : ulen (fieldNat f) ≤ f.length :=
  (ulen_le_iff _ _ (length_pos_of_isField hf)).mpr (fieldNat_lt_two_pow f)

/-! ### What `uencode` and `sencode` put into their fields -/

theorem patternOf_cast (n : Nat) (v : Int) : (patternOf n v : Int) = v % 2 ^ (7 * n) := by
  have hpos : (0 : Int) < ((2 ^ (7 * n) : Nat) : Int) := by positivity
  rw [patternOf, Int.toNat_of_nonneg (Int.emod_nonneg v hpos.ne'), Nat.cast_pow, Nat.cast_ofNat]

theorem uencode_length_eq {w : Width} {v : Nat} (h : v < 2 ^ widthBits w) :
    (uencode (widthBytes w) v).length = ulen v := by
  rw [uencode_eq_fieldBytes h, fieldBytes_length, Nat.sub_add_cancel (ulen_pos v)]

theorem fieldNat_uencode {w : Width} {v : Nat} (h : v < 2 ^ widthBits w) :
    fieldNat (uencode (widthBytes w) v) = v := by
  have hv : v < 2 ^ (7 * ulen v) := (ulen_le_iff v _ (ulen_pos v)).mp (Nat.le_refl _)
  rw [uencode_eq_fieldBytes h, fieldNat_fieldBytes (ulen_pos v), Nat.mod_eq_of_lt hv]

section
variable {w : Width} {v : Int} (hlo : -2 ^ (widthBits w - 1) ≤ v) (hhi : v < 2 ^ (widthBits w - 1))
include hlo hhi

theorem sencode_length_eq : (sencode (widthBytes w) v).length = slen v := by
  rw [sencode_eq_fieldBytes hlo hhi, fieldBytes_length, Nat.sub_add_cancel (slen_pos v)]

theorem fieldInt_sencode : fieldInt (sencode (widthBytes w) v) = v := by
  have hbits : 1 ≤ 7 * slen v := by
    have := slen_pos v
    omega
  have hres : (fieldNat (sencode (widthBytes w) v) : Int) % ((2 ^ (7 * slen v) : Nat) : Int)
      = v % ((2 ^ (7 * slen v) : Nat) : Int) := by
    rw [sencode_eq_fieldBytes hlo hhi, fieldNat_fieldBytes (slen_pos v)]
    push_cast
    rw [patternOf_cast, Int.emod_emod, Int.emod_emod]
  obtain ⟨hlow, hhigh⟩ := slen_fits v
  rw [fieldInt_eq_bmod (isField_sencode ..), sencode_length_eq hlo hhi, bmod_eq_of_emod_eq hres,
    bmod_two_pow_of_range hbits hlow hhigh]

end

/-- Settles O19: the groups hold the value, and a field of fewer groups holds less. -/
theorem unsignedBytesAreTheShortestField : Obligations.UnsignedBytesAreTheShortestField := by
  intro w v hv
  refine ⟨isField_uencode .., fieldNat_uencode hv, (uencode_length _ v (widthBytes_pos w)).2, ?_⟩
  rintro f hf rfl
  rw [uencode_length_eq hv]
  exact ulen_fieldNat_le hf

end Sys2Proof.Machine
end

section
/-! ## The encoders `ENCU` and `ENCS` (40_varint.md R105 to R107, R111 to R114) -/

namespace Sys2Proof.Machine

section
variable {bs : List Byte} {nf : Bool} {writes : State → State} {s t : State}

theorem emitAll_of_room (h : bs.length ≤ outRoom s) :
    emitAll bs nf writes s = .next (finished nf false bs.length (outAppend bs (writes s))) :=
  emitAll_next.mpr (.inr ⟨h, rfl⟩)

theorem emitAll_of_full (h : outRoom s < bs.length) : emitAll bs nf writes s = .next (raised .outFull 0 s) :=
  emitAll_next.mpr (.inl ⟨h, rfl⟩)

theorem raised_ne_ok {x : Code} {c : Nat} (hx : x ≠ .ok) : (raised x c s).codeField ≠ codeNumber .ok := by
  rwa [raised_codeField, Ne, codeNumber_inj]

/-- An encode that ended `OK` had room for all its bytes. -/
theorem eq_finished_of_emitAll_ok (h : emitAll bs nf writes s = .next t) (hok : t.codeField = codeNumber .ok) :
    t = finished nf false bs.length (outAppend bs (writes s)) := by
  rcases emitAll_next.mp h with ⟨_, rfl⟩ | ⟨_, rfl⟩
  · exact absurd hok (raised_ne_ok (by decide))
  · rfl

end

/-- An outcome without a sticky bit writes `STATUS` only (10_state.md R31; 60_exceptions.md R262). -/
theorem raised_of_not_sticky {x : Code} (hx : codeSticky x = false) (c : Nat) (s : State) :
    raised x c s = s.setStatus (packStatus x false false c) := by
  have hkept : s.sticky ||| stickyBits x = s.sticky := by simp [stickyBits, hx]
  rw [raised, hkept]
  rfl

section
variable {w : Width} {s t : State}

theorem exec_encu_of_range (h : s.val.toNat < 2 ^ widthBits w) :
    exec (.encu w) s = emitAll (uencode (widthBytes w) s.val.toNat) false id s := by
  rw [exec, execEncu, outsideUnsigned_eq_false_iff.mpr h, if_neg Bool.false_ne_true]

theorem exec_encs_of_range (hlo : -2 ^ (widthBits w - 1) ≤ s.val.toInt) (hhi : s.val.toInt < 2 ^ (widthBits w - 1)) :
    exec (.encs w) s = emitAll (sencode (widthBytes w) s.val.toInt) false id s := by
  rw [exec, execEncs, outsideSigned_eq_false_iff.mpr ⟨hlo, hhi⟩, if_neg Bool.false_ne_true]

/-- `ENCU` that ended `OK`. -/
theorem exec_encu_ok (h : exec (.encu w) s = .next t) (hok : t.codeField = codeNumber .ok) :
    s.val.toNat < 2 ^ widthBits w ∧
      t = finished false false (uencode (widthBytes w) s.val.toNat).length
        (outAppend (uencode (widthBytes w) s.val.toNat) s) := by
  rcases execEncu_next.mp h with ⟨_, rfl⟩ | ⟨hrange, hemit⟩
  · exact absurd hok (raised_ne_ok (by decide))
  · exact ⟨outsideUnsigned_eq_false_iff.mp hrange, eq_finished_of_emitAll_ok hemit hok⟩

/-- `ENCS` that ended `OK`. -/
theorem exec_encs_ok (h : exec (.encs w) s = .next t) (hok : t.codeField = codeNumber .ok) :
    (-2 ^ (widthBits w - 1) ≤ s.val.toInt ∧ s.val.toInt < 2 ^ (widthBits w - 1)) ∧
      t = finished false false (sencode (widthBytes w) s.val.toInt).length
        (outAppend (sencode (widthBytes w) s.val.toInt) s) := by
  rcases execEncs_next.mp h with ⟨_, rfl⟩ | ⟨hrange, hemit⟩
  · exact absurd hok (raised_ne_ok (by decide))
  · exact ⟨outsideSigned_eq_false_iff.mp hrange, eq_finished_of_emitAll_ok hemit hok⟩

end

/-- Settles O18: the range test, then all-or-nothing output. -/
theorem encuResult : Obligations.EncuResult := by
  intro w s
  refine ⟨fun hv hroom => ?_, fun hv => ?_, fun hv hfull => ?_⟩
  · rw [exec_encu_of_range hv, emitAll_of_room hroom]
    rfl
  · exact execEncu_next.mpr (.inl ⟨decide_eq_true hv, rfl⟩)
  · rw [exec_encu_of_range hv, emitAll_of_full hfull, raised_of_not_sticky rfl]
    rfl

/-- Settles O20: the range test, then all-or-nothing output. -/
theorem encsResult : Obligations.EncsResult := by
  intro w s
  refine ⟨fun hlo hhi hroom => ?_, fun hv => ?_, fun hlo hhi hfull => ?_⟩
  · rw [exec_encs_of_range hlo hhi, emitAll_of_room hroom]
    rfl
  · exact execEncs_next.mpr (.inl ⟨outsideSigned_iff.mpr hv, rfl⟩)
  · rw [exec_encs_of_range hlo hhi, emitAll_of_full hfull, raised_of_not_sticky rfl]
    rfl

/-- Settles O21: the bytes are `sencode` of `VAL`, whose length is the least count of groups that hold the number. -/
theorem signedBytesAreTheShortestField : Obligations.SignedBytesAreTheShortestField := by
  intro w s t h hok
  obtain ⟨⟨hlo, hhi⟩, rfl⟩ := exec_encs_ok h hok
  refine ⟨sencode (widthBytes w) s.val.toInt, rfl, isField_sencode .., fieldInt_sencode hlo hhi, ?_, ?_⟩
  · intro f hf hval
    rw [sencode_length_eq hlo hhi, ← hval]
    exact slen_fieldInt_le hf
  · intro s' t' h' hok' hval
    obtain ⟨_, rfl⟩ := exec_encs_ok h' hok'
    simp [hval]

end Sys2Proof.Machine
end

section
/-! ## The fill mask (40_varint.md R115) -/

namespace Sys2Proof.Machine

theorem groupByte_congr {g h : Nat} (hgh : g % 128 = h % 128) : groupByte g = groupByte h := by
  rw [groupByte, hgh, ← groupByte]

/-- The leading bytes only see the groups they hold and the ones below. -/
theorem leadBytes_congr {k u v : Nat} (h : u % 128 ^ (k + 1) = v % 128 ^ (k + 1)) : leadBytes k u = leadBytes k v := by
  induction k with
  | zero => rfl
  | succ k ih =>
    have htop : u / 128 ^ (k + 1) % 128 = v / 128 ^ (k + 1) % 128 := by
      rw [pow_succ 128 (k + 1)] at h
      rw [← Nat.mod_mul_right_div_self, h, Nat.mod_mul_right_div_self]
    have hlow : u % 128 ^ (k + 1) = v % 128 ^ (k + 1) := by
      have hdvd : 128 ^ (k + 1) ∣ 128 ^ (k + 1 + 1) := Nat.pow_dvd_pow 128 (Nat.le_succ _)
      rw [← Nat.mod_mod_of_dvd u hdvd, h, Nat.mod_mod_of_dvd v hdvd]
    rw [leadBytes, leadBytes, groupByte_congr htop, ih hlow]

theorem fieldBytes_congr {k u v : Nat} (h : u % 128 ^ (k + 1) = v % 128 ^ (k + 1)) :
    fieldBytes (k + 1) u = fieldBytes (k + 1) v := by
  have hlast : u % 128 = v % 128 := by
    have hdvd : 128 ∣ 128 ^ (k + 1) := dvd_pow_self 128 (Nat.succ_ne_zero k)
    rw [← Nat.mod_mod_of_dvd u hdvd, h, Nat.mod_mod_of_dvd v hdvd]
  simp only [fieldBytes, Nat.add_sub_cancel, leadBytes_congr h, stopByte, hlast]

/-- A field of two or more bytes: its top group, then the field of the groups below. -/
theorem fieldBytes_succ (k u : Nat) : fieldBytes (k + 2) u = groupByte (u / 128 ^ (k + 1)) :: fieldBytes (k + 1) u :=
  rfl

theorem emod_two_pow_of_neg {k : Nat} {v : Int} (hlo : -2 ^ k ≤ v) (hneg : v < 0) : v % 2 ^ k = v + 2 ^ k := by
  rw [← Int.add_emod_right, Int.emod_eq_of_lt (by omega) (by omega)]

/-- Sign extension from `W` to `7n` bits: a negative value gets ones above its W-bit pattern. -/
theorem patternOf_eq_fill {W x n p : Nat} {v : Int} (hlo : -2 ^ W ≤ v) (hhi : v < 2 ^ W) (hx : 7 * n = W + x)
    (hp : (p : Int) = v % 2 ^ W) : patternOf n v = p + if v < 0 then 2 ^ W * (2 ^ x - 1) else 0 := by
  have hx1 : 1 ≤ 2 ^ x := Nat.one_le_two_pow
  have hle : (2 : Int) ^ W ≤ 2 ^ (W + x) := pow_le_pow_right₀ (by decide) (by omega)
  zify [hx1]
  rw [patternOf_cast, hx, hp]
  split
  · rename_i hneg
    rw [emod_two_pow_of_neg (by omega) hneg, emod_two_pow_of_neg hlo hneg]
    ring
  · rw [Int.emod_eq_of_lt (by omega) (by omega), Int.emod_eq_of_lt (by omega) hhi, Int.add_zero]

/-- The top group of a sign extended pattern: the top bits of the W-bit pattern, or the mask over them. -/
theorem top_group_fill {j x p m : Nat} (hx : x ≤ 7) (hp : p < 2 ^ (7 * j + (7 - x))) (hm : m < 2 ^ x) :
    (p + 2 ^ (7 * j + (7 - x)) * m) / 128 ^ j % 128 = (p >>> (7 * j) &&& 0x7F) ||| (m * 2 ^ (7 - x)) := by
  have htop : p / 2 ^ (7 * j) < 2 ^ (7 - x) := by
    rw [Nat.div_lt_iff_lt_mul (by positivity), ← pow_add]
    rwa [Nat.add_comm]
  have hsplit : 2 ^ (7 - x) * 2 ^ x = 128 := by
    rw [← pow_add, Nat.sub_add_cancel hx]
    norm_num
  have hmask : 2 ^ (7 - x) * (m + 1) ≤ 128 := hsplit ▸ Nat.mul_le_mul_left _ hm
  rw [Nat.mul_add] at hmask
  have hdiv : (p + 2 ^ (7 * j + (7 - x)) * m) / 128 ^ j = 2 ^ (7 - x) * m + p / 2 ^ (7 * j) := by
    rw [pow_128_eq, pow_add, Nat.mul_assoc, Nat.add_mul_div_left _ _ (by positivity), Nat.add_comm]
  have hand : p >>> (7 * j) &&& 0x7F = p / 2 ^ (7 * j) := by
    rw [Nat.shiftRight_eq_div_pow, Nat.and_two_pow_sub_one_eq_mod _ 7]
    exact Nat.mod_eq_of_lt (by omega)
  rw [hdiv, hand, Nat.mod_eq_of_lt (by omega), Nat.two_pow_add_eq_or_of_lt htop, Nat.or_comm, Nat.mul_comm m]

/-- The bytes of a sign extended pattern: the filled top group, then the groups of the W-bit pattern. -/
theorem fieldBytes_fill {k x p m : Nat} (hx : x ≤ 7) (hp : p < 2 ^ (7 * (k + 1) + (7 - x))) (hm : m < 2 ^ x) :
    fieldBytes (k + 2) (p + 2 ^ (7 * (k + 1) + (7 - x)) * m) =
      BitVec.ofNat 8 ((p >>> (7 * (k + 1)) &&& 0x7F) ||| (m * 2 ^ (7 - x))) :: (fieldBytes (k + 2) p).tail := by
  have hbelow : (p + 2 ^ (7 * (k + 1) + (7 - x)) * m) % 128 ^ (k + 1) = p % 128 ^ (k + 1) := by
    rw [pow_128_eq, pow_add, Nat.mul_assoc, Nat.add_mul_mod_self_left]
  rw [fieldBytes_succ, groupByte, top_group_fill hx hp hm, fieldBytes_succ k p, List.tail_cons, fieldBytes_congr hbelow]

theorem exists_residue (W : Nat) (v : Int) : ∃ p : Nat, (p : Int) = v % 2 ^ W ∧ p < 2 ^ W := by
  have hpos : (0 : Int) < 2 ^ W := by positivity
  have hp := Int.toNat_of_nonneg (Int.emod_nonneg v hpos.ne')
  refine ⟨(v % 2 ^ W).toNat, hp, ?_⟩
  zify
  rw [hp]
  exact Int.emod_lt_of_pos v hpos

/-- A width is all the groups but one of its signed bound, and `W mod 7` bits more (R103). -/
theorem widthBits_eq_groups (w : Width) :
    ∃ k, sbound (widthBytes w) = k + 2 ∧ widthBits w = 7 * (k + 1) + (7 - (7 - widthBits w % 7)) := by
  cases w with
  | w8 => exact ⟨0, rfl, rfl⟩
  | w16 => exact ⟨1, rfl, rfl⟩
  | w32 => exact ⟨3, rfl, rfl⟩
  | w64 => exact ⟨8, rfl, rfl⟩

/-- Settles O22: the emitted pattern is the W-bit pattern sign extended, and the extension lies in the top group. -/
theorem fillMaskGivesTheFirstByte : Obligations.FillMaskGivesTheFirstByte := by
  refine ⟨fun w v hlo hhi hfull => ?_, by decide, by decide, by decide, fun w => by cases w <;> decide⟩
  obtain ⟨k, hk, hW⟩ := widthBits_eq_groups w
  obtain ⟨p, hp, hplt⟩ := exists_residue (widthBits w) v
  generalize hx : 7 - widthBits w % 7 = x at hW
  have hx7 : x ≤ 7 := by omega
  refine ⟨x, (2 ^ x - 1) * 2 ^ (7 - x), p, rfl, rfl, hp, ?_⟩
  obtain ⟨hwlo, hwhi⟩ : -2 ^ widthBits w ≤ v ∧ v < 2 ^ widthBits w :=
    signed_range_mono (Nat.le_succ (widthBits w)) hlo hhi
  rw [sencode_eq_fieldBytes hlo hhi, hfull, hk, patternOf_eq_fill (x := x) hwlo hwhi (by omega) hp]
  have hm : (if v < 0 then 2 ^ x - 1 else 0) < 2 ^ x := by
    have := Nat.two_pow_pos x
    split <;> omega
  have hfill := fieldBytes_fill (k := k) hx7 (hW ▸ hplt) hm
  rw [← hW, mul_ite, ite_mul, Nat.mul_zero, Nat.zero_mul] at hfill
  exact hfill

end Sys2Proof.Machine
end

section
/-! ## The decoders `DECU` and `DECS` (40_varint.md R108 to R110, R117 to R119) -/

namespace Sys2Proof.Machine

/-! ### What `scan` answers -/

section
variable {off bound : Nat} {q : List Byte}

/-- A field within the bound is found whole, whatever follows it. -/
theorem scan_of_field {f r : List Byte} (hq : q.drop off = f ++ r) (hf : isField f = true) (hlen : f.length ≤ bound) :
    scan off bound q = .found f.length := by
  obtain ⟨g, b, rfl, hg, hb⟩ := isField_iff.mp hf
  have hnone : g.findIdx? stopBit = none := List.findIdx?_eq_none_iff.mpr (noStop_iff.mp hg)
  refine scan_found_iff.mpr ⟨g.length, by simp, ?_⟩
  rw [hq, List.take_append, List.take_of_length_le hlen, List.append_assoc, List.findIdx?_append, hnone]
  simp [List.findIdx?_cons, hb]

theorem scan_of_noStop (hlen : bound ≤ q.length) (h : noStop (q.take bound) = true) : scan 0 bound q = .malformed :=
  scan_malformed_iff.mpr ⟨by omega, noStop_iff.mp h⟩

theorem scan_of_short_noStop (hlen : q.length < bound) (h : noStop q = true) : scan 0 bound q = .underrun :=
  scan_underrun_iff.mpr ⟨by omega, fun b hb => noStop_iff.mp h b (List.mem_of_mem_take hb)⟩

end

/-! ### What the accumulators hold -/

theorem foldAcc_lt {W seed : Nat} {f : List Byte} (hf : f ≠ []) : foldAcc W seed f < 2 ^ W := by
  cases f using List.reverseRecOn with
  | nil => exact absurd rfl hf
  | append_singleton g b =>
    rw [foldAcc, List.foldl_append]
    exact Nat.mod_lt _ (Nat.two_pow_pos W)

theorem foldAcc_unsigned {W : Nat} {f : List Byte} (hf : isField f = true) :
    foldAcc W 0 f = fieldNat f % 2 ^ W := by
  have hne : f ≠ [] := List.ne_nil_of_length_pos (length_pos_of_isField hf)
  rw [← Nat.mod_eq_of_lt (foldAcc_lt hne), foldAcc_eq, Nat.zero_mul, Nat.zero_add]

/-- The all-ones seed is -1 modulo `2^W`, so the accumulator is the signed number modulo `2^W` (R117, R118). -/
theorem foldAcc_signed (W : Nat) (f : List Byte) :
    (foldAcc W (signedSeed W f) f : Int) % ((2 ^ W : Nat) : Int) = fieldInt f % ((2 ^ W : Nat) : Int) := by
  have hone : 1 ≤ 2 ^ W := Nat.one_le_two_pow
  have hseed : (2 ^ W - 1) * 128 ^ f.length + (fieldNat f : Int)
      = fieldNat f - 128 ^ f.length + 2 ^ W * 128 ^ f.length := by ring
  rw [← Int.natCast_emod, foldAcc_eq, Int.natCast_emod, signedSeed, fieldInt, ← pow_128_eq]
  split
  · push_cast [hone]
    rw [hseed, Int.add_mul_emod_self_left]
  · simp

/-- The value decoded at width `W` is the field's signed number reduced to `W` bits (R118). -/
theorem signedValue_eq_bmod {W : Nat} {f : List Byte} (hW : 1 ≤ W) (hf : isField f = true) :
    signedValue W f = (fieldInt f).bmod (2 ^ W) := by
  have hne : f ≠ [] := List.ne_nil_of_length_pos (length_pos_of_isField hf)
  rw [signedValue, asSigned_eq_bmod hW (foldAcc_lt hne), bmod_eq_of_emod_eq (foldAcc_signed W f)]

/-! ### The shared decoding operations -/

section
variable {W M : Nat} {s : State} {f r : List Byte}

theorem decodeUnsigned_of_field {bad : Code} (hq : s.inq = f ++ r) (hf : isField f = true) (hlen : f.length ≤ M) :
    decodeUnsigned W M bad s = .next (finished false (ovlUnsigned W (fieldNat f)) f.length
      ((s.setVal (BitVec.ofNat 64 (fieldNat f % 2 ^ W))).setInq r)) := by
  refine decodeUnsigned_next.mpr (.inr (.inr ⟨f.length, scan_of_field hq hf hlen, ?_⟩))
  rw [hq, List.take_left, foldAcc_unsigned hf, inDrop, State.setVal_inq, hq, List.drop_left]

theorem decodeSigned_of_field (hW : 1 ≤ W) (hq : s.inq = f ++ r) (hf : isField f = true) (hlen : f.length ≤ M) :
    decodeSigned W M s = .next (finished false (ovlSigned W (fieldInt f)) f.length
      ((s.setVal (BitVec.ofInt 64 ((fieldInt f).bmod (2 ^ W)))).setInq r)) := by
  refine decodeSigned_next.mpr (.inr (.inr ⟨f.length, scan_of_field hq hf hlen, ?_⟩))
  rw [hq, List.take_left, signedValue_eq_bmod hW hf, inDrop, State.setVal_inq, hq, List.drop_left]

end

/-- `OVL` of a signed field, in the words of R118. -/
theorem ovlSigned_eq (W : Nat) (v : Int) : ovlSigned W v = decide (v < -2 ^ (W - 1) ∨ 2 ^ (W - 1) ≤ v) := by
  rw [ovlSigned, Bool.eq_iff_iff, outsideSigned_iff, decide_eq_true_iff]

/-- Settles O23, by what `scan` answers. -/
theorem decuResult : Obligations.DecuResult := by
  intro w s
  refine ⟨fun f r hq hf hlen => decodeUnsigned_of_field hq hf hlen, fun hlen hstop => ?_, fun hlen hstop => ?_⟩
  · exact decodeUnsigned_next.mpr (.inr (.inl ⟨scan_of_noStop hlen hstop, rfl⟩))
  · exact decodeUnsigned_next.mpr (.inl ⟨scan_of_short_noStop hlen hstop, (raised_of_not_sticky rfl 0 s).symm⟩)

/-- Settles O24, by what `scan` answers. -/
theorem decsResult : Obligations.DecsResult := by
  intro w s
  refine ⟨fun f r hq hf hlen => ?_, fun hlen hstop => ?_, fun hlen hstop => ?_⟩
  · rw [← ovlSigned_eq]
    exact decodeSigned_of_field (widthBits_pos w) hq hf hlen
  · exact decodeSigned_next.mpr (.inr (.inl ⟨scan_of_noStop hlen hstop, rfl⟩))
  · exact decodeSigned_next.mpr (.inl ⟨scan_of_short_noStop hlen hstop, (raised_of_not_sticky rfl 0 s).symm⟩)

end Sys2Proof.Machine
end

section
/-! ## Round trips through the block (40_varint.md R120, R121; 70_reset_and_hazards.md R300, R307) -/

namespace Sys2Proof.Machine

theorem outRoom_of_empty {s : State} (h : s.outq = []) : 32 ≤ outRoom s := by
  simp [outRoom, h, Config.outCap]

/-- What the decoder finds in `IN` after the bytes appended to an empty `OUT` were moved there. -/
theorem looped_inq {s : State} {bs : List Byte} {nf : Bool} {c : Nat} {x : Word} (hin : s.inq = [])
    (hout : s.outq = []) : ((looped (finished nf false c (outAppend bs s))).setVal x).inq = bs ++ [] := by
  simp [looped, hin, hout]

/-- Settles O25: what `ENCU` emits is a field of the old value, and `DECU` at any width from W up reads it back. -/
theorem unsignedRoundTrip : Obligations.UnsignedRoundTrip := by
  intro w w' s x hw hin hout hv
  have hlen := (uencode_length (widthBytes w) s.val.toNat (widthBytes_pos w)).2
  have hmono := ubound_mono (widthBytes_le_of_widthBits_le hw)
  have hbound := (ubound_widthBytes w).2
  have hroom := outRoom_of_empty hout
  have hv' : s.val.toNat < 2 ^ widthBits w' := hv.trans_le (Nat.pow_le_pow_right (by decide) hw)
  have hdec := decodeUnsigned_of_field (W := widthBits w') (bad := .malformedVarint)
    (looped_inq (nf := false) (c := (uencode (widthBytes w) s.val.toNat).length) (x := x) hin hout)
    (isField_uencode (widthBytes w) s.val.toNat) (hlen.trans hmono)
  refine ⟨_, _, (exec_encu_of_range hv).trans (emitAll_of_room (by omega)), hdec, ?_⟩
  rw [fieldNat_uencode hv, Nat.mod_eq_of_lt hv']
  have hovl : ovlUnsigned (widthBits w') s.val.toNat = false := outsideUnsigned_eq_false_iff.mpr hv'
  have hcnt : (uencode (widthBytes w) s.val.toNat).length < 256 := by omega
  simp [hout, hovl, hcnt, hlen, looped]

/-- Settles O26: what `ENCS` emits is a field of the old value, and `DECS` at any width from W up reads it back. -/
theorem signedRoundTrip : Obligations.SignedRoundTrip := by
  intro w w' s x hw hin hout hlo hhi
  have hlen := (sencode_length (widthBytes w) s.val.toInt).2
  have hmono := sbound_mono (widthBytes_le_of_widthBits_le hw)
  have hbound := (sbound_widthBytes w).2
  have hroom := outRoom_of_empty hout
  have hrange' := signed_range_mono hw hlo hhi
  have hdec := decodeSigned_of_field (widthBits_pos w')
    (looped_inq (nf := false) (c := (sencode (widthBytes w) s.val.toInt).length) (x := x) hin hout)
    (isField_sencode (widthBytes w) s.val.toInt) (hlen.trans hmono)
  refine ⟨_, _, (exec_encs_of_range hlo hhi).trans (emitAll_of_room (by omega)), hdec, ?_⟩
  rw [fieldInt_sencode hlo hhi, bmod_two_pow_of_range (widthBits_pos w') hrange'.1 hrange'.2]
  have hovl : ovlSigned (widthBits w') s.val.toInt = false := outsideSigned_eq_false_iff.mpr hrange'
  have hcnt : (sencode (widthBytes w) s.val.toInt).length < 256 := by omega
  simp [hout, hovl, hcnt, hlen, looped]

end Sys2Proof.Machine
end

section
/-! ## The stop bit of every encoded integer (40_varint.md R122) -/

namespace Sys2Proof.Machine

section
variable {s t : State}

theorem execHdre_compact_ok (hmode : s.fixedAscii = false) (h : execHdre s = .next t)
    (hok : t.codeField = codeNumber .ok) : t.outq = s.outq ++ uencode Config.sizeN s.val.toNat := by
  rw [execHdre, hmode, if_neg Bool.false_ne_true] at h
  rw [eq_finished_of_emitAll_ok h hok]
  rfl

theorem emitPair_ok {m e : Int} (h : emitPair m e s = .next t) (hok : t.codeField = codeNumber .ok) :
    t.outq = s.outq ++ pairBytes (canon m e).1 (canon m e).2 := by
  rcases emitPair_next.mp h with ⟨_, rfl⟩ | ⟨_, hemit⟩
  · exact absurd hok (raised_ne_ok (by decide))
  · rw [eq_finished_of_emitAll_ok hemit hok]
    rfl

/-- A real that is encoded as a number, `NF` 0, is sent as a decimal pair. -/
theorem encodeReal_ok {limit : Nat} (h : encodeReal limit s = .next t) (hok : t.codeField = codeNumber .ok)
    (hnf : t.nf = false) : ∃ m e, t.outq = s.outq ++ pairBytes m e := by
  rcases encodeReal_next.mp h with ⟨_, hemit⟩ | ⟨_, _, rfl⟩ | ⟨_, _, hemit⟩
  · rw [eq_finished_of_emitAll_ok hemit hok, finished_nf] at hnf
    cases hnf
  · exact absurd hok (raised_ne_ok (by decide))
  · exact ⟨_, _, emitPair_ok hemit hok⟩

end

/-- Settles O27: the integers are emitted by `uencode` and `sencode`, and a pair is its exponent byte and `sencode`. -/
theorem stopBitOnlyOnTheLastByte : Obligations.StopBitOnlyOnTheLastByte := by
  intro i s t h hok
  refine ⟨?_, fun hi hnf => ?_⟩
  · rintro (⟨w, rfl | rfl⟩ | ⟨rfl, hmode⟩)
    · obtain ⟨_, rfl⟩ := exec_encu_ok h hok
      exact ⟨_, rfl, isField_uencode ..⟩
    · obtain ⟨_, rfl⟩ := exec_encs_ok h hok
      exact ⟨_, rfl, isField_sencode ..⟩
    · exact ⟨_, execHdre_compact_ok hmode h hok, isField_uencode ..⟩
  · have hpair : ∃ m e, t.outq = s.outq ++ pairBytes m e := by
      rcases hi with ⟨p, rfl⟩ | rfl | rfl
      · exact encodeReal_ok h hok hnf
      · exact encodeReal_ok h hok hnf
      · exact ⟨_, _, emitPair_ok h hok⟩
    obtain ⟨m, e, hout⟩ := hpair
    exact ⟨_, _, hout, isField_sencode ..⟩

end Sys2Proof.Machine
end

section
/-! ## The decimal pair: its canonical form and its bytes (41_real.md R140, R141, R146, R147, R161) -/

namespace Sys2Proof.Machine

/-! ### The canonical form -/

/-- Taking one decimal zero off the mantissa keeps the canonical form (R146). -/
theorem isCanonOf_of_div_ten {m0 e0 m e : Int} (hne : m0 ≠ 0) (hdvd : m0 % 10 = 0)
    (h : isCanonOf (m0 / 10) (e0 + 1) m e) : isCanonOf m0 e0 m e := by
  obtain ⟨hcanon, j, hm, he, _⟩ := h
  refine ⟨hcanon, j + 1, ?_, by push_cast; omega, fun h0 => absurd h0 hne⟩
  rw [pow_succ, ← Int.mul_assoc, ← hm]
  omega

/-- As many turns as a mantissa has digits are enough for the loop of R146. -/
theorem isCanonOf_canonLoop {fuel : Nat} {m e : Int} (h : m.natAbs < 10 ^ fuel) :
    isCanonOf m e (canonLoop fuel m e).1 (canonLoop fuel m e).2 := by
  induction fuel generalizing m e with
  | zero =>
    obtain rfl : m = 0 := by simpa using h
    exact ⟨.inl rfl, 0, by simp [canonLoop], by simp [canonLoop], fun _ => rfl⟩
  | succ fuel ih =>
    unfold canonLoop
    split
    · rename_i hzero
      obtain ⟨hne, hdvd⟩ := hzero
      have hdvd' : m % 10 = 0 := by omega
      refine isCanonOf_of_div_ten hne hdvd' (ih ?_)
      rw [pow_succ] at h
      omega
    · rename_i hlast
      refine ⟨?_, 0, by simp, by simp, fun _ => rfl⟩
      unfold canonicalMantissa
      omega

theorem isCanonOf_canon {m : Int} (e : Int) (hlo : -2 ^ 63 ≤ m) (hhi : m < 2 ^ 63) :
    isCanonOf m e (canon m e).1 (canon m e).2 :=
  isCanonOf_canonLoop (by omega)

/-- Settles O31: the loop has more turns than a 64-bit mantissa has digits. -/
theorem canonGivesTheCanonicalForm : Obligations.CanonGivesTheCanonicalForm :=
  fun _ e hlo hhi => isCanonOf_canon e hlo hhi

theorem not_canonicalMantissa_mul_pow {m : Int} {j : Nat} (hm : m ≠ 0) (hj : j ≠ 0) :
    ¬ canonicalMantissa (m * 10 ^ j) := by
  rintro (h0 | hmod)
  · exact mul_ne_zero hm (by positivity) h0
  · exact hmod (Int.emod_eq_zero_of_dvd ((dvd_pow_self 10 hj).mul_left m))

/-- The canonical form determines the pair (R140, R146). -/
theorem isCanonOf_unique {m0 e0 m e m' e' : Int} (h : isCanonOf m0 e0 m e) (h' : isCanonOf m0 e0 m' e') :
    m = m' ∧ e = e' := by
  wlog hle : e ≤ e' generalizing m e m' e'
  · obtain ⟨hm, he⟩ := this h' h (by omega)
    exact ⟨hm.symm, he.symm⟩
  obtain ⟨hcanon, j, hm, he, hzero⟩ := h
  obtain ⟨_, j', hm', he', hzero'⟩ := h'
  have hsame : m = m' * 10 ^ (j' - j) := by
    refine mul_right_cancel₀ (b := (10 : Int) ^ j) (by positivity) ?_
    rw [← hm, hm', Int.mul_assoc, ← pow_add, Nat.sub_add_cancel (by omega)]
  have hj : j' - j = 0 := by
    by_contra hne
    have h0 : m' = 0 := by
      by_contra hm0
      exact not_canonicalMantissa_mul_pow hm0 hne (hsame ▸ hcanon)
    have := hzero' (by rw [hm', h0, Int.zero_mul])
    omega
  exact ⟨by rw [hsame, hj, pow_zero, Int.mul_one], by omega⟩

theorem canon_eq_of_isCanonOf {m0 e0 m e : Int} (hlo : -2 ^ 63 ≤ m0) (hhi : m0 < 2 ^ 63)
    (h : isCanonOf m0 e0 m e) : canon m0 e0 = (m, e) := by
  obtain ⟨hm, he⟩ := isCanonOf_unique (isCanonOf_canon e0 hlo hhi) h
  exact Prod.ext hm he

/-- The canonical mantissa is no larger in magnitude, so it fits its register. -/
theorem isCanonOf_range {m0 e0 m e : Int} (hlo : -2 ^ 63 ≤ m0) (hhi : m0 < 2 ^ 63) (h : isCanonOf m0 e0 m e) :
    -2 ^ 63 ≤ m ∧ m < 2 ^ 63 := by
  obtain ⟨_, j, rfl, _, _⟩ := h
  have hpow : (1 : Int) ≤ 10 ^ j := one_le_pow₀ (by decide)
  constructor <;> nlinarith

/-! ### The exponent byte -/

theorem expInRange_iff {e : Int} : expInRange e = true ↔ -64 ≤ e ∧ e ≤ 63 := by
  rw [expInRange, Bool.and_eq_true, decide_eq_true_iff, decide_eq_true_iff]
  rfl

theorem expInRange_eq_false_iff {e : Int} : expInRange e = false ↔ e < -64 ∨ 63 < e := by
  rw [← Bool.not_eq_true, expInRange_iff]
  omega

/-- The model's reading of a first byte is the low seven bits as two's complement (R161). -/
theorem expOfByte_eq (b : Byte) : expOfByte b = carriedExponent b := by
  have all : ∀ b : BitVec 8, expOfByte b = carriedExponent b := by decide
  exact all b

/-- Bit 7 of an exponent byte is clear, and its low seven bits carry the exponent (R141). -/
theorem expByte_spec {e : Int} (hlo : -64 ≤ e) (hhi : e ≤ 63) :
    stopBit (expByte e) = false ∧ carriedExponent (expByte e) = e := by
  have all : ∀ i < 128, stopBit (expByte ((i : Nat) - 64)) = false ∧
      carriedExponent (expByte ((i : Nat) - 64)) = (i : Nat) - 64 := by decide
  have hi : (((e + 64).toNat : Nat) : Int) - 64 = e := by omega
  exact hi ▸ all (e + 64).toNat (by omega)

/-- Settles O34: the exponent byte, and what `sencode` puts into its field. -/
theorem pairBytesCarryThePair : Obligations.PairBytesCarryThePair := by
  intro m e hlo hhi helo hehi
  obtain ⟨hstop, hexp⟩ := expByte_spec helo hehi
  exact ⟨_, _, rfl, hstop, hexp, rfl, fieldInt_sencode (w := .w64) hlo hhi, (sencode_length 8 m).2⟩

/-! ### Emitting a pair -/

section
variable {s : State} {m0 e0 m e : Int} (hlo : -2 ^ 63 ≤ m0) (hhi : m0 < 2 ^ 63) (hcanon : isCanonOf m0 e0 m e)
include hlo hhi hcanon

theorem emitPair_of_range (he : -64 ≤ e ∧ e ≤ 63) :
    emitPair m0 e0 s = emitAll (pairBytes m e) false (setPair m e) s := by
  simp only [emitPair, canon_eq_of_isCanonOf hlo hhi hcanon, expInRange_iff.mpr he, if_true]

theorem emitPair_of_outside (he : e < -64 ∨ 63 < e) : emitPair m0 e0 s = .next (raised .expRange 0 s) := by
  simp only [emitPair, canon_eq_of_isCanonOf hlo hhi hcanon, expInRange_eq_false_iff.mpr he, Bool.false_eq_true,
    if_false, raise_eq]

/-- What emitting a 64-bit mantissa with an exponent can answer, on the canonical pair (R147, R153). -/
theorem emitPair_result :
    (e < -64 ∨ 63 < e →
      emitPair m0 e0 s = .next { s with
        status := packStatus .expRange false false 0, sticky := s.sticky ||| 0x100 }) ∧
    (-64 ≤ e → e ≤ 63 → outRoom s < (pairBytes m e).length →
      emitPair m0 e0 s = .next { s with status := packStatus .outFull false false 0 }) ∧
    (-64 ≤ e → e ≤ 63 → (pairBytes m e).length ≤ outRoom s →
      emitPair m0 e0 s = .next { s with
        mant := BitVec.ofInt 64 m
        expo := BitVec.ofInt 8 e
        outq := s.outq ++ pairBytes m e
        status := packStatus .ok false false (pairBytes m e).length }) := by
  refine ⟨fun he => ?_, fun helo hehi hfull => ?_, fun helo hehi hroom => ?_⟩
  · rw [emitPair_of_outside hlo hhi hcanon he]
    rfl
  · rw [emitPair_of_range hlo hhi hcanon ⟨helo, hehi⟩, emitAll_of_full hfull, raised_of_not_sticky rfl]
    rfl
  · rw [emitPair_of_range hlo hhi hcanon ⟨helo, hehi⟩, emitAll_of_room hroom]
    rfl

end

theorem word_toInt_range (x : Word) : -2 ^ 63 ≤ x.toInt ∧ x.toInt < 2 ^ 63 :=
  ⟨BitVec.le_toInt x, BitVec.toInt_lt⟩

/-- Settles O35: `ENCD` is `emitPair` on the two registers, and `MANT` holds a 64-bit mantissa. -/
theorem encdResult : Obligations.EncdResult := by
  intro s m e hcanon
  obtain ⟨hlo, hhi⟩ := word_toInt_range s.mant
  exact emitPair_result hlo hhi hcanon

end Sys2Proof.Machine
end

section
/-! ## Parsing a real: `DECD` and `DECR` (41_real.md R160 to R165) -/

namespace Sys2Proof.Machine

/-! ### What `parseReal` answers (R163) -/

theorem parseReal_nil : parseReal [] = .underrun := rfl

theorem parseReal_nonFinite (r : List Byte) : parseReal (0xFF :: r) = .nonFinite := rfl

theorem parseReal_short {b : Byte} (hstop : stopBit b = true) (hb : b ≠ 0xFF) (r : List Byte) :
    parseReal (b :: r) = .zeroShort (carriedExponent b) := by
  rw [parseReal, nonFiniteByte, if_neg hb, if_pos hstop, expOfByte_eq]

theorem ne_nonFiniteByte_of_stopBit {b : Byte} (h : stopBit b = false) : b ≠ nonFiniteByte := by
  rintro rfl
  cases h

/-- A first byte with bit 7 clear leaves the answer to the search for the mantissa's stop bit. -/
theorem parseReal_of_stopBit {b : Byte} (hb : stopBit b = false) (r : List Byte) :
    parseReal (b :: r) =
      match scan 1 10 (b :: r) with
      | .underrun => .underrun
      | .malformed => .malformed
      | .found n =>
        .pair (signedValue 64 (r.take n)) (carriedExponent b) (1 + n) (ovlSigned 64 (fieldInt (r.take n))) := by
  rw [parseReal, if_neg (ne_nonFiniteByte_of_stopBit hb), hb, if_neg Bool.false_ne_true, expOfByte_eq]
  rfl

section
variable {b : Byte} (hb : stopBit b = false)
include hb

theorem parseReal_of_field {f r : List Byte} (hf : isField f = true) (hlen : f.length ≤ 10) :
    parseReal (b :: (f ++ r)) =
      .pair ((fieldInt f).bmod (2 ^ 64)) (carriedExponent b) (1 + f.length) (ovlSigned 64 (fieldInt f)) := by
  have hscan : scan 1 10 (b :: (f ++ r)) = .found f.length := scan_of_field rfl hf hlen
  rw [parseReal_of_stopBit hb, hscan]
  simp only [List.take_left, signedValue_eq_bmod (W := 64) (by decide) hf]

theorem parseReal_of_noStop {r : List Byte} (hlen : 10 ≤ r.length) (h : noStop (r.take 10) = true) :
    parseReal (b :: r) = .malformed := by
  have hscan : scan 1 10 (b :: r) = .malformed :=
    scan_malformed_iff.mpr ⟨by rw [List.length_cons]; omega, noStop_iff.mp h⟩
  rw [parseReal_of_stopBit hb, hscan]

theorem parseReal_of_short_noStop {r : List Byte} (hlen : r.length < 10) (h : noStop r = true) :
    parseReal (b :: r) = .underrun := by
  have hscan : scan 1 10 (b :: r) = .underrun :=
    scan_underrun_iff.mpr ⟨by rw [List.length_cons]; omega, fun c hc => noStop_iff.mp h c (List.mem_of_mem_take hc)⟩
  rw [parseReal_of_stopBit hb, hscan]

end

/-- Parsing takes the bytes of a pair and gives the pair back, whatever follows them. -/
theorem parseReal_pairBytes {m e : Int} (hm : -2 ^ 63 ≤ m ∧ m < 2 ^ 63) (he : -64 ≤ e ∧ e ≤ 63) (r : List Byte) :
    parseReal (pairBytes m e ++ r) = .pair m e (pairBytes m e).length false := by
  obtain ⟨hstop, hexp⟩ := expByte_spec he.1 he.2
  have hfield : fieldInt (sencode 8 m) = m := fieldInt_sencode (w := .w64) hm.1 hm.2
  have hvalue : m.bmod (2 ^ 64) = m := bmod_two_pow_of_range (by decide) hm.1 hm.2
  have hovl : ovlSigned 64 m = false := outsideSigned_eq_false_iff.mpr hm
  have hparse := parseReal_of_field hstop (r := r) (isField_sencode 8 m) (sencode_length 8 m).2
  rw [hfield, hvalue, hexp, hovl, Nat.add_comm] at hparse
  exact hparse

/-! ### What is left in `IN` and in the registers -/

section
variable {s : State} {b : Byte} {r : List Byte}

theorem inDrop_one_of_cons (h : s.inq = b :: r) : inDrop 1 s = s.setInq r := by
  rw [inDrop, h, List.drop_one, List.tail_cons]

theorem inDrop_field_of_cons {f : List Byte} (h : s.inq = b :: (f ++ r)) : inDrop (1 + f.length) s = s.setInq r := by
  rw [inDrop, h, Nat.add_comm, List.drop_succ_cons, List.drop_left]

/-- A mantissa reduced to 64 bits writes the same pattern into `MANT` (R163). -/
theorem setPair_bmod (m e : Int) (s : State) : setPair (m.bmod (2 ^ 64)) e s = setPair m e s := by
  have hmant : BitVec.ofInt 64 (m.bmod (2 ^ 64)) = BitVec.ofInt 64 m := by
    refine BitVec.eq_of_toInt_eq ?_
    rw [BitVec.toInt_ofInt, BitVec.toInt_ofInt, Int.bmod_bmod]
  rw [setPair, hmant, ← setPair]

/-- The state in which ten bytes without a stop bit after the first one were refused (R163). -/
theorem raised_malformed_of_cons (h : s.inq = b :: r) :
    raised .malformedVarint 11 (inDrop 11 s) =
      { s with
        inq := r.drop 10, status := packStatus .malformedVarint false false 11, sticky := s.sticky ||| 0x2 } := by
  rw [inDrop, h, List.drop_succ_cons]
  rfl

end

/-- Settles O36, by what `parseReal` answers. -/
theorem decdResult : Obligations.DecdResult := by
  intro s b r
  refine ⟨fun hq => ?_, fun hq => ?_, fun hq hstop hb => ?_, fun hq hb => ⟨?_, fun hlen hno => ?_, fun hlen hno => ?_⟩⟩
  · exact execDecd_next.mpr (.inl ⟨by rw [hq, parseReal_nil], (raised_of_not_sticky rfl 0 s).symm⟩)
  · refine execDecd_next.mpr (.inr (.inr (.inl ⟨by rw [hq, parseReal_nonFinite], ?_⟩)))
    rw [inDrop_one_of_cons hq]
    rfl
  · refine execDecd_next.mpr (.inr (.inr (.inr (.inl ⟨_, by rw [hq, parseReal_short hstop hb], ?_⟩))))
    rw [inDrop_one_of_cons (s := setPair _ _ s) hq]
    rfl
  · rintro f r' rfl hf hlen
    refine execDecd_next.mpr (.inr (.inr (.inr (.inr ⟨_, _, _, _, by rw [hq, parseReal_of_field hb hf hlen], ?_⟩))))
    rw [setPair_bmod, inDrop_field_of_cons (s := setPair _ _ s) hq, ovlSigned_eq]
    rfl
  · exact execDecd_next.mpr
      (.inr (.inl ⟨by rw [hq, parseReal_of_noStop hb hlen hno], (raised_malformed_of_cons hq).symm⟩))
  · exact execDecd_next.mpr
      (.inl ⟨by rw [hq, parseReal_of_short_noStop hb hlen hno], (raised_of_not_sticky rfl 0 s).symm⟩)

/-! ### `DECR` is `DECD` with `RVAL` written (R165) -/

/-- What `RVAL` holds after `DECR` parsed `p`. -/
def decodedReal (old : Word) : Parse → Word
  | .underrun | .malformed => old
  | .nonFinite => Config.nanPattern
  | .zeroShort _ => 0
  | .pair m e _ _ => d2r m e

theorem exec_decr_of_parse {s : State} {q : List Byte} {p : Parse} (hq : s.inq = q) (hp : parseReal q = p) :
    exec .decr s = exec .decd (s.setRval (decodedReal s.rval p)) := by
  change execDecr s = execDecd (s.setRval (decodedReal s.rval p))
  rw [execDecr, execDecd, State.setRval_inq, hq, hp]
  cases p <;> rfl

/-- Settles O37: what `DECD` does, after `RVAL` was given the real of what `parseReal` answers. -/
theorem decrResult : Obligations.DecrResult := by
  intro s b r
  have hdecd (v : Word) := decdResult (s.setRval v) b r
  refine ⟨fun hq => ?_, fun hq => ?_, fun hq hstop hb => ?_, fun hq hb => ⟨?_, fun hlen hno => ?_, fun hlen hno => ?_⟩⟩
  · obtain ⟨hempty, _⟩ := hdecd s.rval
    exact (exec_decr_of_parse hq parseReal_nil).trans (hempty hq)
  · obtain ⟨_, hnonFinite, _⟩ := hdecd Config.nanPattern
    exact (exec_decr_of_parse hq (parseReal_nonFinite r)).trans (hnonFinite hq)
  · obtain ⟨_, _, hshort, _⟩ := hdecd 0
    exact (exec_decr_of_parse hq (parseReal_short hstop hb r)).trans (hshort hq hstop hb)
  · rintro f r' rfl hf hlen
    obtain ⟨_, _, _, hpair⟩ := hdecd (d2r ((fieldInt f).bmod (2 ^ 64)) (carriedExponent b))
    obtain ⟨hfield, _⟩ := hpair hq hb
    exact (exec_decr_of_parse hq (parseReal_of_field hb hf hlen)).trans (hfield f r' rfl hf hlen)
  · obtain ⟨_, _, _, hpair⟩ := hdecd s.rval
    obtain ⟨_, hmalformed, _⟩ := hpair hq hb
    exact (exec_decr_of_parse hq (parseReal_of_noStop hb hlen hno)).trans (hmalformed hlen hno)
  · obtain ⟨_, _, _, hpair⟩ := hdecd s.rval
    obtain ⟨_, _, hunderrun⟩ := hpair hq hb
    exact (exec_decr_of_parse hq (parseReal_of_short_noStop hb hlen hno)).trans (hunderrun hlen hno)

end Sys2Proof.Machine
end

section
/-! ## A pair sent and read back (41_real.md R153, R164, R168; 40_varint.md R121) -/

namespace Sys2Proof.Machine

/-- A pair that was sent is the canonical one, and both parts fit their registers. -/
structure SentPair (m0 e0 m e : Int) : Prop where
  canon : isCanonOf m0 e0 m e
  mantissa : -2 ^ 63 ≤ m ∧ m < 2 ^ 63
  exponent : -64 ≤ e ∧ e ≤ 63

section
variable {s t : State} {m0 e0 : Int}

theorem eq_finished_of_emitPair_ok (hlo : -2 ^ 63 ≤ m0) (hhi : m0 < 2 ^ 63) (h : emitPair m0 e0 s = .next t)
    (hok : t.codeField = codeNumber .ok) :
    ∃ m e, SentPair m0 e0 m e ∧
      t = finished false false (pairBytes m e).length (outAppend (pairBytes m e) (setPair m e s)) := by
  rcases emitPair_next.mp h with ⟨_, rfl⟩ | ⟨he, hemit⟩
  · exact absurd hok (raised_ne_ok (by decide))
  · have hcanon := isCanonOf_canon e0 hlo hhi
    exact ⟨_, _, ⟨hcanon, isCanonOf_range hlo hhi hcanon, expInRange_iff.mp he⟩, eq_finished_of_emitAll_ok hemit hok⟩

theorem SentPair.mant_toInt {m e : Int} (h : SentPair m0 e0 m e) : (BitVec.ofInt 64 m).toInt = m := by
  rw [BitVec.toInt_ofInt]
  exact bmod_two_pow_of_range (by decide) h.mantissa.1 h.mantissa.2

theorem SentPair.expo_toInt {m e : Int} (h : SentPair m0 e0 m e) : (BitVec.ofInt 8 e).toInt = e := by
  obtain ⟨hlo, hhi⟩ := h.exponent
  rw [BitVec.toInt_ofInt]
  exact bmod_two_pow_of_range (W := 8) (by decide) (by omega) (by omega)

/-- The registers hold the canonical pair whose bytes were appended (R168). -/
theorem emitPair_ok_registers (hlo : -2 ^ 63 ≤ m0) (hhi : m0 < 2 ^ 63) (h : emitPair m0 e0 s = .next t)
    (hok : t.codeField = codeNumber .ok) :
    canonicalMantissa t.mant.toInt ∧ t.outq = s.outq ++ pairBytes t.mant.toInt t.expo.toInt := by
  obtain ⟨m, e, hsent, rfl⟩ := eq_finished_of_emitPair_ok hlo hhi h hok
  simp [hsent.mant_toInt, hsent.expo_toInt, hsent.canon.1]

end

/-- Settles O41: `DECD` parses the bytes of the canonical pair, which is what the registers held. -/
theorem pairRoundTrip : Obligations.PairRoundTrip := by
  intro s t x y hin hout h hok
  obtain ⟨hlo, hhi⟩ := word_toInt_range s.mant
  obtain ⟨m, e, hsent, rfl⟩ := eq_finished_of_emitPair_ok hlo hhi h hok
  have hparse := parseReal_pairBytes hsent.mantissa hsent.exponent []
  refine ⟨_, execDecd_next.mpr (.inr (.inr (.inr (.inr ⟨m, e, (pairBytes m e).length, false, ?_, rfl⟩)))), ?_⟩
  · rw [← hparse]
    simp [looped, hin, hout]
  · simp [looped, hin, hout]

end Sys2Proof.Machine
end

section
/-! ## The value of a binary64 pattern without its sign (41_real.md R143, R144; log entry 4)

A pattern without its sign is a natural number, and its value grows with that number. -/

namespace Sys2Proof.Machine

/-- A pattern without its sign bit. -/
def magnitude (x : Word) : Nat := x.toNat % 2 ^ 63

/-- The last place of a magnitude, counted from the smallest one, 2^(-1074). -/
def lastPlace (n : Nat) : Nat := n / 2 ^ 52 - 1

/-- The significand of a magnitude, with the hidden one. -/
def significand (n : Nat) : Nat := n - lastPlace n * 2 ^ 52

/-- The rational value of a magnitude. -/
def magValue (n : Nat) : ℚ := significand n * (2 : ℚ) ^ ((lastPlace n : Int) - 1074)

/-- The magnitude of infinity, the first that is not finite. -/
def infMagnitude : Nat := 0x7FF * 2 ^ 52

/-- The sign of a pattern as a factor. -/
def signFactor (neg : Bool) : ℚ := if neg then -1 else 1

/-! ### The fields of a pattern -/

theorem magnitude_lt (x : Word) : magnitude x < 2 ^ 63 := Nat.mod_lt _ (by decide)

theorem fexpField_eq (x : Word) : fexpField x = magnitude x / 2 ^ 52 := by
  rw [fexpField, magnitude, BitVec.extractLsb'_toNat, Nat.shiftRight_eq_div_pow]
  omega

theorem ffracField_eq (x : Word) : ffracField x = magnitude x % 2 ^ 52 := by
  rw [ffracField, magnitude, BitVec.extractLsb'_toNat, Nat.shiftRight_eq_div_pow]
  omega

theorem fneg_eq (x : Word) : fneg x = decide (2 ^ 63 ≤ x.toNat) := BitVec.msb_eq_decide x

theorem toNat_eq_magnitude (x : Word) : x.toNat = magnitude x + if fneg x then 2 ^ 63 else 0 := by
  have := x.isLt
  rw [fneg_eq, magnitude]
  simp only [decide_eq_true_eq]
  split <;> omega

/-- Sign and magnitude determine the pattern. -/
theorem eq_of_magnitude_eq {x y : Word} (hneg : fneg x = fneg y) (hmag : magnitude x = magnitude y) : x = y := by
  refine BitVec.eq_of_toNat_eq ?_
  rw [toNat_eq_magnitude x, toNat_eq_magnitude y, hneg, hmag]

theorem isfinite_iff {x : Word} : isfinite x = true ↔ magnitude x < infMagnitude := by
  have := magnitude_lt x
  rw [isfinite, decide_eq_true_iff, fexpField_eq, infMagnitude]
  omega

theorem fsig_eq (x : Word) : fsig x = significand (magnitude x) := by
  rw [fsig, significand, lastPlace, fexpField_eq, ffracField_eq]
  split <;> omega

theorem fexp_eq (x : Word) : fexp x = (lastPlace (magnitude x) : Int) - 1074 := by
  rw [fexp, lastPlace, fexpField_eq]
  omega

theorem realValue_eq (x : Word) : realValue x = signFactor (fneg x) * magValue (magnitude x) := by
  rw [realValue, fsig_eq, fexp_eq, magValue, signFactor, mul_assoc]

/-! ### The value grows with the magnitude -/

theorem exists_block (n : Nat) : ∃ k m, n = k * 2 ^ 52 + m ∧ m < 2 ^ 53 ∧ (k = 0 ∨ 2 ^ 52 ≤ m) :=
  ⟨lastPlace n, significand n, by unfold significand lastPlace; omega, by unfold significand lastPlace; omega,
    by unfold significand lastPlace; omega⟩

/-- The value of a significand at a place; the significand may be rounded up to the next power of two. -/
theorem magValue_block {k m : Nat} (hm : m ≤ 2 ^ 53) (hk : k = 0 ∨ 2 ^ 52 ≤ m) :
    magValue (k * 2 ^ 52 + m) = m * (2 : ℚ) ^ ((k : Int) - 1074) := by
  rcases Nat.lt_or_eq_of_le hm with hlt | rfl
  · have hplace : lastPlace (k * 2 ^ 52 + m) = k := by
      unfold lastPlace
      omega
    rw [magValue, significand, hplace, Nat.add_sub_cancel_left]
  · have hplace : lastPlace (k * 2 ^ 52 + 2 ^ 53) = k + 1 := by
      unfold lastPlace
      omega
    have hsig : k * 2 ^ 52 + 2 ^ 53 - (k + 1) * 2 ^ 52 = 2 ^ 52 := by omega
    have hexp : ((k + 1 : Nat) : Int) - 1074 = (k : Int) - 1074 + 1 := by omega
    rw [magValue, significand, hplace, hsig, hexp, zpow_add_one₀ two_ne_zero]
    push_cast
    ring

theorem magValue_strictMono : StrictMono magValue := by
  refine strictMono_nat_of_lt_succ fun n => ?_
  obtain ⟨k, m, rfl, hm, hk⟩ := exists_block n
  rw [Nat.add_assoc, magValue_block (by omega) hk, magValue_block (by omega) (by omega)]
  exact mul_lt_mul_of_pos_right (by push_cast; exact lt_add_one _) (by positivity)

theorem magValue_zero : magValue 0 = 0 := by simp [magValue, significand]

theorem magValue_nonneg (n : Nat) : 0 ≤ magValue n := by
  unfold magValue
  positivity

/-- From a place up, every value is a whole number of that place. -/
theorem exists_magValue_eq_mul {k n : Nat} (h : k = 0 ∨ (k + 1) * 2 ^ 52 ≤ n) :
    ∃ j : Nat, magValue n = j * (2 : ℚ) ^ ((k : Int) - 1074) := by
  have hle : k ≤ lastPlace n := by
    unfold lastPlace
    omega
  obtain ⟨d, hd⟩ := Nat.exists_eq_add_of_le hle
  have hexp : (lastPlace n : Int) - 1074 = d + ((k : Int) - 1074) := by omega
  refine ⟨significand n * 2 ^ d, ?_⟩
  rw [magValue, hexp, zpow_add₀ two_ne_zero, zpow_natCast]
  push_cast
  ring

/-- Every number with at most 53 significant bits, from the smallest place up, is the value of a magnitude. -/
theorem exists_magValue_eq {m : Nat} (hm : m ≤ 2 ^ 53) (k : Nat) :
    ∃ n, magValue n = m * (2 : ℚ) ^ ((k : Int) - 1074) := by
  induction k generalizing m with
  | zero => exact ⟨_, magValue_block (k := 0) hm (.inl rfl)⟩
  | succ k ih =>
    by_cases hnormal : 2 ^ 52 ≤ m
    · exact ⟨_, magValue_block hm (.inr hnormal)⟩
    · obtain ⟨n, hn⟩ := ih (m := 2 * m) (by omega)
      have hexp : ((k + 1 : Nat) : Int) - 1074 = (k : Int) - 1074 + 1 := by omega
      refine ⟨n, ?_⟩
      rw [hn, hexp, zpow_add_one₀ two_ne_zero]
      push_cast
      ring

/-- Every natural number of at most 53 bits is the value of a magnitude. -/
theorem exists_magValue_eq_natCast {m : Nat} (hm : m ≤ 2 ^ 53) : ∃ n, magValue n = m := by
  simpa using exists_magValue_eq hm 1074

end Sys2Proof.Machine
end

section
/-! ## Rounding to nearest, ties to even (41_real.md R143) -/

namespace Sys2Proof.Machine

/-- `n` is the magnitude nearest to `q`, and the even one at a tie. -/
def IsNearestEven (q : ℚ) (n : Nat) : Prop :=
  ∀ j, |magValue n - q| ≤ |magValue j - q| ∧ (|magValue n - q| = |magValue j - q| → j ≠ n → n % 2 = 0)

/-! ### What the nearest magnitude is like -/

theorem IsNearestEven.eq_of_value {n R : Nat} {q : ℚ} (hR : IsNearestEven q R) (hn : magValue n = q) : R = n := by
  have hdist := (hR n).1
  rw [hn, sub_self, abs_zero] at hdist
  refine magValue_strictMono.injective ?_
  rw [hn]
  exact sub_eq_zero.mp (abs_nonpos_iff.mp hdist)

/-- Of two magnitudes the lower one is nearer to everything below their middle. -/
theorem le_middle_of_nearer {n m : ℚ} {q : ℚ} (hlt : n < m) (h : |n - q| ≤ |m - q|) : 2 * q ≤ n + m := by
  by_contra hmid
  have hpos : 0 < q - n := by linarith
  rw [abs_sub_comm, abs_of_pos hpos, le_abs] at h
  rcases h with h | h <;> linarith

theorem middle_le_of_nearer {n m : ℚ} {q : ℚ} (hlt : n < m) (h : |m - q| ≤ |n - q|) : n + m ≤ 2 * q := by
  have := le_middle_of_nearer (n := -m) (m := -n) (q := -q) (by linarith)
    (by rw [abs_sub_comm, abs_sub_comm (-n)]; simpa [sub_eq_add_neg, add_comm] using h)
  linarith

/-- Rounding is monotone. -/
theorem IsNearestEven.mono {a b : ℚ} {m n : Nat} (hm : IsNearestEven a m) (hn : IsNearestEven b n) (hab : a ≤ b) :
    m ≤ n := by
  by_contra hlt
  rw [Nat.not_le] at hlt
  have hval := magValue_strictMono hlt
  have ha := middle_le_of_nearer hval (hm n).1
  have hb := le_middle_of_nearer hval (hn m).1
  have hmid : 2 * a = magValue n + magValue m := by linarith
  obtain rfl : a = b := by linarith
  have htie : |magValue m - a| = |magValue n - a| := le_antisymm (hm n).1 (hn m).1
  have hmeven := (hm n).2 htie hlt.ne
  have hneven := (hn m).2 htie.symm hlt.ne'
  have hlow : magValue n < magValue (n + 1) := magValue_strictMono (by omega)
  have hhigh : magValue (n + 1) < magValue m := magValue_strictMono (by omega)
  have hbetween := (hm (n + 1)).1
  rw [abs_of_pos (by linarith), le_abs] at hbetween
  rcases hbetween with h | h <;> linarith

theorem isNearestEven_zero : IsNearestEven 0 0 := by
  intro j
  simp [magValue_zero]

/-! ### The rounding to an integer -/

/-- The rounded quotient is at most half a denominator away, and even when it is half away. -/
theorem roundHalfEven_bounds (num : Nat) {den : Nat} (hden : 0 < den) :
    2 * num ≤ 2 * (den * roundHalfEven num den) + den ∧ 2 * (den * roundHalfEven num den) ≤ 2 * num + den ∧
      (2 * num = 2 * (den * roundHalfEven num den) + den ∨ 2 * (den * roundHalfEven num den) = 2 * num + den →
        roundHalfEven num den % 2 = 0) := by
  have hdiv := Nat.div_add_mod num den
  have hmod := Nat.mod_lt num hden
  unfold roundHalfEven
  dsimp only
  split
  · rw [Nat.mul_succ]
    omega
  · omega

theorem roundHalfEven_near (num : Nat) {den : Nat} (hden : 0 < den) :
    |(roundHalfEven num den : ℚ) - num / den| ≤ 1 / 2 ∧
      (|(roundHalfEven num den : ℚ) - num / den| = 1 / 2 → roundHalfEven num den % 2 = 0) := by
  obtain ⟨hlow, hhigh, heven⟩ := roundHalfEven_bounds num hden
  generalize roundHalfEven num den = m at *
  have hpos : (0 : ℚ) < den := by exact_mod_cast hden
  have hdist : (m : ℚ) - num / den = (den * m - num) / den := by field_simp
  have hlow' : (2 : ℚ) * num ≤ 2 * (den * m) + den := by exact_mod_cast hlow
  have hhigh' : (2 : ℚ) * (den * m) ≤ 2 * num + den := by exact_mod_cast hhigh
  rw [hdist, abs_div, abs_of_pos hpos, div_le_div_iff₀ hpos two_pos, div_eq_div_iff hpos.ne' two_ne_zero]
  refine ⟨?_, fun htie => heven ?_⟩
  · have : |(den : ℚ) * m - num| ≤ den / 2 := abs_le.mpr ⟨by linarith, by linarith⟩
    linarith
  · have htie' : |(den : ℚ) * m - num| = den / 2 := by linarith
    rcases eq_or_eq_neg_of_abs_eq htie' with h | h
    · exact .inr (by exact_mod_cast (by linarith : (2 : ℚ) * (den * m) = 2 * num + den))
    · exact .inl (by exact_mod_cast (by linarith : (2 : ℚ) * num = 2 * (den * m) + den))

/-- The rounded quotient is nearest among the integers, ties to even. -/
theorem roundHalfEven_nearest (num : Nat) {den : Nat} (hden : 0 < den) (j : Nat) :
    |(roundHalfEven num den : ℚ) - num / den| ≤ |(j : ℚ) - num / den| ∧
      (|(roundHalfEven num den : ℚ) - num / den| = |(j : ℚ) - num / den| → j ≠ roundHalfEven num den →
        roundHalfEven num den % 2 = 0) := by
  obtain ⟨hnear, heven⟩ := roundHalfEven_near num hden
  generalize roundHalfEven num den = m at *
  by_cases hj : j = m
  · simp [hj]
  · have hone : (1 : ℚ) ≤ |(j : ℚ) - m| := by
      have : (1 : Int) ≤ |(j : Int) - m| := Int.one_le_abs (by omega)
      exact_mod_cast this
    have htri : |(j : ℚ) - m| ≤ |(j : ℚ) - num / den| + |(m : ℚ) - num / den| := by
      rw [abs_sub_comm (m : ℚ)]
      exact abs_sub_le _ _ _
    exact ⟨by linarith, fun heq _ => heven (by linarith)⟩

theorem roundHalfEven_le {num den b : Nat} (hden : 0 < den) (h : (num : ℚ) / den ≤ b) :
    roundHalfEven num den ≤ b := by
  have hnear := (roundHalfEven_nearest num hden b).1
  rw [abs_of_nonneg (a := (b : ℚ) - _) (by linarith), abs_le] at hnear
  exact_mod_cast (by linarith [hnear.2] : (roundHalfEven num den : ℚ) ≤ b)

theorem le_roundHalfEven {num den b : Nat} (hden : 0 < den) (h : (b : ℚ) ≤ num / den) :
    b ≤ roundHalfEven num den := by
  have hnear := (roundHalfEven_nearest num hden b).1
  rw [abs_of_nonpos (a := (b : ℚ) - _) (by linarith), abs_le] at hnear
  exact_mod_cast (by linarith [hnear.1] : (b : ℚ) ≤ roundHalfEven num den)

end Sys2Proof.Machine
end

section
/-! ## The rounded magnitude of a rational (41_real.md R143) -/

namespace Sys2Proof.Machine

/-! ### The place of the rounding -/

/-- The two parts of a power of two whose exponent is split by its sign. -/
theorem two_pow_toNat_div (e : Int) : (2 : ℚ) ^ e.toNat / 2 ^ (-e).toNat = (2 : ℚ) ^ e := by
  rcases Int.le_total 0 e with he | he
  · rw [Int.toNat_of_nonpos (by omega : -e ≤ 0), pow_zero, div_one, ← zpow_natCast, Int.toNat_of_nonneg he]
  · rw [Int.toNat_of_nonpos he, pow_zero, one_div, ← zpow_natCast, Int.toNat_of_nonneg (by omega), zpow_neg, inv_inv]

theorem scaledTerms_den_pos {den : Nat} (hden : 0 < den) (num : Nat) (e : Int) : 0 < (scaledTerms num den e).2 := by
  simp only [scaledTerms]
  positivity

theorem scaledTerms_ratio (num den : Nat) (e : Int) :
    ((scaledTerms num den e).1 : ℚ) / (scaledTerms num den e).2 = num / den * (2 : ℚ) ^ (-e) := by
  have h := two_pow_toNat_div (-e)
  rw [neg_neg] at h
  rw [← h]
  simp only [scaledTerms]
  push_cast
  rw [mul_div_mul_comm]

theorem ratio_eq_scaled (num den : Nat) (e : Int) :
    (num : ℚ) / den = (scaledTerms num den e).1 / (scaledTerms num den e).2 * (2 : ℚ) ^ e := by
  rw [scaledTerms_ratio, mul_assoc, ← zpow_add₀ two_ne_zero, neg_add_cancel, zpow_zero, mul_one]

/-- The bit lengths of numerator and denominator place their quotient between two powers of two. -/
theorem ratio_between {num den : Nat} (hnum : 0 < num) (hden : 0 < den) :
    (2 : ℚ) ^ ((Nat.log2 num : Int) - Nat.log2 den - 1) ≤ num / den ∧
      (num : ℚ) / den < (2 : ℚ) ^ ((Nat.log2 num : Int) - Nat.log2 den + 1) := by
  have hn : (2 : ℚ) ^ (Nat.log2 num : Int) ≤ num := by exact_mod_cast Nat.log2_self_le hnum.ne'
  have hn' : (num : ℚ) < (2 : ℚ) ^ ((Nat.log2 num : Int) + 1) := by exact_mod_cast Nat.lt_log2_self (n := num)
  have hd : (2 : ℚ) ^ (Nat.log2 den : Int) ≤ den := by exact_mod_cast Nat.log2_self_le hden.ne'
  have hd' : (den : ℚ) < (2 : ℚ) ^ ((Nat.log2 den : Int) + 1) := by exact_mod_cast Nat.lt_log2_self (n := den)
  have hpos : (0 : ℚ) < den := by exact_mod_cast hden
  constructor
  · rw [le_div_iff₀ hpos]
    calc (2 : ℚ) ^ ((Nat.log2 num : Int) - Nat.log2 den - 1) * den
        ≤ (2 : ℚ) ^ ((Nat.log2 num : Int) - Nat.log2 den - 1) * 2 ^ ((Nat.log2 den : Int) + 1) := by gcongr
      _ = (2 : ℚ) ^ (Nat.log2 num : Int) := by
        rw [← zpow_add₀ two_ne_zero]
        congr 1
        omega
      _ ≤ num := hn
  · rw [div_lt_iff₀ hpos]
    calc (num : ℚ) < (2 : ℚ) ^ ((Nat.log2 num : Int) + 1) := hn'
      _ = (2 : ℚ) ^ ((Nat.log2 num : Int) - Nat.log2 den + 1) * 2 ^ (Nat.log2 den : Int) := by
        rw [← zpow_add₀ two_ne_zero]
        congr 1
        omega
      _ ≤ (2 : ℚ) ^ ((Nat.log2 num : Int) - Nat.log2 den + 1) * den := by gcongr

/-- Scaled to a place, a rational lies below a power of two when it lies below that power of the place. -/
theorem scaledTerms_lt_iff {num den : Nat} (hden : 0 < den) (e : Int) (b : Nat) :
    (scaledTerms num den e).1 < (scaledTerms num den e).2 * 2 ^ b ↔ (num : ℚ) / den < (2 : ℚ) ^ (e + b) := by
  have hpos : (0 : ℚ) < (scaledTerms num den e).2 := by exact_mod_cast scaledTerms_den_pos hden num e
  rw [ratio_eq_scaled num den e, add_comm e, zpow_add₀ two_ne_zero, zpow_natCast,
    mul_lt_mul_iff_left₀ (by positivity), div_lt_iff₀' hpos]
  exact_mod_cast Iff.rfl

/-- `roundExp` is the place at which the rational has 53 bits, or the smallest place, at which it has fewer. -/
theorem roundExp_spec {num den : Nat} (hnum : 0 < num) (hden : 0 < den) :
    -1074 ≤ roundExp num den ∧ (num : ℚ) / den < (2 : ℚ) ^ (roundExp num den + 53) ∧
      (roundExp num den = -1074 ∨ (2 : ℚ) ^ (roundExp num den + 52) ≤ num / den) := by
  obtain ⟨hlow, hhigh⟩ := ratio_between hnum hden
  have hmono {a b : Int} (h : a ≤ b) : (2 : ℚ) ^ a ≤ (2 : ℚ) ^ b := zpow_le_zpow_right₀ one_le_two h
  have hexact : ∃ e : Int, roundExp num den = max (-1074) e ∧ (2 : ℚ) ^ (e + 52) ≤ num / den ∧
      (num : ℚ) / den < (2 : ℚ) ^ (e + 53) := by
    have hcmp := scaledTerms_lt_iff (num := num) hden ((Nat.log2 num : Int) - Nat.log2 den - 52) 52
    refine ⟨_, rfl, ?_⟩
    split
    · rename_i hlt
      exact ⟨le_trans (hmono (by omega)) hlow, (hcmp.mp hlt).trans_le (hmono (by omega))⟩
    · rename_i hge
      exact ⟨not_lt.mp (hcmp.not.mp hge), hhigh.trans_le (hmono (by omega))⟩
  obtain ⟨e, he, h52, h53⟩ := hexact
  rw [he]
  refine ⟨le_max_left _ _, h53.trans_le (hmono (by omega)), ?_⟩
  rcases Int.le_total e (-1074) with hle | hle
  · exact .inl (max_eq_left hle)
  · exact .inr (by rwa [max_eq_right hle])

/-! ### The rounded magnitude is the nearest one -/

/-- Scaling by a place scales the distances. -/
theorem abs_mul_place_sub (x a : ℚ) (k : Nat) :
    |x * (2 : ℚ) ^ ((k : Int) - 1074) - a * (2 : ℚ) ^ ((k : Int) - 1074)|
      = |x - a| * (2 : ℚ) ^ ((k : Int) - 1074) := by
  rw [← sub_mul, abs_mul, abs_of_pos (a := (2 : ℚ) ^ _) (by positivity)]

/-- A magnitude below the places of `k` is farther from a quotient of 53 bits than the rounded quotient. -/
theorem near_lt_of_below {num den k j : Nat} (hden : 0 < den) (h52 : ((2 ^ 52 : Nat) : ℚ) ≤ num / den)
    (hj : j < (k + 1) * 2 ^ 52) :
    |(roundHalfEven num den : ℚ) - num / den| * (2 : ℚ) ^ ((k : Int) - 1074)
      < |magValue j - num / den * (2 : ℚ) ^ ((k : Int) - 1074)| := by
  have hbelow : magValue j < ((2 ^ 52 : Nat) : ℚ) * (2 : ℚ) ^ ((k : Int) - 1074) := by
    rw [← magValue_block (k := k) (m := 2 ^ 52) (by decide) (.inr le_rfl)]
    exact magValue_strictMono (by omega)
  have hscaled : ((2 ^ 52 : Nat) : ℚ) * (2 : ℚ) ^ ((k : Int) - 1074) ≤ num / den * (2 : ℚ) ^ ((k : Int) - 1074) :=
    mul_le_mul_of_nonneg_right h52 (by positivity)
  calc |(roundHalfEven num den : ℚ) - num / den| * (2 : ℚ) ^ ((k : Int) - 1074)
      ≤ |((2 ^ 52 : Nat) : ℚ) - num / den| * (2 : ℚ) ^ ((k : Int) - 1074) :=
        mul_le_mul_of_nonneg_right (roundHalfEven_nearest num hden _).1 (by positivity)
    _ = |((2 ^ 52 : Nat) : ℚ) * (2 : ℚ) ^ ((k : Int) - 1074) - num / den * (2 : ℚ) ^ ((k : Int) - 1074)| :=
        (abs_mul_place_sub _ _ k).symm
    _ < |magValue j - num / den * (2 : ℚ) ^ ((k : Int) - 1074)| := by
        rw [abs_of_nonpos (sub_nonpos.mpr hscaled), abs_of_neg (sub_neg.mpr (hbelow.trans_le hscaled))]
        exact neg_lt_neg (sub_lt_sub_right hbelow _)

/-- Rounding the quotient at a place gives the nearest magnitude, when the place is the right one. -/
theorem isNearestEven_of_place {num den k : Nat} (hden : 0 < den) (hhigh : (num : ℚ) / den < ((2 ^ 53 : Nat) : ℚ))
    (hlow : k = 0 ∨ ((2 ^ 52 : Nat) : ℚ) ≤ num / den) :
    IsNearestEven (num / den * (2 : ℚ) ^ ((k : Int) - 1074)) (roundHalfEven num den + k * 2 ^ 52) := by
  have hvalue : magValue (roundHalfEven num den + k * 2 ^ 52)
      = roundHalfEven num den * (2 : ℚ) ^ ((k : Int) - 1074) := by
    rw [Nat.add_comm]
    exact magValue_block (roundHalfEven_le hden hhigh.le) (hlow.imp_right (le_roundHalfEven hden))
  have hparity : (roundHalfEven num den + k * 2 ^ 52) % 2 = roundHalfEven num den % 2 := by omega
  intro j
  rw [hvalue, abs_mul_place_sub, hparity]
  by_cases hj : k = 0 ∨ (k + 1) * 2 ^ 52 ≤ j
  · obtain ⟨i, hi⟩ := exists_magValue_eq_mul hj
    obtain ⟨hnear, heven⟩ := roundHalfEven_nearest num hden i
    rw [hi, abs_mul_place_sub]
    refine ⟨mul_le_mul_of_nonneg_right hnear (by positivity), fun htie hne => ?_⟩
    refine heven (mul_right_cancel₀ (by positivity) htie) ?_
    rintro rfl
    exact hne (magValue_strictMono.injective (hi.trans hvalue.symm))
  · rw [not_or] at hj
    have hfar := near_lt_of_below (k := k) hden (hlow.resolve_left hj.1) (Nat.not_le.mp hj.2)
    exact ⟨hfar.le, fun htie => absurd htie hfar.ne⟩

theorem roundMagnitude_of_ne_zero {num : Nat} (h : num ≠ 0) (den : Nat) :
    roundMagnitude num den = min infMagnitude
      (roundHalfEven (scaledTerms num den (roundExp num den)).1 (scaledTerms num den (roundExp num den)).2
        + (roundExp num den + 1074).toNat * 2 ^ 52) := by
  simp only [roundMagnitude, if_neg h, infMagnitude]

/-- `roundMagnitude` gives the nearest magnitude, ties to even, cut off at infinity. -/
theorem roundMagnitude_spec (num : Nat) {den : Nat} (hden : 0 < den) :
    ∃ n, roundMagnitude num den = min infMagnitude n ∧ IsNearestEven (num / den) n := by
  rcases Nat.eq_zero_or_pos num with rfl | hnum
  · exact ⟨0, by simp [roundMagnitude], by simpa using isNearestEven_zero⟩
  · obtain ⟨hmin, h53, h52⟩ := roundExp_spec hnum hden
    refine ⟨_, roundMagnitude_of_ne_zero hnum.ne' den, ?_⟩
    have hplace : (((roundExp num den + 1074).toNat : Nat) : Int) - 1074 = roundExp num den := by omega
    rw [ratio_eq_scaled num den (roundExp num den)] at h53 h52 ⊢
    rw [zpow_add₀ two_ne_zero, mul_comm, mul_lt_mul_iff_right₀ (by positivity)] at h53
    rw [zpow_add₀ two_ne_zero, mul_comm ((2 : ℚ) ^ roundExp num den), mul_le_mul_iff_left₀ (by positivity)] at h52
    have hnearest := isNearestEven_of_place (k := (roundExp num den + 1074).toNat)
      (scaledTerms_den_pos hden num (roundExp num den)) (by exact_mod_cast h53)
      (h52.imp (fun h => by omega) (fun h => by exact_mod_cast h))
    rwa [hplace] at hnearest

theorem roundMagnitude_le (num den : Nat) : roundMagnitude num den ≤ infMagnitude := by
  unfold roundMagnitude
  split
  · exact Nat.zero_le _
  · exact Nat.min_le_left _ _

theorem roundMagnitude_mono {a b c d : Nat} (hb : 0 < b) (hd : 0 < d) (h : (a : ℚ) / b ≤ c / d) :
    roundMagnitude a b ≤ roundMagnitude c d := by
  obtain ⟨m, hm, hmq⟩ := roundMagnitude_spec a hb
  obtain ⟨n, hn, hnq⟩ := roundMagnitude_spec c hd
  rw [hm, hn]
  exact min_le_min_left _ (hmq.mono hnq h)

/-- A value that has a finite pattern is not changed by rounding. -/
theorem roundMagnitude_of_value {num den n : Nat} (hden : 0 < den) (h : magValue n = num / den)
    (hn : n ≤ infMagnitude) : roundMagnitude num den = n := by
  obtain ⟨R, hR, hRq⟩ := roundMagnitude_spec num hden
  rw [hR, hRq.eq_of_value h, Nat.min_eq_right hn]

/-- Natural numbers of at most 53 bits are exact. -/
theorem magValue_roundMagnitude {m : Nat} (hm : m ≤ 2 ^ 53) :
    roundMagnitude m 1 < infMagnitude ∧ magValue (roundMagnitude m 1) = m := by
  obtain ⟨n, hn⟩ := exists_magValue_eq_natCast hm
  have hbound : magValue (1074 * 2 ^ 52 + 2 ^ 53) = 2 ^ 53 := by
    rw [magValue_block le_rfl (.inr (by decide)), Nat.cast_ofNat, sub_self, zpow_zero, mul_one, Nat.cast_pow,
      Nat.cast_ofNat]
  have hle : n ≤ 1074 * 2 ^ 52 + 2 ^ 53 := by
    rw [← magValue_strictMono.le_iff_le, hn, hbound]
    exact_mod_cast hm
  have hlt : n < infMagnitude := by
    unfold infMagnitude
    omega
  rw [roundMagnitude_of_value one_pos (by rw [hn, Nat.cast_one, div_one]) hlt.le]
  exact ⟨hlt, hn⟩

end Sys2Proof.Machine
end

section
/-! ## The arithmetic on patterns (41_real.md R143) -/

namespace Sys2Proof.Machine

/-! ### The sign -/

theorem signFactor_xor (a b : Bool) : signFactor (a ^^ b) = signFactor a * signFactor b := by
  cases a <;> cases b <;> simp [signFactor]

theorem signFactor_div (a b : Bool) : signFactor a / signFactor b = signFactor (a ^^ b) := by
  cases a <;> cases b <;> simp [signFactor]

theorem abs_signFactor (a : Bool) : |signFactor a| = 1 := by
  cases a <;> simp [signFactor]

theorem signFactor_of_ne {a b : Bool} (h : a ≠ b) : signFactor a = -signFactor b := by
  cases a <;> cases b <;> simp_all [signFactor]

theorem abs_signFactor_mul (a : Bool) (x : ℚ) : |signFactor a * x| = |x| := by
  rw [abs_mul, abs_signFactor, one_mul]

theorem abs_realValue (x : Word) : |realValue x| = magValue (magnitude x) := by
  rw [realValue_eq, abs_signFactor_mul, abs_of_nonneg (magValue_nonneg _)]

/-! ### The rounded pattern -/

section
variable (neg : Bool) (num den : Nat)

theorem toNat_roundReal :
    (roundReal neg num den).toNat = roundMagnitude num den + if neg then 2 ^ 63 else 0 := by
  have hle : roundMagnitude num den ≤ 0x7FF * 2 ^ 52 := roundMagnitude_le num den
  rw [roundReal, BitVec.toNat_ofNat]
  cases neg <;> simp <;> omega

@[simp] theorem magnitude_roundReal : magnitude (roundReal neg num den) = roundMagnitude num den := by
  have hle : roundMagnitude num den ≤ 0x7FF * 2 ^ 52 := roundMagnitude_le num den
  rw [magnitude, toNat_roundReal]
  cases neg <;> simp <;> omega

@[simp] theorem fneg_roundReal : fneg (roundReal neg num den) = neg := by
  have hle : roundMagnitude num den ≤ 0x7FF * 2 ^ 52 := roundMagnitude_le num den
  rw [fneg_eq, toNat_roundReal]
  cases neg <;> simp
  omega

theorem realValue_roundReal :
    realValue (roundReal neg num den) = signFactor neg * magValue (roundMagnitude num den) := by
  rw [realValue_eq, fneg_roundReal, magnitude_roundReal]

end

/-- `r` is a finite pattern nearest to `q`, with an even fraction at a tie, or it is not finite (R143). -/
def RoundsTo (r : Word) (q : ℚ) : Prop :=
  isfinite r = true → ∀ z, isfinite z = true →
    |realValue r - q| ≤ |realValue z - q| ∧
      (|realValue r - q| = |realValue z - q| → realValue z ≠ realValue r → ffracField r % 2 = 0)

theorem abs_sub_of_sign_ne {a b : Bool} (hab : a ≠ b) {u x : ℚ} (hu : 0 ≤ u) (hx : 0 ≤ x) :
    |signFactor a * u - signFactor b * x| = u + x := by
  rw [signFactor_of_ne hab, neg_mul, ← neg_add', ← mul_add, abs_neg, abs_signFactor_mul, abs_of_nonneg (by linarith)]

/-- The nearest magnitude is also the nearest pattern: one of the other sign is no nearer than zero is. -/
theorem roundsTo_roundReal (neg : Bool) (num : Nat) {den : Nat} (hden : 0 < den) :
    RoundsTo (roundReal neg num den) (signFactor neg * (num / den)) := by
  intro hfin z _
  obtain ⟨n, hmag, hnear⟩ := roundMagnitude_spec num hden
  have hn : roundMagnitude num den = n := by
    rw [isfinite_iff, magnitude_roundReal] at hfin
    omega
  have hfrac : ffracField (roundReal neg num den) % 2 = n % 2 := by
    rw [ffracField_eq, magnitude_roundReal, hn]
    omega
  have hx : (0 : ℚ) ≤ num / den := by positivity
  have hz := magValue_nonneg (magnitude z)
  rw [hfrac, realValue_roundReal, hn, ← mul_sub, abs_signFactor_mul, realValue_eq z]
  generalize (num : ℚ) / den = x at *
  by_cases hsign : fneg z = neg
  · obtain ⟨hle, heven⟩ := hnear (magnitude z)
    rw [hsign, ← mul_sub, abs_signFactor_mul]
    exact ⟨hle, fun htie hne => heven htie fun h => hne (by rw [h])⟩
  · obtain ⟨hle, heven⟩ := hnear 0
    rw [magValue_zero, zero_sub, abs_neg, abs_of_nonneg hx] at hle heven
    rw [abs_sub_of_sign_ne hsign hz hx]
    refine ⟨by linarith, fun htie hne => heven (by linarith) fun h0 => hne ?_⟩
    have hz0 : magValue (magnitude z) = 0 := by linarith
    rw [hz0, ← h0, magValue_zero, mul_zero, mul_zero]

/-! ### Products and quotients as one rounding of an exact rational -/

theorem magValue_eq_fsig (x : Word) : magValue (magnitude x) = fsig x * (2 : ℚ) ^ fexp x := by
  rw [fsig_eq, fexp_eq, magValue]

theorem fmul_eq_roundReal (x y : Word) :
    ∃ num den, 0 < den ∧ fmul x y = roundReal (fneg x ^^ fneg y) num den ∧
      (num : ℚ) / den = magValue (magnitude x) * magValue (magnitude y) := by
  refine ⟨_, _, Nat.two_pow_pos _, rfl, ?_⟩
  push_cast
  rw [mul_div_assoc, two_pow_toNat_div, zpow_add₀ two_ne_zero, magValue_eq_fsig, magValue_eq_fsig]
  ring

theorem fdiv_eq_roundReal (x : Word) {y : Word} (hy : fsig y ≠ 0) :
    ∃ num den, 0 < den ∧ fdiv x y = roundReal (fneg x ^^ fneg y) num den ∧
      (num : ℚ) / den = magValue (magnitude x) / magValue (magnitude y) := by
  refine ⟨_, _, Nat.mul_pos (Nat.pos_of_ne_zero hy) (Nat.two_pow_pos _), rfl, ?_⟩
  have hexp : fexp y - fexp x = -(fexp x - fexp y) := by omega
  push_cast
  rw [mul_div_mul_comm, hexp, two_pow_toNat_div, zpow_sub₀ two_ne_zero, magValue_eq_fsig, magValue_eq_fsig,
    mul_div_mul_comm]

theorem signFactor_mul_natAbs (m : Int) : signFactor (decide (m < 0)) * (m.natAbs : ℚ) = m := by
  rw [Nat.cast_natAbs, signFactor]
  by_cases h : m < 0
  · simp [h, abs_of_neg h]
  · simp [h, abs_of_nonneg (Int.not_lt.mp h)]

/-- Settles O28: each of the four operations is one rounding of the exact rational. -/
theorem arithmeticRoundsToNearestEven : Obligations.ArithmeticRoundsToNearestEven := by
  intro r q h
  change RoundsTo r q
  rcases h with ⟨x, y, _, _, rfl, rfl⟩ | ⟨x, y, _, _, hy, rfl, rfl⟩ | ⟨m, _, _, rfl, rfl⟩ | ⟨a, _, _, rfl, rfl⟩
  · obtain ⟨num, den, hden, hr, hq⟩ := fmul_eq_roundReal x y
    rw [hr, realValue_eq x, realValue_eq y, mul_mul_mul_comm, ← signFactor_xor, ← hq]
    exact roundsTo_roundReal _ num hden
  · obtain ⟨num, den, hden, hr, hq⟩ := fdiv_eq_roundReal x hy
    rw [hr, realValue_eq x, realValue_eq y, mul_div_mul_comm, signFactor_div, ← hq]
    exact roundsTo_roundReal _ num hden
  · have h := roundsTo_roundReal (decide (m < 0)) m.natAbs one_pos
    rwa [Nat.cast_one, div_one, signFactor_mul_natAbs] at h
  · have h := roundsTo_roundReal false (10 ^ a) one_pos
    rwa [Nat.cast_one, div_one, signFactor, if_neg Bool.false_ne_true, one_mul, Nat.cast_pow, Nat.cast_ofNat] at h

/-! ### Rounding keeps the order of magnitudes -/

theorem magnitude_fmul_mono {x x' y y' : Word} (hx : magnitude x ≤ magnitude x') (hy : magnitude y ≤ magnitude y') :
    magnitude (fmul x y) ≤ magnitude (fmul x' y') := by
  obtain ⟨a, b, hb, hr, hq⟩ := fmul_eq_roundReal x y
  obtain ⟨c, d, hd, hr', hq'⟩ := fmul_eq_roundReal x' y'
  rw [hr, hr', magnitude_roundReal, magnitude_roundReal]
  refine roundMagnitude_mono hb hd ?_
  rw [hq, hq']
  exact mul_le_mul (magValue_strictMono.monotone hx) (magValue_strictMono.monotone hy) (magValue_nonneg _)
    (magValue_nonneg _)

theorem fsig_eq_zero_iff (x : Word) : fsig x = 0 ↔ magnitude x = 0 := by
  rw [fsig_eq, significand, lastPlace]
  omega

theorem magnitude_fdiv_mono {x x' y y' : Word} (hx : magnitude x ≤ magnitude x') (hy : magnitude y' ≤ magnitude y)
    (hpos : 0 < magnitude y') : magnitude (fdiv x y) ≤ magnitude (fdiv x' y') := by
  obtain ⟨a, b, hb, hr, hq⟩ := fdiv_eq_roundReal x (y := y) ((fsig_eq_zero_iff y).not.mpr (by omega))
  obtain ⟨c, d, hd, hr', hq'⟩ := fdiv_eq_roundReal x' (y := y') ((fsig_eq_zero_iff y').not.mpr (by omega))
  rw [hr, hr', magnitude_roundReal, magnitude_roundReal]
  refine roundMagnitude_mono hb hd ?_
  rw [hq, hq']
  have hpos' : 0 < magValue (magnitude y') := magValue_zero ▸ magValue_strictMono hpos
  exact div_le_div₀ (magValue_nonneg _) (magValue_strictMono.monotone hx) hpos' (magValue_strictMono.monotone hy)

theorem magnitude_fOfInt_mono {m m' : Int} (h : m.natAbs ≤ m'.natAbs) :
    magnitude (fOfInt m) ≤ magnitude (fOfInt m') := by
  rw [fOfInt, fOfInt, magnitude_roundReal, magnitude_roundReal]
  refine roundMagnitude_mono one_pos one_pos ?_
  gcongr

/-- Integers of at most 53 bits are exact. -/
theorem realValue_fOfInt {m : Int} (h : m.natAbs ≤ 2 ^ 53) : realValue (fOfInt m) = m := by
  rw [fOfInt, realValue_roundReal, (magValue_roundMagnitude h).2, signFactor_mul_natAbs]

end Sys2Proof.Machine
end

section
/-! ## The integer part and the test for an integral product (41_real.md R143, R145) -/

namespace Sys2Proof.Machine

theorem truncMagnitude_eq_floor (x : Word) : truncMagnitude x = ⌊magValue (magnitude x)⌋₊ := by
  have hvalue : magValue (magnitude x)
      = ((fsig x * 2 ^ (fexp x).toNat : Nat) : ℚ) / ((2 ^ (-(fexp x)).toNat : Nat) : ℚ) := by
    rw [magValue_eq_fsig, ← two_pow_toNat_div]
    push_cast
    ring
  rw [hvalue, Nat.floor_div_eq_div, truncMagnitude, Nat.shiftLeft_eq, Nat.shiftRight_eq_div_pow]

@[simp] theorem fneg_ftrunc (x : Word) : fneg (ftrunc x) = fneg x := by
  unfold ftrunc
  split
  · rfl
  · exact fneg_roundReal ..

theorem fsig_lt (x : Word) : fsig x < 2 ^ 53 := by
  rw [fsig_eq, significand, lastPlace]
  omega

/-- A pattern whose last place is one or more is a whole number. -/
theorem magValue_of_fexp_nonneg {x : Word} (h : 0 ≤ fexp x) : magValue (magnitude x) = truncMagnitude x := by
  rw [magValue_eq_fsig, truncMagnitude, Int.toNat_of_nonpos (by omega : -(fexp x) ≤ 0), Nat.shiftRight_zero,
    Nat.shiftLeft_eq]
  push_cast
  rw [← zpow_natCast, Int.toNat_of_nonneg h]

theorem truncMagnitude_le_of_fexp_neg {x : Word} (h : fexp x < 0) : truncMagnitude x ≤ 2 ^ 53 := by
  rw [truncMagnitude, Int.toNat_of_nonpos h.le, Nat.shiftLeft_zero, Nat.shiftRight_eq_div_pow]
  exact (Nat.div_le_self _ _).trans (fsig_lt x).le

theorem magValue_ftrunc (x : Word) : magValue (magnitude (ftrunc x)) = truncMagnitude x := by
  unfold ftrunc
  split
  · rename_i h
    exact magValue_of_fexp_nonneg h
  · rename_i h
    rw [magnitude_roundReal]
    exact (magValue_roundMagnitude (truncMagnitude_le_of_fexp_neg (by omega))).2

theorem isfinite_ftrunc {x : Word} (hx : isfinite x = true) : isfinite (ftrunc x) = true := by
  unfold ftrunc
  split
  · exact hx
  · rename_i h
    rw [isfinite_iff, magnitude_roundReal]
    exact (magValue_roundMagnitude (truncMagnitude_le_of_fexp_neg (by omega))).1

theorem intOfF_eq (y : Word) : (intOfF y : ℚ) = signFactor (fneg y) * truncMagnitude y := by
  rw [intOfF, signFactor]
  split <;> simp

/-- The integer part is integral, so taking it again changes nothing. -/
theorem truncMagnitude_ftrunc (x : Word) : truncMagnitude (ftrunc x) = truncMagnitude x := by
  rw [truncMagnitude_eq_floor (ftrunc x), magValue_ftrunc, Nat.floor_natCast]

theorem realValue_ftrunc (x : Word) : realValue (ftrunc x) = signFactor (fneg x) * truncMagnitude x := by
  rw [realValue_eq, fneg_ftrunc, magValue_ftrunc]

/-- The test of the search holds exactly when nothing is cut off (R145). -/
theorem isIntegral_iff (x : Word) : isIntegral x = true ↔ (truncMagnitude x : ℚ) = magValue (magnitude x) := by
  rw [← magValue_ftrunc, magValue_strictMono.injective.eq_iff, isIntegral, feq, Bool.or_eq_true, Bool.and_eq_true,
    beq_iff_eq, beq_iff_eq, beq_iff_eq, fsig_eq_zero_iff, fsig_eq_zero_iff]
  constructor
  · rintro (h | ⟨h, h'⟩)
    · rw [h]
    · rw [h, h']
  · exact fun h => .inl (eq_of_magnitude_eq (fneg_ftrunc x) h)

/-- Settles O29: the integer part of a magnitude is the floor of its value. -/
theorem truncationIsTowardZero : Obligations.TruncationIsTowardZero := by
  intro x hx
  have hfloor := Nat.floor_le (magValue_nonneg (magnitude x))
  have hnext := Nat.lt_floor_add_one (magValue (magnitude x))
  rw [← truncMagnitude_eq_floor] at hfloor hnext
  refine ⟨isfinite_ftrunc hx, fneg_ftrunc x, ?_, ?_, ?_, ?_⟩
  · rw [realValue_ftrunc, intOfF_eq, fneg_ftrunc, truncMagnitude_ftrunc]
  · rw [abs_realValue, abs_realValue, magValue_ftrunc]
    exact hfloor
  · rw [abs_realValue, abs_realValue, magValue_ftrunc]
    linarith
  · have hne : signFactor (fneg x) ≠ 0 := by
      rw [← abs_ne_zero, abs_signFactor]
      exact one_ne_zero
    rw [isIntegral_iff, realValue_ftrunc, realValue_eq, mul_right_inj' hne]

end Sys2Proof.Machine
end

section
/-! ## The search (41_real.md R145, R151) -/

namespace Sys2Proof.Machine

theorem tenfold_zero (x : Word) : tenfold 0 x = x := rfl

theorem tenfold_succ (k : Nat) (x : Word) : tenfold (k + 1) x = fmul (tenfold k x) fTen :=
  Function.iterate_succ_apply' _ k x

theorem tenfold_succ_left (k : Nat) (x : Word) : tenfold (k + 1) x = tenfold k (fmul x fTen) :=
  Function.iterate_succ_apply _ k x

theorem magnitude_tenfold_mono {x y : Word} (h : magnitude x ≤ magnitude y) (k : Nat) :
    magnitude (tenfold k x) ≤ magnitude (tenfold k y) := by
  induction k with
  | zero => exact h
  | succ k ih =>
    rw [tenfold_succ, tenfold_succ]
    exact magnitude_fmul_mono ih le_rfl

/-- From 2^52 up every pattern is integral. -/
theorem isIntegral_of_le_magnitude {x : Word} (h : 1075 * 2 ^ 52 ≤ magnitude x) : isIntegral x = true := by
  have hexp : 0 ≤ fexp x := by
    rw [fexp_eq, lastPlace]
    omega
  rw [isIntegral_iff, magValue_of_fexp_nonneg hexp]

theorem isIntegral_of_magnitude_zero {x : Word} (h : magnitude x = 0) : isIntegral x = true := by
  rw [isIntegral_iff, truncMagnitude_eq_floor, h, magValue_zero, Nat.floor_zero, Nat.cast_zero]

/-- The smallest positive pattern reaches 2^52 within 339 multiplications (R151). -/
theorem le_magnitude_tenfold_smallest : 1075 * 2 ^ 52 ≤ magnitude (tenfold 339 1) := by decide +kernel

theorem exists_isIntegral_tenfold (x : Word) : ∃ k ≤ 339, isIntegral (tenfold k x) = true := by
  rcases Nat.eq_zero_or_pos (magnitude x) with h0 | hpos
  · exact ⟨0, Nat.zero_le _, isIntegral_of_magnitude_zero h0⟩
  · exact ⟨339, le_rfl, isIntegral_of_le_magnitude
      (le_magnitude_tenfold_smallest.trans (magnitude_tenfold_mono (show magnitude 1 ≤ magnitude x from hpos) 339))⟩

/-- Settles O30: the first of the integral products, one of which comes within 339 multiplications. -/
theorem unboundedSearchEnds : Obligations.UnboundedSearchEnds := by
  intro x _
  obtain ⟨k, hk, hint⟩ := exists_isIntegral_tenfold x
  have hex : ∃ k, isIntegral (tenfold k x) = true := ⟨k, hint⟩
  exact ⟨Nat.find hex, (Nat.find_min' hex hint).trans hk,
    fun j hj => Bool.eq_false_iff.mpr (Nat.find_min hex hj), Nat.find_spec hex⟩

end Sys2Proof.Machine
end

section
/-! ## The real of a decoded pair (41_real.md R162) -/

namespace Sys2Proof.Machine

/-- The multipliers of the exponents that a pair carries lie between those of the least and the greatest. -/
theorem multiplier_between :
    ∀ a ≤ 64, magnitude (multiplier 0) ≤ magnitude (multiplier a) ∧
      magnitude (multiplier a) ≤ magnitude (multiplier 64) := by
  decide +kernel

/-- The largest real that a decoded pair can give, before and after its one multiplication. -/
theorem extreme_reals_finite :
    isfinite (fOfInt (-2 ^ 63)) = true ∧ isfinite (fmul (fOfInt (-2 ^ 63)) (multiplier 64)) = true ∧
      isfinite (fdiv (fOfInt (-2 ^ 63)) (multiplier 0)) = true := by
  decide +kernel

theorem isfinite_of_magnitude_le {x y : Word} (h : magnitude x ≤ magnitude y) (hy : isfinite y = true) :
    isfinite x = true :=
  isfinite_iff.mpr (h.trans_lt (isfinite_iff.mp hy))

theorem isfinite_d2r {m e : Int} (hm : m.natAbs ≤ 2 ^ 63) (he : e.natAbs ≤ 64) : isfinite (d2r m e) = true := by
  obtain ⟨hint, hmul, hdiv⟩ := extreme_reals_finite
  obtain ⟨hlow, hhigh⟩ := multiplier_between e.natAbs he
  have hm' : magnitude (fOfInt m) ≤ magnitude (fOfInt (-2 ^ 63)) := magnitude_fOfInt_mono hm
  unfold d2r
  split
  · exact isfinite_of_magnitude_le hm' hint
  · split
    · exact isfinite_of_magnitude_le (magnitude_fmul_mono hm' hhigh) hmul
    · exact isfinite_of_magnitude_le (magnitude_fdiv_mono hm' hlow (by decide)) hdiv

theorem fneg_multiplier (a : Nat) : fneg (multiplier a) = false := by
  have small : ∀ a < 9, fneg (multiplier a) = false := by decide +kernel
  by_cases h : a < 9
  · exact small a h
  · rw [multiplier, if_neg h, pow10, fneg_roundReal]

theorem roundReal_zero (den : Nat) : roundReal false 0 den = 0 := by
  simp [roundReal, roundMagnitude]

theorem fOfInt_zero : fOfInt 0 = 0 := roundReal_zero 1

theorem fmul_zero_of_pos {y : Word} (h : fneg y = false) : fmul 0 y = 0 := by
  have hsig : fsig 0 = 0 := rfl
  have hneg : fneg 0 = false := rfl
  rw [fmul, hsig, hneg, h, roundScaled, Nat.zero_mul, Nat.zero_mul]
  exact roundReal_zero _

theorem fdiv_zero_of_pos {y : Word} (h : fneg y = false) : fdiv 0 y = 0 := by
  have hsig : fsig 0 = 0 := rfl
  have hneg : fneg 0 = false := rfl
  rw [fdiv, hsig, hneg, h, Nat.zero_mul]
  exact roundReal_zero _

theorem d2r_zero (e : Int) : d2r 0 e = 0 := by
  have hneg := fneg_multiplier e.natAbs
  unfold d2r
  rw [fOfInt_zero]
  split
  · rfl
  · split
    · exact fmul_zero_of_pos hneg
    · exact fdiv_zero_of_pos hneg

/-- The repeated products by ten are the patterns of the powers of ten they stand for. -/
theorem multiplier_eq_fOfInt : ∀ a < 9, multiplier a = fOfInt (10 ^ a) ∧ (10 ^ a : Int).natAbs ≤ 2 ^ 53 := by
  decide +kernel

/-- Settles O38: every real of a pair is below one of three extreme ones, which are finite. -/
theorem decodedRealIsFinite : Obligations.DecodedRealIsFinite := by
  refine ⟨fun m e hlo hhi helo hehi => isfinite_d2r (by omega) (by omega), d2r_zero, fun a ha => ?_⟩
  obtain ⟨hmul, hexact⟩ := multiplier_eq_fOfInt a ha
  rw [hmul, realValue_fOfInt hexact]
  push_cast
  rfl

end Sys2Proof.Machine
end

section
/-! ## `ENCR` and `ENCR.U` (41_real.md R142, R145 to R151, R168) -/

namespace Sys2Proof.Machine

/-! ### Where the search ends -/

/-- `search` gives the first integral product, or the last one it is allowed (R145). -/
theorem search_eq {p n : Nat} {x : Word} (k : Nat) (hbefore : ∀ j < n, isIntegral (tenfold j x) = false)
    (hn : n ≤ p) (hend : isIntegral (tenfold n x) = true ∨ n = p) : search p k x = (k + n, tenfold n x) := by
  induction p generalizing k n x with
  | zero =>
    obtain rfl : n = 0 := Nat.le_zero.mp hn
    rfl
  | succ p ih =>
    cases n with
    | zero =>
      have hint : isIntegral x = true := hend.resolve_right (Nat.succ_ne_zero p).symm
      rw [search, if_pos hint, tenfold_zero, Nat.add_zero]
    | succ n =>
      have hfirst : isIntegral x = false := hbefore 0 (Nat.succ_pos n)
      have hbefore' : ∀ j < n, isIntegral (tenfold j (fmul x fTen)) = false := fun j hj => by
        rw [← tenfold_succ_left]
        exact hbefore (j + 1) (by omega)
      rw [tenfold_succ_left] at hend ⊢
      rw [search, hfirst, if_neg Bool.false_ne_true, ih (k + 1) hbefore' (by omega) (hend.imp_right (by omega)),
        Nat.add_assoc, Nat.add_comm 1]

/-- The model's limit for "no limit" lies beyond the end of every search (R151; log entry 6). -/
theorem le_unboundedSearch_of_searchEnds {x : Word} {k : Nat} (h : searchEnds none x k) : k ≤ unboundedSearch := by
  obtain ⟨j, hj, hint⟩ := exists_isIntegral_tenfold x
  refine le_trans ?_ (show 339 ≤ unboundedSearch by decide)
  by_contra hlt
  have hfalse := h.1 j (by omega)
  rw [hint] at hfalse
  cases hfalse

theorem search_of_searchEnds {limit : Option Nat} {x : Word} {k : Nat} (h : searchEnds limit x k) :
    search (searchLimit limit) 0 x = (k, tenfold k x) := by
  have hsearch : search (searchLimit limit) 0 x = (0 + k, tenfold k x) := by
    cases limit with
    | none => exact search_eq 0 h.1 (le_unboundedSearch_of_searchEnds h) (.inl h.2)
    | some p =>
      obtain ⟨hbefore, hle, hend⟩ := h
      exact search_eq 0 hbefore hle hend
  rwa [Nat.zero_add] at hsearch

/-! ### The command on a finite value -/

section
variable {s : State} {limit : Option Nat} {k : Nat}

theorem encodeReal_of_outside (hfin : isfinite s.rval = true) (hsearch : searchEnds limit s.rval k)
    (hout : intOfF (ftrunc (tenfold k s.rval)) < -2 ^ 63 ∨ 2 ^ 63 ≤ intOfF (ftrunc (tenfold k s.rval))) :
    encodeReal (searchLimit limit) s = .next (raised .realRange 0 s) := by
  refine encodeReal_next.mpr (.inr (.inl ⟨hfin, ?_, rfl⟩))
  rw [search_of_searchEnds hsearch]
  exact outsideSigned_iff.mpr hout

theorem encodeReal_of_range (hfin : isfinite s.rval = true) (hsearch : searchEnds limit s.rval k)
    (hlo : -2 ^ 63 ≤ intOfF (ftrunc (tenfold k s.rval))) (hhi : intOfF (ftrunc (tenfold k s.rval)) < 2 ^ 63) :
    encodeReal (searchLimit limit) s = emitPair (intOfF (ftrunc (tenfold k s.rval))) (-k) s := by
  have hin : outsideSigned Config.mantW (intOfF (ftrunc (tenfold k s.rval))) = false :=
    outsideSigned_eq_false_iff.mpr ⟨hlo, hhi⟩
  simp only [encodeReal, hfin, search_of_searchEnds hsearch, hin, if_true, Bool.false_eq_true, if_false]

end

theorem exec_encr_eq_encodeReal {i : Instr} {limit : Option Nat}
    (h : (∃ p, i = .encr p ∧ limit = some p) ∨ (i = .encrU ∧ limit = none)) (s : State) :
    exec i s = encodeReal (searchLimit limit) s := by
  rcases h with ⟨p, rfl, rfl⟩ | ⟨rfl, rfl⟩ <;> rfl

/-- Settles O32: the search, the range of the truncated product, then `emitPair`. -/
theorem encrFiniteResult : Obligations.EncrFiniteResult := by
  intro i limit s k m e hi hfin hsearch hcanon
  rw [exec_encr_eq_encodeReal hi]
  refine ⟨fun hout => ?_, fun hlo hhi => ?_⟩
  · rw [encodeReal_of_outside hfin hsearch hout]
    rfl
  · rw [encodeReal_of_range hfin hsearch hlo hhi]
    exact emitPair_result hlo hhi hcanon

/-! ### The command on a NaN or an infinity -/

theorem encodeReal_of_not_finite {s : State} (h : isfinite s.rval = false) (limit : Nat) :
    encodeReal limit s = emitAll [nonFiniteByte] true id s := by
  rw [encodeReal, h, if_neg Bool.false_ne_true]

/-- Settles O33: the one byte for every non-finite value, all or nothing. -/
theorem encrNonFiniteResult : Obligations.EncrNonFiniteResult := by
  intro i s hi hfield
  have hfin : isfinite s.rval = false := by
    rw [isfinite, fexpField, hfield]
    rfl
  have hrun : exec i s = emitAll [nonFiniteByte] true id s := by
    rcases hi with ⟨p, rfl⟩ | rfl
    · exact encodeReal_of_not_finite hfin _
    · exact encodeReal_of_not_finite hfin _
  rw [hrun]
  refine ⟨fun hroom => ?_, fun hfull => ?_⟩
  · rw [emitAll_of_room (by simpa using hroom)]
    rfl
  · rw [emitAll_of_full (by simp [hfull]), raised_of_not_sticky rfl]
    rfl

/-! ### What is in the registers afterwards -/

theorem encodeReal_ok_registers {limit : Nat} {s t : State} (h : encodeReal limit s = .next t)
    (hok : t.codeField = codeNumber .ok) (hnf : t.nf = false) :
    canonicalMantissa t.mant.toInt ∧ t.outq = s.outq ++ pairBytes t.mant.toInt t.expo.toInt := by
  rcases encodeReal_next.mp h with ⟨_, hemit⟩ | ⟨_, _, rfl⟩ | ⟨_, hrange, hemit⟩
  · rw [eq_finished_of_emitAll_ok hemit hok, finished_nf] at hnf
    cases hnf
  · exact absurd hok (raised_ne_ok (by decide))
  · obtain ⟨hlo, hhi⟩ := outsideSigned_eq_false_iff.mp hrange
    exact emitPair_ok_registers hlo hhi hemit hok

/-- 100.0 is integral at once, and its canonical pair is (1, 2). -/
theorem searchEnds_hundred : searchEnds (some 9) 0x4059000000000000 0 :=
  ⟨fun _ hj => absurd hj (Nat.not_lt_zero _), Nat.zero_le _, .inl (by decide +kernel)⟩

theorem intOfF_hundred : intOfF (ftrunc (tenfold 0 0x4059000000000000)) = 100 := by decide +kernel

/-- Settles O40: the three commands end in `emitPair` on a 64-bit mantissa. -/
theorem encodedMantissaIsCanonical : Obligations.EncodedMantissaIsCanonical := by
  refine ⟨fun i s t hi h hok hnf => ?_, ?_⟩
  · rcases hi with ⟨p, rfl⟩ | rfl | rfl
    · exact encodeReal_ok_registers h hok hnf
    · exact encodeReal_ok_registers h hok hnf
    · obtain ⟨hlo, hhi⟩ := word_toInt_range s.mant
      exact emitPair_ok_registers hlo hhi h hok
  · obtain ⟨_, hrange⟩ := encrFiniteResult (.encr 9) (some 9) { State.reset with rval := 0x4059000000000000 } 0 1 2
      (.inl ⟨9, rfl, rfl⟩) (by decide) searchEnds_hundred ⟨.inr (by decide), 2, intOfF_hundred, by decide, by decide⟩
    obtain ⟨_, _, hsent⟩ := hrange (by rw [intOfF_hundred]; decide) (by rw [intOfF_hundred]; decide)
    have hroom : 32 ≤ outRoom { State.reset with rval := 0x4059000000000000 } := outRoom_of_empty rfl
    have hlen := (pairBytes_length 1 2).2
    exact ⟨_, hsent (by decide) (by decide) (by omega), rfl, rfl⟩

end Sys2Proof.Machine
end

section
/-! ## A real sent and read back (41_real.md R167) -/

namespace Sys2Proof.Machine

/-- The integer that the search with at most `p` multiplications truncates to (R145, R149). -/
def searchedInteger (p : Nat) (x : Word) : Int := intOfF (ftrunc (search p 0 x).2)

/-- The pair that `ENCR P=<p>` makes of `x` (R150). -/
def searchedPair (p : Nat) (x : Word) : Int × Int := canon (searchedInteger p x) (-((search p 0 x).1 : Int))

/-- `ENCR P=<p>` can send `x` as a pair (R147, R149). -/
def Sendable (p : Nat) (x : Word) : Prop :=
  isfinite x = true ∧ outsideSigned 64 (searchedInteger p x) = false ∧ expInRange (searchedPair p x).2 = true

section
variable {p : Nat} {s : State} (v : Word)

theorem exec_encr_of_sendable (h : Sendable p s.rval) :
    exec (.encr p) s = emitAll (pairBytes (searchedPair p s.rval).1 (searchedPair p s.rval).2) false
      (setPair (searchedPair p s.rval).1 (searchedPair p s.rval).2) s := by
  obtain ⟨hfin, hrange, hexp⟩ := h
  have hrun : exec (.encr p) s = emitPair (searchedInteger p s.rval) (-((search p 0 s.rval).1 : Int)) s := by
    change encodeReal p s = _
    rw [encodeReal, if_pos hfin]
    dsimp only
    rw [← searchedInteger, if_neg (by rw [Config.mantW, hrange]; exact Bool.false_ne_true)]
  rw [hrun, emitPair]
  rw [← searchedPair, if_pos hexp]

/-- What comes back is `d2r` of the pair that was sent. -/
theorem encr_decr_of_sendable (hin : s.inq = []) (hout : s.outq = []) (h : Sendable p s.rval) :
    ∃ t u, exec (.encr p) s = .next t ∧ exec .decr ((looped t).setRval v) = .next u ∧
      u.rval = d2r (searchedPair p s.rval).1 (searchedPair p s.rval).2 ∧ u.nf = false := by
  have hencr := exec_encr_of_sendable h
  obtain ⟨_, hrange, hexp⟩ := h
  obtain ⟨hlo, hhi⟩ := outsideSigned_eq_false_iff.mp hrange
  have hmant := isCanonOf_range hlo hhi (isCanonOf_canon (-((search p 0 s.rval).1 : Int)) hlo hhi)
  rw [← searchedPair] at hmant
  generalize searchedPair p s.rval = pair at *
  have hroom := outRoom_of_empty hout
  have hlen := (pairBytes_length pair.1 pair.2).2
  refine ⟨_, _, hencr.trans (emitAll_of_room (by omega)), execDecr_next.mpr (.inr (.inr (.inr (.inr
    ⟨pair.1, pair.2, (pairBytes pair.1 pair.2).length, false, ?_, rfl⟩)))), ?_⟩
  · rw [← parseReal_pairBytes hmant (expInRange_iff.mp hexp) []]
    simp [looped, hin, hout]
  · simp

/-- Every non-finite value comes back as the one NaN pattern (R142, R165). -/
theorem encr_decr_of_not_finite (hin : s.inq = []) (hout : s.outq = []) (h : isfinite s.rval = false) :
    ∃ t u, exec (.encr p) s = .next t ∧ exec .decr ((looped t).setRval v) = .next u ∧
      u.rval = Config.nanPattern ∧ u.nf = true := by
  have hroom := outRoom_of_empty hout
  refine ⟨_, _, (encodeReal_of_not_finite h _).trans (emitAll_of_room (by rw [List.length_singleton]; omega)),
    execDecr_next.mpr (.inr (.inr (.inl ⟨?_, rfl⟩))), ?_⟩
  · rw [← parseReal_nonFinite []]
    simp [looped, hin, hout, nonFiniteByte]
  · simp

end

/-- `x` is sent with at most 9 digits, and the pair sent stands for `r`. -/
def Resent (x r : Word) : Prop := Sendable 9 x ∧ d2r (searchedPair 9 x).1 (searchedPair 9 x).2 = r

/-- The finite values of R167 that come back bit for bit. -/
theorem resent_listed :
    ∀ x ∈ ([0x0000000000000000, 0x3FF0000000000000, 0xBFF0000000000000, 0x400921F9F01B866E, 0x40F86A0000000000,
      0x3F1A36E2EB1C432D] : List Word), Resent x x := by
  simp only [List.forall_mem_cons, List.not_mem_nil, false_implies, implies_true, and_true]
  unfold Resent Sendable
  decide +kernel

theorem resent_negative_zero : Resent 0x8000000000000000 0 := by
  unfold Resent Sendable
  decide +kernel

theorem resent_third : Resent 0x3FD5555555555555 0x3FD5555554F9B516 := by
  unfold Resent Sendable
  decide +kernel

/-- Settles O39: a finite value comes back as the real of the pair it was sent as, any other as the NaN pattern. -/
theorem listedRealsRoundTrip : Obligations.ListedRealsRoundTrip := by
  unfold Obligations.ListedRealsRoundTrip
  intro trip
  have hfinite {x r : Word} (h : Resent x r) : trip x = some (r, false) := by
    obtain ⟨hsend, hr⟩ := h
    obtain ⟨t, u, henc, hdec, hrval, hnf⟩ :=
      encr_decr_of_sendable (s := { State.reset with rval := x }) 1 rfl rfl hsend
    simp only [trip, henc, hdec, hrval, hnf, hr]
  have hother (x : Word) (h : isfinite x = false) : trip x = some (Config.nanPattern, true) := by
    obtain ⟨t, u, henc, hdec, hrval, hnf⟩ :=
      encr_decr_of_not_finite (p := 9) (s := { State.reset with rval := x }) 1 rfl rfl h
    simp only [trip, henc, hdec, hrval, hnf]
  exact ⟨fun x hx => hfinite (resent_listed x hx), hother 0x7FF8000000000000 (by decide),
    hother 0x7FF0000000000000 (by decide), hfinite resent_negative_zero, hfinite resent_third⟩

end Sys2Proof.Machine
end

section
/-! ## `SRST` (42_frame_header.md R205, R208; 70_reset_and_hazards.md R290) -/

namespace Sys2Proof.Machine

/-- Settles O2: `SRST` and the reset event both leave `resetBlock`. -/
theorem srstLeavesResetState : Obligations.SrstLeavesResetState := by
  intro s
  refine ⟨rfl, fun t h => ?_⟩
  obtain rfl := execSrst_next.mp h
  exact ⟨rfl, rfl, rfl, rfl, rfl, rfl, rfl, rfl, rfl, rfl⟩

end Sys2Proof.Machine
end

section
/-! ## The decimal rendering of a length (42_frame_header.md R193, R198) -/

namespace Sys2Proof.Machine

/-- The ASCII bytes of a number's base-ten digits, most significant first; none for 0. -/
def asciiDigits (n : Nat) : List Byte := (Nat.digits 10 n).reverse.map fun d => BitVec.ofNat 8 (0x30 + d)

theorem asciiDigits_zero : asciiDigits 0 = [] := by simp [asciiDigits]

theorem asciiDigits_of_pos {n : Nat} (h : 0 < n) : asciiDigits n = asciiDigits (n / 10) ++ [digitByte n] := by
  rw [asciiDigits, Nat.digits_def' (by decide) h, List.reverse_cons, List.map_append]
  rfl

/-- A loop with a division for each digit after the first gives them all. -/
theorem decLoop_eq_asciiDigits {fuel n : Nat} (hpos : 0 < n) (hn : n < 10 ^ (fuel + 1)) :
    decLoop fuel n = asciiDigits n := by
  have hsmall {m : Nat} (hm : 0 < m) (h : m < 10) : [digitByte m] = asciiDigits m := by
    rw [asciiDigits_of_pos hm, Nat.div_eq_of_lt h, asciiDigits_zero, List.nil_append]
  induction fuel generalizing n with
  | zero => exact hsmall hpos hn
  | succ fuel ih =>
    rw [decLoop]
    split
    next h => exact hsmall hpos h
    next h =>
      rw [pow_succ] at hn
      rw [ih (by omega) (by omega), asciiDigits_of_pos hpos]

theorem dec_zero : dec 0 = [0x30] := rfl

theorem dec_eq_asciiDigits {l : Nat} (hpos : 0 < l) (hl : l < 2 ^ 64) : dec l = asciiDigits l :=
  decLoop_eq_asciiDigits hpos (by omega)

theorem asciiDigits_length_le_iff (n w : Nat) : (asciiDigits n).length ≤ w ↔ n < 10 ^ w := by
  rw [asciiDigits, List.length_map, List.length_reverse, Nat.digits_length_le_iff (by decide)]

theorem asciiDigits_head?_ne {n : Nat} (h : n ≠ 0) : (asciiDigits n).head? ≠ some 0x30 := by
  have hne := (Nat.digits_ne_nil_iff_ne_zero (b := 10)).mpr h
  have hlast := Nat.getLast_digit_ne_zero 10 h
  have hlt : (Nat.digits 10 n).getLast hne < 10 := Nat.digits_lt_base (by decide) (List.getLast_mem hne)
  rw [asciiDigits, List.head?_map, List.head?_reverse, List.getLast?_eq_some_getLast hne, Option.map_some, Ne,
    Option.some_inj]
  bv_omega

/-- Settles O42: the loop gives the base-ten digits, of which a 64-bit length has at most 20. -/
theorem renderingIsTheDecimalDigits : Obligations.RenderingIsTheDecimalDigits := by
  refine ⟨dec_zero, fun l hl hpos => ?_⟩
  rw [dec_eq_asciiDigits hpos hl]
  exact ⟨rfl, (asciiDigits_length_le_iff l 20).mpr (by omega), asciiDigits_head?_ne hpos.ne'⟩

theorem dec_length_le {l w : Nat} (hl : l < 2 ^ 64) (hw : 1 ≤ w) (h : l < 10 ^ w) : (dec l).length ≤ w := by
  rcases Nat.eq_zero_or_pos l with rfl | hpos
  · exact hw
  · rw [dec_eq_asciiDigits hpos hl]
    exact (asciiDigits_length_le_iff l w).mpr h

/-- The value of an ASCII digit's byte (R193). -/
theorem asciiDigit_toNat {d : Nat} (hd : d < 10) : (BitVec.ofNat 8 (0x30 + d)).toNat = 0x30 + d := by
  rw [BitVec.toNat_ofNat]
  omega

theorem dec_digits {l : Nat} (hl : l < 2 ^ 64) : ∀ b ∈ dec l, 0x30 ≤ b.toNat ∧ b.toNat ≤ 0x39 := by
  intro b hb
  rcases Nat.eq_zero_or_pos l with rfl | hpos
  · obtain rfl := List.mem_singleton.mp hb
    decide
  · rw [dec_eq_asciiDigits hpos hl, asciiDigits] at hb
    obtain ⟨d, hd, rfl⟩ := List.mem_map.mp hb
    have hlt : d < 10 := Nat.digits_lt_base (by decide) (List.mem_reverse.mp hd)
    rw [asciiDigit_toNat hlt]
    omega

/-- The digits of a length spell the length (R193, R198). -/
theorem spelled_dec {l : Nat} (hl : l < 2 ^ 64) : spelled (dec l) = l := by
  rcases Nat.eq_zero_or_pos l with rfl | hpos
  · rfl
  · have hback : (Nat.digits 10 l).map (fun d => (BitVec.ofNat 8 (0x30 + d)).toNat - 0x30) = Nat.digits 10 l := by
      refine (List.map_congr_left fun d hd => ?_).trans (List.map_id _)
      rw [asciiDigit_toNat (Nat.digits_lt_base (by decide) hd), Nat.add_sub_cancel_left, id]
    rw [dec_eq_asciiDigits hpos hl, spelled, asciiDigits, List.map_map, List.map_reverse, List.reverse_reverse]
    exact (congrArg _ hback).trans (Nat.ofDigits_digits 10 l)

theorem dec_ne_nil {l : Nat} : dec l ≠ [] := by
  unfold dec decLoop
  split <;> simp

end Sys2Proof.Machine
end

section
/-! ## The header encoder `HDRE` (42_frame_header.md R190 to R194) -/

namespace Sys2Proof.Machine

section
variable {s : State}

theorem exec_hdre_compact (hmode : s.fixedAscii = false) :
    exec .hdre s = emitAll (uencode 8 s.val.toNat) false id s := by
  rw [exec, execHdre, hmode, if_neg Bool.false_ne_true]
  rfl

theorem exec_hdre_ascii (hmode : s.fixedAscii = true) (hfits : (dec s.val.toNat).length ≤ s.hwidth) :
    exec .hdre s = emitAll (asciiHeader s.hwidth (dec s.val.toNat)) false id s := by
  rw [exec, execHdre, if_pos hmode, if_neg (Nat.not_lt.mpr hfits)]

end

/-- Settles O43: in FixedAscii mode the digits' test, then in both modes all-or-nothing output. -/
theorem hdreResult : Obligations.HdreResult := by
  refine fun s => ⟨fun hmode => ⟨fun hroom => ?_, fun hfull => ?_⟩,
    fun hmode => ⟨fun hwide => ?_, fun hfits hfull => ?_, fun hfits hroom => ?_⟩⟩
  · rw [exec_hdre_compact hmode, emitAll_of_room hroom]
    rfl
  · rw [exec_hdre_compact hmode, emitAll_of_full hfull, raised_of_not_sticky rfl]
    rfl
  · exact execHdre_next.mpr (.inr (.inl ⟨hmode, hwide, rfl⟩))
  · have hlen := asciiHeader_length hfits
    rw [exec_hdre_ascii hmode hfits, emitAll_of_full (by omega), raised_of_not_sticky rfl]
    rfl
  · have hlen := asciiHeader_length hfits
    rw [exec_hdre_ascii hmode hfits, emitAll_of_room (by omega), hlen, asciiHeader, List.append_assoc]
    rfl

end Sys2Proof.Machine
end

section
/-! ## The header decoder `HDRD` in Compact mode (42_frame_header.md R195 to R197, R202) -/

namespace Sys2Proof.Machine

theorem exec_hdrd_compact {s : State} (hmode : s.fixedAscii = false) :
    exec .hdrd s = decodeUnsigned 64 10 .headerTooLong s := by
  rw [exec, execHdrd, hmode, if_neg Bool.false_ne_true]
  rfl

theorem ofNat_mod_two_pow (n : Nat) : BitVec.ofNat 64 (n % 2 ^ 64) = BitVec.ofNat 64 n := by
  apply BitVec.eq_of_toNat_eq
  simp

/-- Settles O44, by what `scan` answers. -/
theorem hdrdCompactResult : Obligations.HdrdCompactResult := by
  intro s hmode
  rw [exec_hdrd_compact hmode]
  refine ⟨fun f r hq hf hlen => ?_, fun hlen hstop => ?_, fun hlen hstop => ?_⟩
  · rw [← ofNat_mod_two_pow]
    exact decodeUnsigned_of_field hq hf hlen
  · exact decodeUnsigned_next.mpr (.inr (.inl ⟨scan_of_noStop hlen hstop, rfl⟩))
  · exact decodeUnsigned_next.mpr (.inl ⟨scan_of_short_noStop hlen hstop, (raised_of_not_sticky rfl 0 s).symm⟩)

/-- Settles O47: ten of the eleven bytes are the stopless header that O44 refuses. -/
theorem headerBoundRejection : Obligations.HeaderBoundRejection := by
  intro s hmode hlen hstop
  have hten : noStop (s.inq.take 10) = true :=
    noStop_iff.mpr fun b hb => noStop_iff.mp hstop b (List.mem_of_mem_take hb)
  refine ⟨_, (hdrdCompactResult s hmode).2.1 (by omega) hten, codeField_of_status rfl, cnt_of_status (c := 10) rfl, ?_⟩
  rw [List.length_drop, hlen]

end Sys2Proof.Machine
end

section
/-! ## Parsing a FixedAscii header (42_frame_header.md R198) -/

namespace Sys2Proof.Machine

theorem digitsValue_append_singleton (ds : List Byte) (b : Byte) :
    digitsValue (ds ++ [b]) = digitsValue ds * 10 + (b.toNat - 0x30) := by
  simp [digitsValue]

theorem spelled_append_singleton (ds : List Byte) (b : Byte) :
    spelled (ds ++ [b]) = spelled ds * 10 + (b.toNat - 0x30) := by
  simp [spelled, Nat.ofDigits_cons]
  ring

/-- Folding the digits from the left gives the number they spell. -/
theorem digitsValue_eq_spelled (ds : List Byte) : digitsValue ds = spelled ds := by
  induction ds using List.reverseRecOn with
  | nil => rfl
  | append_singleton ds b ih => rw [digitsValue_append_singleton, spelled_append_singleton, ih]

theorem isSpace_iff {b : Byte} : isSpace b = true ↔ b = 0x20 := beq_iff_eq

theorem isDigit_iff {b : Byte} : isDigit b = true ↔ 0x30 ≤ b.toNat ∧ b.toNat ≤ 0x39 := by
  simp [isDigit]

theorem isPad_iff {b : Byte} : isPad b = true ↔ b = 0x00 ∨ b = 0x20 := by
  simp [isPad]

theorem not_isSpace_of_isDigit {b : Byte} (h : isDigit b = true) : ¬ isSpace b = true := by
  intro hspace
  obtain rfl := isSpace_iff.mp hspace
  cases h

theorem not_isDigit_of_isPad {b : Byte} (h : isPad b = true) : ¬ isDigit b = true := by
  rcases isPad_iff.mp h with rfl | rfl <;> decide

/-- A header of the accepted shape is cut where its parts meet: a digit is no space, and a pad byte is no digit. -/
theorem asciiParse_of_shape {h lead digits trail : List Byte} (hshape : asciiShape h lead digits trail) :
    asciiParse h = some (spelled digits) := by
  obtain ⟨rfl, hne, hlead, hdigits, htrail⟩ := hshape
  have hspaces : ∀ b ∈ lead, isSpace b = true := fun b hb => isSpace_iff.mpr (hlead b hb)
  have hdigits' : ∀ b ∈ digits, isDigit b = true := fun b hb => isDigit_iff.mpr (hdigits b hb)
  have hpads : ∀ b ∈ trail, isPad b = true := fun b hb => isPad_iff.mpr (htrail b hb)
  have hfirst : (digits ++ trail).dropWhile isSpace = digits ++ trail := by
    refine List.dropWhile_eq_self_iff.mpr fun _ => ?_
    rw [List.getElem_append_left (List.length_pos_of_ne_nil hne)]
    exact not_isSpace_of_isDigit (hdigits' _ (List.getElem_mem _))
  have hnodigit (hl : 0 < trail.length) : ¬ isDigit trail[0] = true :=
    not_isDigit_of_isPad (hpads _ (List.getElem_mem _))
  have hbody : (lead ++ digits ++ trail).dropWhile isSpace = digits ++ trail := by
    rw [List.append_assoc, List.dropWhile_append_of_pos hspaces, hfirst]
  rw [asciiParse, hbody, List.takeWhile_append_of_pos hdigits', List.dropWhile_append_of_pos hdigits',
    List.takeWhile_eq_nil_iff.mpr hnodigit, List.dropWhile_eq_self_iff.mpr hnodigit, List.append_nil,
    digitsValue_eq_spelled, if_pos ⟨hne, List.all_eq_true.mpr hpads⟩]

/-- Only a header of the accepted shape is parsed: the three parts are where the parser cuts it. -/
theorem shape_of_asciiParse {h : List Byte} {l : Nat} (hparse : asciiParse h = some l) :
    ∃ lead digits trail, asciiShape h lead digits trail := by
  rw [asciiParse] at hparse
  split at hparse
  next hcond =>
    obtain ⟨hne, hpads⟩ := hcond
    refine ⟨h.takeWhile isSpace, (h.dropWhile isSpace).takeWhile isDigit, (h.dropWhile isSpace).dropWhile isDigit,
      ?_, hne, fun b hb => isSpace_iff.mp (List.mem_takeWhile_imp hb),
      fun b hb => isDigit_iff.mp (List.mem_takeWhile_imp hb),
      fun b hb => isPad_iff.mp (List.all_eq_true.mp hpads b hb)⟩
    rw [List.append_assoc, List.takeWhile_append_dropWhile, List.takeWhile_append_dropWhile]
  next => cases hparse

end Sys2Proof.Machine
end

section
/-! ## The header decoder `HDRD` in FixedAscii mode (42_frame_header.md R196, R198, R199, R201) -/

namespace Sys2Proof.Machine

section
variable {s : State} {h r : List Byte} (hmode : s.fixedAscii = true) (hq : s.inq = h ++ r)
  (hlen : h.length = s.hwidth)
include hmode hq hlen

theorem exec_hdrd_ascii_accepted {l : Nat} (hparse : asciiParse h = some l) (hl : l < 2 ^ 64 - 1) :
    exec .hdrd s = .next (finished false false s.hwidth ((s.setVal (BitVec.ofNat 64 l)).setInq r)) := by
  refine execHdrd_next.mpr (.inr (.inr ⟨hmode, by simp [hq, hlen], .inr ⟨l, ?_, hl, ?_⟩⟩))
  · rw [hq, ← hlen, List.take_left, hparse]
  · rw [inDrop, State.setVal_inq, hq, ← hlen, List.drop_left]

theorem exec_hdrd_ascii_refused (hbad : ∀ l, asciiParse h = some l → 2 ^ 64 - 1 ≤ l) :
    exec .hdrd s = .next (raised .badHeader s.hwidth (s.setInq r)) := by
  refine execHdrd_next.mpr (.inr (.inr ⟨hmode, by simp [hq, hlen], .inl ⟨?_, ?_⟩⟩))
  · rwa [hq, ← hlen, List.take_left]
  · rw [inDrop, hq, ← hlen, List.drop_left]

end

/-- Settles O45: the parser takes exactly the accepted shapes, and `HDRD` refuses what it does not take. -/
theorem hdrdAsciiResult : Obligations.HdrdAsciiResult := by
  intro s hmode
  refine ⟨fun hshort => ?_, fun h r hq hlen => ⟨fun lead digits trail hshape hl => ?_,
    fun lead digits trail hshape hl => ?_, fun hnone => ?_⟩⟩
  · exact execHdrd_next.mpr (.inr (.inl ⟨hmode, hshort, (raised_of_not_sticky rfl 0 s).symm⟩))
  · exact exec_hdrd_ascii_accepted hmode hq hlen (asciiParse_of_shape hshape) hl
  · refine exec_hdrd_ascii_refused hmode hq hlen fun l hparse => ?_
    rw [asciiParse_of_shape hshape, Option.some_inj] at hparse
    exact hparse ▸ hl
  · exact exec_hdrd_ascii_refused hmode hq hlen fun l hparse => absurd (shape_of_asciiParse hparse) hnone

end Sys2Proof.Machine
end

section
/-! ## The header round trip (42_frame_header.md R192, R196, R198, R199) -/

namespace Sys2Proof.Machine

/-- What `HDRE` emits for a length has the accepted shape: digits, then NUL (R192, R198). -/
theorem asciiShape_asciiHeader {l w : Nat} (hl : l < 2 ^ 64) :
    asciiShape (asciiHeader w (dec l)) [] (dec l) (List.replicate (w - (dec l).length) Config.padByte) :=
  ⟨rfl, dec_ne_nil, by simp, dec_digits hl, fun _ hb => .inl (List.eq_of_mem_replicate hb)⟩

/-- The header `HDRE` emits for `VAL`, in either mode (R192). -/
def headerOf (s : State) : List Byte :=
  if s.fixedAscii then asciiHeader s.hwidth (dec s.val.toNat) else uencode 8 s.val.toNat

/-- The block after `HDRE` has ended `OK`. -/
def headerSent (s : State) : State := finished false false (headerOf s).length (outAppend (headerOf s) s)

section
variable {s : State}

theorem headerOf_compact (hmode : s.fixedAscii = false) : headerOf s = uencode 8 s.val.toNat := by
  simp [headerOf, hmode]

theorem headerOf_ascii (hmode : s.fixedAscii = true) : headerOf s = asciiHeader s.hwidth (dec s.val.toNat) := by
  simp [headerOf, hmode]

theorem headerOf_ascii_length (hmode : s.fixedAscii = true) (hv : s.val.toNat < 10 ^ s.hwidth) :
    (headerOf s).length = s.hwidth := by
  rw [headerOf_ascii hmode, asciiHeader_length (dec_length_le s.val.isLt (hwidth_bounds s).1 hv)]

theorem headerOf_length_le (hfits : s.fixedAscii = false ∨ s.val.toNat < 10 ^ s.hwidth) :
    (headerOf s).length ≤ 32 := by
  cases hmode : s.fixedAscii with
  | false =>
    have hbound : ubound 8 = 10 := rfl
    have hlen := (uencode_length 8 s.val.toNat (by decide)).2
    rw [headerOf_compact hmode]
    omega
  | true => exact headerOf_ascii_length hmode (hfits.resolve_left (by simp [hmode])) ▸ (hwidth_bounds s).2

/-- An empty `OUT` has room for the header of every length that fits the mode. -/
theorem exec_hdre_of_fits (hout : s.outq = []) (hfits : s.fixedAscii = false ∨ s.val.toNat < 10 ^ s.hwidth) :
    exec .hdre s = .next (headerSent s) := by
  have hlen := headerOf_length_le hfits
  have hroom := outRoom_of_empty hout
  have hemit : exec .hdre s = emitAll (headerOf s) false id s := by
    cases hmode : s.fixedAscii with
    | false => rw [exec_hdre_compact hmode, headerOf_compact hmode]
    | true =>
      have hv := hfits.resolve_left (by simp [hmode])
      rw [exec_hdre_ascii hmode (dec_length_le s.val.isLt (hwidth_bounds s).1 hv), headerOf_ascii hmode]
  rw [hemit, emitAll_of_room (by omega)]
  rfl

end

/-- Settles O46: the header moved to `IN` is a field, or a header of the accepted shape, that carries `VAL`. -/
theorem headerRoundTrip : Obligations.HeaderRoundTrip := by
  intro s x hin hout hfits
  have hv : s.val.toNat < 2 ^ 64 := s.val.isLt
  have hq : ((looped (headerSent s)).setVal x).inq = headerOf s ++ [] := looped_inq hin hout
  have hcnt : (headerSent s).cnt = (headerOf s).length % 2 ^ 8 := finished_cnt ..
  have hval : BitVec.ofNat 64 s.val.toNat = s.val := by simp
  cases hmode : s.fixedAscii with
  | false =>
    have hbytes := headerOf_compact hmode
    have hfield : fieldNat (headerOf s) = s.val.toNat := hbytes ▸ fieldNat_uencode (w := .w64) hv
    have hdec := (hdrdCompactResult ((looped (headerSent s)).setVal x) hmode).1 _ _ hq
      (hbytes ▸ isField_uencode ..) (hbytes ▸ (uencode_length 8 _ (by decide)).2)
    rw [hfield, hval, decide_eq_false (Nat.not_le.mpr hv)] at hdec
    exact ⟨_, _, exec_hdre_of_fits hout hfits, finished_codeField .., hdec, (cnt_of_status rfl).trans hcnt.symm, rfl,
      rfl, ovl_of_status rfl, fun _ => ⟨codeField_of_status rfl, rfl⟩, by simp⟩
  | true =>
    have hlen := headerOf_ascii_length hmode (hfits.resolve_left (by simp [hmode]))
    have hshape := headerOf_ascii hmode ▸ asciiShape_asciiHeader (w := s.hwidth) hv
    have hdec := (hdrdAsciiResult ((looped (headerSent s)).setVal x) hmode).2 _ _ hq hlen
    rw [hlen] at hcnt
    by_cases hmax : s.val.toNat = 2 ^ 64 - 1
    · have hrefused := hdec.2.1 _ _ _ hshape (by rw [spelled_dec hv, hmax])
      exact ⟨_, _, exec_hdre_of_fits hout hfits, finished_codeField .., hrefused, (cnt_of_status rfl).trans hcnt.symm,
        rfl, rfl, ovl_of_status rfl, by simp [hmax], fun _ _ => ⟨codeField_of_status rfl, rfl⟩⟩
    · have haccepted := hdec.1 _ _ _ hshape (by rw [spelled_dec hv]; omega)
      rw [spelled_dec hv, hval] at haccepted
      exact ⟨_, _, exec_hdre_of_fits hout hfits, finished_codeField .., haccepted, (cnt_of_status rfl).trans hcnt.symm,
        rfl, rfl, ovl_of_status rfl, fun _ => ⟨codeField_of_status rfl, rfl⟩, fun _ h => absurd h hmax⟩

end Sys2Proof.Machine
end

section
/-! ## A Compact message over a blocking transport (43_host_framing.md R225 to R229, R235, R236; 42_frame_header.md
R203) -/

namespace Sys2Proof.Machine

/-- Writing a command's word to `CMD` executes the command (10_state.md R29). -/
theorem portCommand_of_exec {i : Instr} {s t : State} (hi : i.wf = true) (h : exec i s = .next t) :
    portCommand i s = some t := by
  have hword : ((encode i).zeroExtend 64).extractLsb' 0 16 = encode i := by
    apply BitVec.eq_of_toNat_eq
    rw [extractLow_toNat, BitVec.toNat_setWidth_of_le (by decide), Nat.mod_eq_of_lt (encode i).isLt]
  have hissue : hostWrite (idxOf .cmd) ((encode i).zeroExtend 64) s = .next t := by
    rw [idxOf, hostWrite_cmd, hword, issue_of_decode (decode_encode hi), h]
  rw [portCommand, portWrite, hissue]
  rfl

theorem portWrite_val (v : Word) (s : State) : portWrite .val v s = some (s.setVal v) := rfl

section
variable {s : State} {msg : List Byte}

/-- `HDRE; POP STATUS.CNT` gives the header and leaves `OUT` empty again. -/
theorem takeHeader_of_fits (hout : s.outq = []) (hfits : s.fixedAscii = false ∨ s.val.toNat < 10 ^ s.hwidth) :
    takeHeader s = (.ok (headerOf s), (headerSent s).setOutq []) := by
  have hlen := headerOf_length_le hfits
  have hok : (headerSent s).codeField = codeNumber .ok := finished_codeField ..
  have hcnt : (headerSent s).cnt = (headerOf s).length := (finished_cnt ..).trans (Nat.mod_eq_of_lt (by omega))
  have hsent : (headerSent s).outq = headerOf s := by simp [headerSent, hout]
  have hpop : popHeader (headerSent s) = (.ok (headerOf s), (headerSent s).setOutq []) := by
    rw [popHeader, hcnt, popN_of_le (hsent ▸ Nat.le_refl _), hsent, List.take_length, List.drop_length]
  have hcmd := portCommand_of_exec (i := .hdre) rfl (exec_hdre_of_fits hout hfits)
  simp only [takeHeader, hcmd, hok, hpop]
  rfl

/-- The block after `WR VAL, len; HDRE; POP STATUS.CNT`, from an empty `OUT` (R226). -/
def headerTaken (len : Nat) (s : State) : State := (headerSent (s.setVal (BitVec.ofNat 64 len))).setOutq []

theorem buildHeader_compact {len : Nat} (hlen : len < 2 ^ 64) (hmode : s.fixedAscii = false) (hout : s.outq = []) :
    buildHeader len s = (.ok (uencode 8 len), headerTaken len s) := by
  have hmode' : (s.setVal (BitVec.ofNat 64 len)).fixedAscii = false := hmode
  have hhdr : headerOf (s.setVal (BitVec.ofNat 64 len)) = uencode 8 len := by
    rw [headerOf_compact hmode', State.setVal_val, BitVec.toNat_ofNat, Nat.mod_eq_of_lt hlen]
  have htake := takeHeader_of_fits (s := s.setVal (BitVec.ofNat 64 len)) hout (.inl hmode')
  rw [hhdr] at htake
  exact htake

/-- A blocking transport with no answer listed takes the payload whole (R228; log entry 11). -/
theorem sendPayload_blocking {t : Transport} (hb : t.blocking = true) (ha : t.sendAnswers = []) (before : Nat)
    (hdr hdr' : List Byte) :
    sendPayload before (headerDone hdr) hdr' msg s t = ⟨.finished, s, { t with wire := t.wire ++ msg }⟩ := by
  rw [sendPayload, headerDone, List.drop_zero]
  split
  next hnil => simp [hnil]
  next => simp [send_blocking hb ha, movedBytes]

/-- The first attempt over such a transport puts header and payload on the wire. -/
theorem writeAttempt_compact {t : Transport} (hlen : msg.length < 2 ^ 64) (hmode : s.fixedAscii = false)
    (hout : s.outq = []) (hb : t.blocking = true) (ha : t.sendAnswers = []) :
    writeAttempt none [] msg s t =
      ⟨.finished, headerTaken msg.length s, { t with wire := t.wire ++ uencode 8 msg.length ++ msg }⟩ := by
  have hidle : writerState nothingSent msg.length = .idle := rfl
  have hmode' : (headerTaken msg.length s).fixedAscii = false := hmode
  have hblock : (!t.blocking) = false := by simp [hb]
  have hbuild := buildHeader_compact hlen hmode hout
  simp only [writeAttempt, Option.getD_none, hidle, startMessage, hbuild, hblock, hmode',
    Bool.false_eq_true, false_and, if_false]
  exact sendPayload_blocking (t := sendReliable (uencode 8 msg.length) t) hb ha _ _ _

/-- `HDRD` on a header of one byte, pushed into an empty `IN` in Compact mode. -/
theorem tryHeader_of_stopBit {b : Byte} (hb : stopBit b = true) (hmode : s.fixedAscii = false) (hin : s.inq = []) :
    ∃ u, tryHeader [b] s = some u ∧ u.codeField = codeNumber .ok ∧ u.val.toNat = payload b := by
  have hpush : pushAll [b] s = some (s.setInq [b]) := by
    rw [pushAll_of_fits (by simp [hin, Config.inCap]), hin, List.nil_append]
  have hexec := (hdrdCompactResult (s.setInq [b]) hmode).1 [b] [] rfl hb (Nat.le_add_left 1 9)
  have htry {u : State} (hu : exec .hdrd (s.setInq [b]) = .next u) : tryHeader [b] s = some u := by
    rw [tryHeader, hpush, Option.bind_some, portCommand_of_exec rfl hu]
  have hlt := payload_lt b
  have hval : fieldNat [b] = payload b := by simp [fieldNat]
  refine ⟨_, htry hexec, codeField_of_status (c := 1) rfl, ?_⟩
  rw [hval, BitVec.toNat_ofNat, Nat.mod_eq_of_lt (by omega)]

/-- A message whose header is one byte is read in the first round (R236). -/
theorem readMessage_of_stopBit {b : Byte} {t : Transport} (hb : stopBit b = true) (hmsg : payload b = msg.length)
    (hmode : s.fixedAscii = false) (hin : s.inq = []) (ha : t.receiveAnswers = []) (harrived : t.arrived = b :: msg) :
    (readMessage s t).outcome = .message msg := by
  obtain ⟨u, htry, hok, hval⟩ := tryHeader_of_stopBit hb hmode hin
  have hheader : receiveExactly 1 t = (.ok [b], { t with arrived := msg }) :=
    receiveExactly_arrived (bs := [b]) ha harrived
  have hpayload : receiveExactly msg.length { t with arrived := msg } = (.ok msg, { t with arrived := [] }) :=
    receiveExactly_arrived ha (List.append_nil msg).symm
  have hlen : (hostRead (idxOf .val) u).toNat = msg.length := hval.trans hmsg
  have hround : readMessage s t = receivePayload u { t with arrived := msg } := by
    have hnot : codeNumber .ok ≠ codeNumber .underrun := by decide
    have hrounds : ubound Config.sizeN = 9 + 1 := rfl
    simp only [readMessage, hmode, Bool.false_eq_true, if_false, hrounds, readCompact, hheader, htry, hok, if_neg hnot,
      if_true]
  rw [hround, receivePayload, hlen]
  split
  next hzero => rw [List.length_eq_zero_iff.mp hzero]
  next => rw [hpayload]

end

/-- Settles O58: five bytes are announced by the one byte `85`, which ends its own field. -/
theorem helloIsFramedAndRecovered : Obligations.HelloIsFramedAndRecovered := by
  unfold Obligations.HelloIsFramedAndRecovered
  intro t w r
  have hw : w = ⟨.finished, _, { t with wire := [0x85, 0x68, 0x65, 0x6C, 0x6C, 0x6F] }⟩ :=
    writeAttempt_compact (by decide) (by decide) rfl rfl rfl
  have hwire : w.transport.wire = [0x85, 0x68, 0x65, 0x6C, 0x6C, 0x6F] := by rw [hw]
  exact ⟨by rw [hw], hwire, readMessage_of_stopBit rfl rfl (by decide) rfl rfl hwire⟩

end Sys2Proof.Machine
end

section
/-! ## Reading a Compact message back (43_host_framing.md R235, R236) -/

namespace Sys2Proof.Machine

theorem noStop_of_isField_append {p r : List Byte} (hr : r ≠ []) (h : isField (p ++ r) = true) : noStop p = true := by
  rw [← List.dropLast_concat_getLast hr, ← List.append_assoc, isField_append_singleton, Bool.and_eq_true] at h
  obtain ⟨hlead, -⟩ := h
  exact noStop_iff.mpr fun b hb => noStop_iff.mp hlead b (List.mem_append_left _ hb)

/-- The block after `HDRD` has ended `Underrun` on what `IN` holds with one more byte (R195, R196). -/
def headerAwaiting (b : Byte) (s : State) : State :=
  (s.setInq (s.inq ++ [b])).setStatus (packStatus .underrun false false 0)

/-- The block after `HDRD` has taken what `IN` holds with one more byte (R196). -/
def headerRead (b : Byte) (s : State) : State :=
  { s with
    val := BitVec.ofNat 64 (fieldNat (s.inq ++ [b])), inq := []
    status := packStatus .ok false (decide (2 ^ 64 ≤ fieldNat (s.inq ++ [b]))) (s.inq ++ [b]).length }

section
variable {s : State} {t : Transport} {b : Byte} {msg more : List Byte}

/-- `IN` has room for one more header byte, so the attempt is `HDRD` on the bytes together. -/
theorem tryHeader_of_exec {u : State} (hlen : s.inq.length < 10)
    (h : exec .hdrd (s.setInq (s.inq ++ [b])) = .next u) : tryHeader [b] s = some u := by
  have hcap : 32 ≤ Config.inCap := Nat.le_add_left ..
  have hroom : s.inq.length + [b].length ≤ Config.inCap := by rw [List.length_singleton]; omega
  rw [tryHeader, pushAll_of_fits hroom, Option.bind_some, portCommand_of_exec rfl h]

/-- One byte received, as a round of the header loop does. -/
theorem receiveExactly_byte (ha : t.receiveAnswers = []) (harrived : t.arrived = b :: more) :
    receiveExactly 1 t = (.ok [b], { t with arrived := more }) :=
  receiveExactly_arrived (bs := [b]) ha harrived

/-- A round whose byte does not end the header goes on to the next round. -/
theorem readCompact_awaits (rounds : Nat) (hmode : s.fixedAscii = false) (hlen : s.inq.length < 9)
    (hstop : noStop (s.inq ++ [b]) = true) (ha : t.receiveAnswers = []) (harrived : t.arrived = b :: more) :
    readCompact (rounds + 1) s t = readCompact rounds (headerAwaiting b s) { t with arrived := more } := by
  have hbyte := receiveExactly_byte ha harrived
  have hshort : (s.inq ++ [b]).length < 10 := by rw [List.length_append, List.length_singleton]; omega
  have htry := tryHeader_of_exec (by omega) ((hdrdCompactResult (s.setInq (s.inq ++ [b])) hmode).2.2 hshort hstop)
  have hunderrun : (headerAwaiting b s).codeField = codeNumber .underrun := codeField_of_status rfl
  simp only [readCompact, hbyte, htry]
  exact if_pos hunderrun

/-- The round whose byte ends the header goes on to the payload. -/
theorem readCompact_ends (rounds : Nat) (hmode : s.fixedAscii = false) (hlen : s.inq.length < 10)
    (hfield : isField (s.inq ++ [b]) = true) (ha : t.receiveAnswers = []) (harrived : t.arrived = b :: more) :
    readCompact (rounds + 1) s t = receivePayload (headerRead b s) { t with arrived := more } := by
  have hbyte := receiveExactly_byte ha harrived
  have hbound : (s.inq ++ [b]).length ≤ 10 := by rw [List.length_append, List.length_singleton]; omega
  have htry := tryHeader_of_exec hlen
    ((hdrdCompactResult (s.setInq (s.inq ++ [b])) hmode).1 _ [] (List.append_nil _).symm hfield hbound)
  have hok : (headerRead b s).codeField = codeNumber .ok := codeField_of_status rfl
  have hnot : ¬ (headerRead b s).codeField = codeNumber .underrun := hok ▸ (by decide)
  simp only [readCompact, hbyte, htry]
  exact (if_neg hnot).trans (if_pos hok)

/-- The loop takes the rest of a header of at most ten bytes and no byte more: one round a byte. -/
theorem readCompact_of_field {rest : List Byte} {rounds : Nat} (hne : rest ≠ []) (hrounds : rest.length ≤ rounds)
    (hmode : s.fixedAscii = false) (hfield : isField (s.inq ++ rest) = true) (hlen : (s.inq ++ rest).length ≤ 10)
    (ha : t.receiveAnswers = []) (harrived : t.arrived = rest ++ more) :
    ∃ u, readCompact rounds s t = receivePayload u { t with arrived := more } ∧ u.inq = [] ∧
      u.val = BitVec.ofNat 64 (fieldNat (s.inq ++ rest)) := by
  induction rest generalizing rounds s t with
  | nil => exact absurd rfl hne
  | cons b rest ih =>
    rw [List.length_append, List.length_cons] at hlen
    obtain _ | rounds := rounds
    · cases hrounds
    · by_cases hlast : rest = []
      · subst hlast
        exact ⟨headerRead b s, readCompact_ends rounds hmode (by omega) hfield ha harrived, rfl, rfl⟩
      · have hsplit : s.inq ++ b :: rest = (headerAwaiting b s).inq ++ rest := List.append_cons ..
        have hpos := List.length_pos_iff.mpr hlast
        rw [readCompact_awaits rounds hmode (by omega) (noStop_of_isField_append hlast (hsplit ▸ hfield)) ha harrived,
          hsplit]
        refine ih hlast (Nat.le_of_succ_le_succ hrounds) hmode (hsplit ▸ hfield) ?_ ha rfl
        rw [← hsplit, List.length_append, List.length_cons]
        exact hlen

theorem receivePayload_arrived (hval : s.val.toNat = msg.length) (ha : t.receiveAnswers = [])
    (harrived : t.arrived = msg ++ more) :
    receivePayload s t = ⟨.message msg, s, { t with arrived := more }⟩ := by
  have hpayload := receiveExactly_arrived ha harrived
  have hlen : (hostRead (idxOf .val) s).toNat = msg.length := hval
  rw [receivePayload, hlen]
  split
  next hzero =>
    obtain rfl := List.length_eq_zero_iff.mp hzero
    rw [List.nil_append] at harrived
    rw [← harrived]
  next => rw [hpayload]

/-- `READ_MSG` on a message of `WRITE_MSG` gives the payload and takes no byte after it. -/
theorem readMessage_compact (hlen : msg.length < 2 ^ 64) (hmode : s.fixedAscii = false) (hin : s.inq = [])
    (ha : t.receiveAnswers = []) (harrived : t.arrived = uencode 8 msg.length ++ msg ++ more) :
    ∃ u, readMessage s t = ⟨.message msg, u, { t with arrived := more }⟩ ∧ u.inq = [] := by
  obtain ⟨hpos, hbound⟩ := uencode_length 8 msg.length (by decide)
  have hheader : s.inq ++ uencode 8 msg.length = uencode 8 msg.length := by rw [hin, List.nil_append]
  have hfield : isField (s.inq ++ uencode 8 msg.length) = true := by rw [hheader, isField_uencode]
  have hten : (s.inq ++ uencode 8 msg.length).length ≤ 10 := hheader.symm ▸ hbound
  obtain ⟨u, hread, hempty, hval⟩ := readCompact_of_field (rounds := ubound Config.sizeN)
    (List.length_pos_iff.mp hpos) hbound hmode hfield hten ha (harrived.trans (List.append_assoc ..))
  have hcarried : u.val.toNat = msg.length := by
    have hnat : fieldNat (uencode 8 msg.length) = msg.length := fieldNat_uencode (w := .w64) hlen
    rw [hval, hheader, hnat, BitVec.toNat_ofNat, Nat.mod_eq_of_lt hlen]
  have hcompact : readMessage s t = readCompact (ubound Config.sizeN) s t := if_neg (by simp [hmode])
  refine ⟨u, ?_, hempty⟩
  rw [hcompact, hread]
  exact receivePayload_arrived hcarried ha rfl

end

/-- Settles O59: the writer's wire is the header and the payload, and the reader takes exactly these. -/
theorem messageRoundTrip : Obligations.MessageRoundTrip := by
  intro msg more s s' t t' hlen hmode hout hb ha
  rw [writeAttempt_compact hlen hmode hout hb ha]
  refine ⟨uencode 8 msg.length, rfl, rfl, rfl, fun hmode' hin ha' harrived => ?_⟩
  obtain ⟨u, hread, hempty⟩ := readMessage_compact hlen hmode' hin ha' harrived
  rw [hread]
  exact ⟨rfl, rfl, hempty⟩

end Sys2Proof.Machine
end

section
/-! ## Backpressure on a non-blocking transport (43_host_framing.md R226, R228, R231) -/

namespace Sys2Proof.Machine

section
variable {s : State} {t : Transport} {msg : List Byte}

/-- A transport that answers with the whole payload's count takes the payload (R228). -/
theorem sendPayload_moved (ha : t.sendAnswers = [.moved msg.length]) (before : Nat) (hdr hdr' : List Byte) :
    (sendPayload before (headerDone hdr) hdr' msg s t).outcome = .finished ∧
      (sendPayload before (headerDone hdr) hdr' msg s t).transport.wire = t.wire ++ msg := by
  rw [sendPayload, headerDone, List.drop_zero]
  split
  next hnil => simp [hnil]
  next => simp [send, nextAnswer, movedBytes, ha]

/-- Without room for header and payload nothing is sent; the header is kept (R226, R230). -/
theorem startMessage_backpressure (hlen : msg.length < 2 ^ 64) (hmode : s.fixedAscii = false) (hout : s.outq = [])
    (hb : t.blocking = false) (hfull : t.freeEstimate < msg.length + (uencode 8 msg.length).length) :
    startMessage msg s t =
      ⟨.pending 0 nothingSent (uencode 8 msg.length), headerTaken msg.length s, t⟩ := by
  simp only [startMessage, buildHeader_compact hlen hmode hout]
  exact if_pos ⟨by simp [hb], hfull⟩

/-- With room for header and payload the header goes out whole, then the payload (R226). -/
theorem startMessage_room (hlen : msg.length < 2 ^ 64) (hmode : s.fixedAscii = false) (hout : s.outq = [])
    (hroom : msg.length + (uencode 8 msg.length).length ≤ t.freeEstimate) :
    startMessage msg s t =
      sendPayload (uencode 8 msg.length).length (headerDone (uencode 8 msg.length)) (uencode 8 msg.length) msg
        (headerTaken msg.length s) (sendReliable (uencode 8 msg.length) t) := by
  have hmode' : ¬ (headerTaken msg.length s).fixedAscii = true := Bool.not_eq_true _ ▸ hmode
  simp only [startMessage, buildHeader_compact hlen hmode hout]
  exact (if_neg fun h => Nat.not_lt.mpr hroom h.2).trans (if_neg hmode')

end

/-- Settles O60: both attempts start the message, and the first leaves a block from which the second builds the header
anew. -/
theorem writerResumesAfterBackpressure : Obligations.WriterResumesAfterBackpressure := by
  intro msg s t t' hlen hmode hout hb hfull _ hroom ha
  have hfirst : writeAttempt none [] msg s t =
      ⟨.pending 0 nothingSent (uencode 8 msg.length), headerTaken msg.length s, t⟩ :=
    startMessage_backpressure hlen hmode hout hb hfull
  have hsecond (hdr : List Byte) : writeAttempt (some nothingSent) hdr msg (headerTaken msg.length s) t' = _ :=
    startMessage_room hlen hmode rfl hroom
  rw [hfirst]
  refine ⟨uencode 8 msg.length, rfl, rfl, ?_⟩
  rw [hsecond]
  exact sendPayload_moved (t := sendReliable (uencode 8 msg.length) t') ha _ _ _

end Sys2Proof.Machine
end

section
/-! ## The end of every command (60_exceptions.md R260 to R267, R272; 70_reset_and_hazards.md R305) -/

namespace Sys2Proof.Machine

/-- The result is a next state, in which the command has ended with one of the listed outcomes. -/
def endsAmong (codes : List Code) (r : Result) : Prop :=
  ∃ t, r = .next t ∧ ∃ x ∈ codes, t.codeField = codeNumber x

/-! ### The shared operations -/

section
variable {codes : List Code} {s : State}

theorem raise_endsAmong {x : Code} {n : Nat} (hx : x ∈ codes) : endsAmong codes (raise x n s) :=
  ⟨_, raise_eq x n s, x, hx, raised_codeField ..⟩

theorem done_endsAmong {nf ovl : Bool} {n : Nat} (hok : .ok ∈ codes) : endsAmong codes (done nf ovl n s) :=
  ⟨_, done_eq nf ovl n s, .ok, hok, finished_codeField ..⟩

theorem emitAll_endsAmong {bs : List Byte} {nf : Bool} {writes : State → State} (hok : .ok ∈ codes)
    (hfull : .outFull ∈ codes) : endsAmong codes (emitAll bs nf writes s) := by
  unfold emitAll
  split
  · exact raise_endsAmong hfull
  · exact done_endsAmong hok

theorem decodeUnsigned_endsAmong {W M : Nat} {bad : Code} (hok : .ok ∈ codes) (hbad : bad ∈ codes)
    (hunder : .underrun ∈ codes) : endsAmong codes (decodeUnsigned W M bad s) := by
  unfold decodeUnsigned
  split
  · exact raise_endsAmong hunder
  · exact raise_endsAmong hbad
  · exact done_endsAmong hok

theorem decodeSigned_endsAmong {W M : Nat} (hok : .ok ∈ codes) (hbad : .malformedVarint ∈ codes)
    (hunder : .underrun ∈ codes) : endsAmong codes (decodeSigned W M s) := by
  unfold decodeSigned
  split
  · exact raise_endsAmong hunder
  · exact raise_endsAmong hbad
  · exact done_endsAmong hok

theorem emitPair_endsAmong {m e : Int} (hok : .ok ∈ codes) (hfull : .outFull ∈ codes)
    (hexp : expInRange (canon m e).2 = false → .expRange ∈ codes) : endsAmong codes (emitPair m e s) := by
  unfold emitPair
  dsimp only
  split
  next => exact emitAll_endsAmong hok hfull
  next hout => exact raise_endsAmong (hexp (Bool.eq_false_of_not_eq_true hout))

end

/-! ### Why `ENCR` never ends `ExpRange` (60_exceptions.md R272) -/

/-- The search makes at most the multiplications it is allowed (41_real.md R145). -/
theorem search_count_le (p k : Nat) (y : Word) : (search p k y).1 ≤ k + p := by
  induction p generalizing k y with
  | zero => exact Nat.le_refl k
  | succ p ih =>
    unfold search
    split
    · exact Nat.le_add_right k (p + 1)
    · have := ih (k + 1) (fmul y fTen)
      omega

/-- Each turn of the loop of R146 raises the exponent by one. -/
theorem canonLoop_exponent_bounds (fuel : Nat) (m e : Int) :
    e ≤ (canonLoop fuel m e).2 ∧ (canonLoop fuel m e).2 ≤ e + fuel := by
  induction fuel generalizing m e with
  | zero => simp [canonLoop]
  | succ fuel ih =>
    unfold canonLoop
    split
    · have := ih (m / 10) (e + 1)
      push_cast
      omega
    · exact ⟨Int.le_refl e, by push_cast; omega⟩

/-- A pair found with at most 63 multiplications has an exponent that can be sent, whatever zeros `canon` folds. -/
theorem expInRange_canon_neg {k : Nat} (hk : k ≤ 63) (m : Int) : expInRange (canon m (-(k : Int))).2 = true := by
  have hbounds : -(k : Int) ≤ (canon m (-(k : Int))).2 ∧ (canon m (-(k : Int))).2 ≤ -(k : Int) + 20 :=
    canonLoop_exponent_bounds 20 m (-(k : Int))
  rw [expInRange_iff]
  omega

theorem encodeReal_endsAmong {codes : List Code} {limit : Nat} {s : State} (hok : .ok ∈ codes)
    (hfull : .outFull ∈ codes) (hrange : .realRange ∈ codes) (hexp : limit ≤ 63 ∨ .expRange ∈ codes) :
    endsAmong codes (encodeReal limit s) := by
  unfold encodeReal
  dsimp only
  split
  · split
    · exact raise_endsAmong hrange
    · refine emitPair_endsAmong hok hfull fun hout => hexp.resolve_left fun hlimit => ?_
      have hcount := search_count_le limit 0 s.rval
      rw [expInRange_canon_neg (by omega)] at hout
      cases hout
  · exact emitAll_endsAmong hok hfull

/-! ### The commands -/

/-- Every `VAL` is a 64-bit unsigned value (40_varint.md R105). -/
theorem outsideUnsigned_w64 (v : Word) : outsideUnsigned (widthBits .w64) v.toNat = false :=
  outsideUnsigned_eq_false_iff.mpr v.isLt

/-- Every `VAL` is a 64-bit signed value (40_varint.md R112). -/
theorem outsideSigned_w64 (v : Word) : outsideSigned (widthBits .w64) v.toInt = false :=
  outsideSigned_eq_false_iff.mpr ⟨v.le_toInt, v.toInt_lt⟩

section
variable {codes : List Code} {s : State}

theorem execEncu_endsAmong {w : Width} (hok : .ok ∈ codes) (hfull : .outFull ∈ codes)
    (hrange : w ≠ .w64 → .encodeRange ∈ codes) : endsAmong codes (execEncu w s) := by
  unfold execEncu
  split
  next hout =>
    refine raise_endsAmong (hrange ?_)
    rintro rfl
    rw [outsideUnsigned_w64] at hout
    cases hout
  next => exact emitAll_endsAmong hok hfull

theorem execEncs_endsAmong {w : Width} (hok : .ok ∈ codes) (hfull : .outFull ∈ codes)
    (hrange : w ≠ .w64 → .encodeRange ∈ codes) : endsAmong codes (execEncs w s) := by
  unfold execEncs
  split
  next hout =>
    refine raise_endsAmong (hrange ?_)
    rintro rfl
    rw [outsideSigned_w64] at hout
    cases hout
  next => exact emitAll_endsAmong hok hfull

theorem execDecr_endsAmong (hok : .ok ∈ codes) (hbad : .malformedVarint ∈ codes) (hunder : .underrun ∈ codes) :
    endsAmong codes (execDecr s) := by
  unfold execDecr
  cases parseReal s.inq with
  | underrun => exact raise_endsAmong hunder
  | malformed => exact raise_endsAmong hbad
  | nonFinite | zeroShort | pair => exact done_endsAmong hok

theorem execDecd_endsAmong (hok : .ok ∈ codes) (hbad : .malformedVarint ∈ codes) (hunder : .underrun ∈ codes) :
    endsAmong codes (execDecd s) := by
  unfold execDecd
  cases parseReal s.inq with
  | underrun => exact raise_endsAmong hunder
  | malformed => exact raise_endsAmong hbad
  | nonFinite | zeroShort | pair => exact done_endsAmong hok

theorem execHdre_endsAmong (hok : .ok ∈ codes) (hfull : .outFull ∈ codes)
    (hrange : s.fixedAscii = true → .encodeRange ∈ codes) : endsAmong codes (execHdre s) := by
  unfold execHdre
  split
  next hmode =>
    split
    · exact raise_endsAmong (hrange hmode)
    · exact emitAll_endsAmong hok hfull
  next => exact emitAll_endsAmong hok hfull

theorem execHdrd_endsAmong (hok : .ok ∈ codes) (hunder : .underrun ∈ codes)
    (hlong : s.fixedAscii = false → .headerTooLong ∈ codes) (hbad : s.fixedAscii = true → .badHeader ∈ codes) :
    endsAmong codes (execHdrd s) := by
  unfold execHdrd
  split
  next hmode =>
    split
    · exact raise_endsAmong hunder
    · split
      · exact raise_endsAmong (hbad hmode)
      · split
        · exact raise_endsAmong (hbad hmode)
        · exact done_endsAmong hok
  next hmode => exact decodeUnsigned_endsAmong hok (hlong (Bool.eq_false_of_not_eq_true hmode)) hunder

theorem execSrst_codeField {t : State} (h : execSrst s = .next t) : t.codeField = codeNumber .ok := by
  rw [execSrst_next.mp h]
  exact codeField_of_status (nf := false) (ovl := false) (c := 0) rfl

end

/-! ### The outcomes that several commands share (R272) -/

theorem ok_mem_possibleCodes (i : Instr) (ascii : Bool) : .ok ∈ possibleCodes i ascii := by
  cases i with
  | encu w | encs w => cases w <;> simp [possibleCodes]
  | hdre | hdrd => cases ascii <;> decide
  | decu | decs | encr | encrU | decr | encd | decd | srst => simp [possibleCodes]

theorem outFull_mem_possibleCodes {i : Instr} (hi : isEncoder i = true) (ascii : Bool) :
    .outFull ∈ possibleCodes i ascii := by
  cases i with
  | encu w | encs w => cases w <;> simp [possibleCodes]
  | hdre => cases ascii <;> decide
  | encr | encrU | encd => simp [possibleCodes]
  | decu | decs | decr | decd | hdrd | srst => cases hi

theorem underrun_mem_possibleCodes {i : Instr} (hi : isDecoder i = true) (ascii : Bool) :
    .underrun ∈ possibleCodes i ascii := by
  cases i with
  | decu | decs | decr | decd => simp [possibleCodes]
  | hdrd => cases ascii <;> decide
  | encu | encs | encr | encrU | encd | hdre | srst => cases hi

/-- Settles O48: each command's own outcomes, beside `OK` and the outcome of a stream that is not ready. -/
theorem everyCommandEndsWithAnAllowedOutcome : Obligations.EveryCommandEndsWithAnAllowedOutcome := by
  intro i s hi
  change endsAmong (possibleCodes i s.fixedAscii) (exec i s)
  have hok := ok_mem_possibleCodes i s.fixedAscii
  have hfull (henc : isEncoder i = true) := outFull_mem_possibleCodes henc s.fixedAscii
  have hunder (hdec : isDecoder i = true) := underrun_mem_possibleCodes hdec s.fixedAscii
  cases i with
  | encu w => exact execEncu_endsAmong hok (hfull rfl) fun hw => by simp [possibleCodes, hw]
  | decu w => exact decodeUnsigned_endsAmong hok (by simp [possibleCodes]) (hunder rfl)
  | encs w => exact execEncs_endsAmong hok (hfull rfl) fun hw => by simp [possibleCodes, hw]
  | decs w => exact decodeSigned_endsAmong hok (by simp [possibleCodes]) (hunder rfl)
  | encr p =>
    have hp : p ≤ 63 := of_decide_eq_true hi
    exact encodeReal_endsAmong hok (hfull rfl) (by simp [possibleCodes]) (.inl hp)
  | encrU => exact encodeReal_endsAmong hok (hfull rfl) (by simp [possibleCodes]) (.inr (by simp [possibleCodes]))
  | decr => exact execDecr_endsAmong hok (by simp [possibleCodes]) (hunder rfl)
  | encd => exact emitPair_endsAmong hok (hfull rfl) fun _ => by simp [possibleCodes]
  | decd => exact execDecd_endsAmong hok (by simp [possibleCodes]) (hunder rfl)
  | hdre => exact execHdre_endsAmong hok (hfull rfl) fun hmode => by simp [possibleCodes, hmode]
  | hdrd =>
    exact execHdrd_endsAmong hok (hunder rfl) (fun hmode => by simp [possibleCodes, hmode])
      fun hmode => by simp [possibleCodes, hmode]
  | srst => exact ⟨_, rfl, .ok, hok, execSrst_codeField rfl⟩

/-! ### Outcomes other than `OK` -/

/-- The outcomes that take bytes are the codes 1 to 3 (R262). -/
theorem consumes_iff {x : Code} : consumes x = true ↔ codeNumber x = 1 ∨ codeNumber x = 2 ∨ codeNumber x = 3 := by
  cases x <;> decide

section
variable {i : Instr} {s t : State}

/-- A command that ends with an error has taken `n` bytes from `IN` and raised the outcome, and nothing else; it takes
no byte unless the outcome is one of those that do (R262). -/
theorem exec_error (h : exec i s = .next t) (herr : t.codeField ≠ codeNumber .ok) :
    ∃ x n, t = raised x n (inDrop n s) ∧ t.cnt = n ∧ (consumes x = false → n = 0) := by
  have hi : i ≠ .srst := by
    rintro rfl
    exact herr (execSrst_codeField h)
  cases exec_ends hi h with
  | @held x => exact ⟨x, 0, rfl, raised_cnt .., fun _ => rfl⟩
  | @refused x n _ hcons hn => exact ⟨x, n, rfl, hn.cnt_raised x _, by simp [hcons]⟩
  | decoded => exact absurd (finished_codeField ..) herr
  | emitted => exact absurd (finished_codeField ..) herr

/-- No command reads `STATUS`, and every command overwrites it (10_state.md R28). -/
theorem exec_setStatus (i : Instr) (y : Word) (s : State) : exec i (s.setStatus y) = exec i s := by
  by_cases hi : i = .srst
  · subst hi
    rfl
  · calc exec i (s.setStatus y)
        = exec i (overlay y s.sticky s) := rfl
      _ = rebasedResult s.sticky (exec i s) := exec_overlay y s.sticky s hi
      _ = exec i (overlay s.status s.sticky s) := (exec_overlay s.status s.sticky s hi).symm
      _ = exec i s := rfl

/-- `Underrun` and `OutFull` write `STATUS` alone, with `CNT = 0` (R266, R267). -/
theorem exec_wouldBlock (h : exec i s = .next t)
    (hcode : t.codeField = codeNumber .underrun ∨ t.codeField = codeNumber .outFull) :
    t = s.setStatus t.status ∧ t.cnt = 0 := by
  have herr : t.codeField ≠ codeNumber .ok := by
    rcases hcode with hcode | hcode <;> simp [hcode, codeNumber]
  obtain ⟨x, n, rfl, hcnt, hkept⟩ := exec_error h herr
  rw [raised_codeField, codeNumber_inj, codeNumber_inj] at hcode
  obtain rfl : n = 0 := hkept (by rcases hcode with rfl | rfl <;> rfl)
  have hsticky : codeSticky x = false := by rcases hcode with rfl | rfl <;> rfl
  exact ⟨raised_of_not_sticky hsticky 0 s, hcnt⟩

end

/-- Settles O49: an error outcome is `raised` after the bytes it counts are dropped. -/
theorem errorOutcomesArePrecise : Obligations.ErrorOutcomesArePrecise := by
  intro i s t h herr
  obtain ⟨x, n, rfl, hcnt, hkept⟩ := exec_error h herr
  refine ⟨⟨rfl, rfl, rfl, rfl, rfl, rfl, rfl⟩, raised_nf .., raised_ovl .., packStatus_unused .., ?_⟩
  rw [raised_codeField, hcnt]
  split
  next => rfl
  next hcode =>
    have hcons : consumes x = false := Bool.eq_false_of_not_eq_true (mt consumes_iff.mp hcode)
    obtain rfl := hkept hcons
    rfl

/-- Settles O50: the state differs in `STATUS` alone, which no command reads. -/
theorem retryIsHarmless : Obligations.RetryIsHarmless := by
  intro i s t h hcode
  obtain ⟨hstatus, hcnt⟩ := exec_wouldBlock h hcode
  refine ⟨hstatus, hcnt, ?_⟩
  calc exec i t = exec i (s.setStatus t.status) := by rw [← hstatus]
    _ = exec i s := exec_setStatus i t.status s
    _ = .next t := h

end Sys2Proof.Machine
end

section
/-! ## An illegal word, and that the block always goes on (60_exceptions.md R262, R270, R275; 20_memory.md R61) -/

namespace Sys2Proof.Machine

/-- Settles O16: the word ends `IllegalCmd`, and a legal word written then is issued as in any state. -/
theorem illegalWordChangesOnlyStatusAndSticky : Obligations.IllegalWordChangesOnlyStatusAndSticky := by
  intro d s hdec
  refine ⟨raised .illegalCmd 0 s, issue_next.mpr (.inr ⟨hdec, rfl⟩), rfl, raised_codeField .., raised_nf ..,
    raised_ovl .., raised_cnt .., packStatus_unused .., fun d' i hdec' => ?_⟩
  rw [hostWrite_cmd, issue_of_decode hdec']

/-- Issuing any word goes on: only well-formed commands are decoded, and an illegal word raises `IllegalCmd`. -/
theorem issue_goes_on (c : CmdWord) (s : State) : ∃ t, issue c s = .next t := by
  cases hdec : decode c with
  | ok i =>
    obtain ⟨hwf, _⟩ := (decode_eq_ok_iff c i).mp hdec
    obtain ⟨t, hexec, _⟩ := everyCommandEndsWithAnAllowedOutcome i s hwf
    exact ⟨t, by rw [issue_of_decode hdec, hexec]⟩
  | error e =>
    cases e
    exact ⟨_, issue_next.mpr (.inr ⟨hdec, rfl⟩)⟩

/-- Every host write is allowed (20_memory.md R61). -/
theorem hostWrite_goes_on (i : RegIdx) (d : Word) (s : State) : ∃ t, hostWrite i d s = .next t := by
  unfold hostWrite
  cases regOf i with
  | cmd => exact issue_goes_on _ s
  | status | sticky | cfg | val | rval | mant | expo | ilvl | olvl | reserved => exact ⟨_, rfl⟩

theorem hostTurn_goes_on (s : State) : ∃ t, hostTurn s = .next t := by
  unfold hostTurn
  split
  · exact ⟨_, rfl⟩
  · exact ⟨_, rfl⟩
  · exact hostWrite_goes_on _ _ _

theorem sourceTurn_goes_on (s : State) : ∃ t, sourceTurn s = .next t := by
  unfold sourceTurn
  split
  · exact ⟨_, rfl⟩
  · split
    · exact ⟨_, rfl⟩
    · exact ⟨_, rfl⟩

theorem sinkTurn_goes_on (s : State) : ∃ t, sinkTurn s = .next t := by
  unfold sinkTurn
  split
  · exact ⟨_, rfl⟩
  · exact ⟨_, rfl⟩

theorem agentTurn_goes_on (a : Agent) (s : State) : ∃ t, agentTurn a s = .next t := by
  cases a with
  | host => exact hostTurn_goes_on s
  | source => exact sourceTurn_goes_on s
  | sink => exact sinkTurn_goes_on s
  | reset => exact ⟨_, rfl⟩

theorem step_goes_on (s : State) : safeStep s := by
  cases hturns : s.env.turns with
  | nil => exact ⟨s, step_of_idle hturns⟩
  | cons a rest =>
    obtain ⟨t, hturn⟩ := agentTurn_goes_on a (s.setEnv { s.env with turns := rest })
    exact ⟨t, by rw [step_of_turn hturns, hturn]⟩

/-- A run takes its first step, then runs on from there. -/
theorem run_succ_of_step {M : Host.Core} {s u : M.State} (n : Nat) (h : M.step s = .next u) :
    M.run (n + 1) s = M.run n u := by
  rw [Host.Core.run, h]

theorem run_goes_on (n : Nat) (s : State) : ∃ t, Sys2Proof.core.run n s = .next t := by
  induction n generalizing s with
  | zero => exact ⟨s, rfl⟩
  | succ n ih =>
    obtain ⟨u, hstep⟩ := step_goes_on s
    obtain ⟨t, hrun⟩ := ih u
    exact ⟨t, (run_succ_of_step (M := Sys2Proof.core) n hstep).trans hrun⟩

/-- Settles O57: every turn of every agent goes on, and a run is a sequence of such turns. -/
theorem noRunStops : Obligations.NoRunStops := fun n s => ⟨step_goes_on s, run_goes_on n s⟩

end Sys2Proof.Machine
end
